-- ==== Sys2Proof/Word.lean ====
section
/-! DEFINITION. The words of the block: 16-bit register images, 8-bit ring slots, 64-bit request words
(spec/00_scope.md R10, spec/30_encoding.md R90). -/

namespace Sys2Proof

/-- A lower-port register or register image: 16 bits (R10, R36). -/
abbrev Word := BitVec 16

/-- A ring slot, a received or a transmitted byte: 8 bits (R10, R21, R22). -/
abbrev Byte := BitVec 8

/-- A host request word: 64 bits (R90). -/
abbrev ReqWord := BitVec 64

/-- An address of the lower port: 16 bits (R70). -/
abbrev Addr := BitVec 16

end Sys2Proof
end

