-- ==== Sys2Proof/Syntax.lean ====
section
/-! DEFINITION. The syntax of the block: the thirteen host requests of spec/30_encoding.md R93, the two service
events of R97, and the four controller command words of R108, one constructor for each row of the opcode table. -/

namespace Sys2Proof

/-- A drive number 0 to 3 (R10, R91 field DRV). -/
abbrev Drive := BitVec 2

/-- The eight function-code names of the controller (R106). Only four of them are admitted (R107). -/
inductive Fn where
  | nop | writeCheck | getStatus | seek | readHeader | writeData | readData | readDataNoHeaderCheck
  deriving DecidableEq, Repr

/-- What the machine executes: a host request, a service event or a controller command word. -/
inductive Instr where
  /-- `SRX_RD` (R126). -/
  | srxRd
  /-- `STX_WR b` (R128). -/
  | stxWr (b : Byte)
  /-- `SRX_AVAIL` (R127). -/
  | srxAvail
  /-- `SRT_INIT` (R130). -/
  | srtInit
  /-- `SCE_INIT` (R170). -/
  | sceInit
  /-- `C_WAITC` (R141). -/
  | cWaitc
  /-- `C_WAITD d [, R] [, S]` (R143). -/
  | cWaitd (d : Drive) (refresh reset : Bool)
  /-- `C_CMD d, FN` (R145). -/
  | cCmd (d : Drive) (fn : Fn)
  /-- `C_STAT d [, S]` (R148). -/
  | cStat (d : Drive) (reset : Bool)
  /-- `C_SEEK d, cyl, hd` (R152). -/
  | cSeek (d : Drive) (hd : BitVec 1) (cyl : BitVec 9)
  /-- `C_RDBLK d, sec, hd, cyl, wc, ba` (R160). -/
  | cRdblk (d : Drive) (sec : BitVec 6) (hd : BitVec 1) (cyl : BitVec 9) (wc : Word) (ba : Word)
  /-- `C_DECERR w` (R165). -/
  | cDecerr (w : Word)
  /-- `C_DECST w` (R167). -/
  | cDecst (w : Word)
  /-- `SVC_RX`, the receive service (R121), event code 0 (R97). -/
  | svcRx
  /-- `SVC_TX`, the transmit service (R123), event code 1 (R97). -/
  | svcTx
  /-- The controller command word `GET_STATUS` to drive `d` (R108, R106). -/
  | getStatus (d : Drive)
  /-- The controller command word `SEEK` to drive `d` (R108, R106). -/
  | seek (d : Drive)
  /-- The controller command word `READ_HEADER` to drive `d` (R108, R106). -/
  | readHeader (d : Drive)
  /-- The controller command word `READ_DATA` to drive `d` (R108, R106). -/
  | readData (d : Drive)
  deriving DecidableEq, Repr

/-- The thirteen instructions that the host issues as request words (R93); the services and the controller
command words are not requests (R97). -/
def Instr.isRequest : Instr → Bool
  | .srxRd | .stxWr _ | .srxAvail | .srtInit | .sceInit | .cWaitc | .cWaitd _ _ _ | .cCmd _ _ | .cStat _ _
  | .cSeek _ _ _ | .cRdblk _ _ _ _ _ _ | .cDecerr _ | .cDecst _ => true
  | .svcRx | .svcTx | .getStatus _ | .seek _ | .readHeader _ | .readData _ => false

end Sys2Proof
end

