-- ==== Sys2Proof/Config.lean ====
section
/-! DEFINITION. The configuration record CFG of spec/00_scope.md R8, with the layout, address and code records it
holds, and the one free value of the model. The record is part of the initial state, so that every statement about
all states is a statement about all configurations; the default values stand in Machine/Defaults.lean. -/

namespace Sys2Proof

/-- The access column of a register field (R37). -/
inductive AccessRight where
  /-- `RO`: the device drives it and ignores writes. -/
  | ro
  /-- `RW`: the block writes it and reads back what it wrote unless the device changes it. -/
  | rw
  /-- `WO`: the block writes it and a read returns an unspecified value. -/
  | wo
  /-- `W0`: the block always writes 0. -/
  | w0
  deriving DecidableEq, Repr

/-- A field of a 16-bit register or device word: its lowest bit, its width and its access right (R37). -/
structure Field where
  lo : Nat
  width : Nat
  access : AccessRight
  deriving DecidableEq, Repr

/-- `CFG.LAYOUT` (R8, R37): every field of the registers of R38 to R46 and of the device words of R100 to R105. -/
structure Layout where
  /-- CS fields (R38). -/
  csDRDY : Field
  csF : Field
  csBAX : Field
  csIE : Field
  csCRDY : Field
  csDS : Field
  csE : Field
  csDE : Field
  csCE : Field
  /-- BA (R40). -/
  baADDR : Field
  /-- DA: the word whose formats are those of R100 to R102 (R41). -/
  daWORD : Field
  /-- MP: the word whose formats are those of R103 to R105 (R42, which states no access right for it;
  assumption 23). -/
  mpWORD : Field
  /-- RCSR (R43). -/
  rcsrDONE : Field
  rcsrRIE : Field
  /-- RBUF (R44). -/
  rbufDATA : Field
  /-- XCSR (R45). -/
  xcsrREADY : Field
  xcsrTIE : Field
  /-- XBUF (R46). -/
  xbufDATA : Field
  /-- DA read-data word (R100). -/
  rdCYL : Field
  rdHEAD : Field
  rdSEC : Field
  /-- DA seek word (R101). -/
  seekDIFF : Field
  seekHS : Field
  seekDIR : Field
  seekMARK : Field
  /-- DA get-status word (R102): the two marker bits and `RST`. -/
  gsMARK : Field
  gsRST : Field
  /-- MP drive-status word (R103): major state and drive type. -/
  stSTATE : Field
  stDT : Field
  /-- MP header word (R105). -/
  hdCYL : Field
  hdHEAD : Field
  hdSEC : Field
  deriving DecidableEq, Repr

/-- `CFG.ADDR` (R47): the lower-port address of each of the eight registers. -/
structure RegAddrs where
  cs : Addr
  ba : Addr
  da : Addr
  mp : Addr
  rcsr : Addr
  rbuf : Addr
  xcsr : Addr
  xbuf : Addr
  deriving DecidableEq, Repr

/-- `CFG.FCODE` (R106): the 3-bit code of each function name. -/
structure FCodes where
  nop : BitVec 3
  writeCheck : BitVec 3
  getStatus : BitVec 3
  seek : BitVec 3
  readHeader : BitVec 3
  writeData : BitVec 3
  readData : BitVec 3
  readDataNoHeaderCheck : BitVec 3
  deriving DecidableEq, Repr

/-- `ErrLabel` (R166). -/
inductive ErrLabel where
  | eNone | eOpi | eDcrc | eHcrc | eDlt | eHnf | eNxm | eUnknown
  deriving DecidableEq, Repr

/-- `StateLabel` (R168). -/
inductive StateLabel where
  | sLoad | sSpinUp | sBrush | sLoadHeads | sSeek | sLockOn | sUnloadHeads | sSpinDown | sUnknown
  deriving DecidableEq, Repr

/-- `CFG.WC_FORM` (R104): the encoding of the transfer word count. -/
inductive WcForm where
  | ones | twos
  deriving DecidableEq, Repr

/-- `CFG` (R8), with exactly the fields of the table of that rule. The two label tables are total functions on
4-bit and 3-bit codes, held as plain data: entry `c` is the label of code `c` (R166, R168). -/
structure Cfg where
  ndrives : Nat
  rxCap : Nat
  txCap : Nat
  ovfBits : Nat
  sectorsPerTrack : Nat
  heads : Nat
  cylSmall : Nat
  cylLarge : Nat
  blockSize : Nat
  addr : RegAddrs
  layout : Layout
  fcode : FCodes
  errtab : Vector ErrLabel 16
  statetab : Vector StateLabel 8
  wcForm : WcForm
  deriving DecidableEq, Repr

/-- The free value of the model: the word that a device register presents where the spec leaves it open, namely MP
after MP has been read (R78, assumption 8) and the bits that a write-only register does not show (R37 `WO`, R46, U19).
It has no body, so nothing can be proved of its value. The argument is the counter `State.free`. -/
opaque Config.freeWord : Nat → Word

end Sys2Proof
end

