-- ==== Sys2Proof/Machine/Defaults.lean ====
section
/-! DEFINITION. The default values of the configuration (spec/00_scope.md R8, spec/10_state.md R38 to R47,
spec/30_encoding.md R100 to R106, spec/41_storage_engine.md R166, R168). `RX_CAP` and `TX_CAP` have no default in the
spec; 4 is the value of its vectors (assumption 2). -/

namespace Sys2Proof.Machine

/-- The default layout (R38 to R46, R100 to R105). The spec states no access right for MP (R42) and for the fields of the
words of R100 to R105; `RW` there is the model's (DESIGN CHOICE, assumption 23). -/
def defaultLayout : Layout where
  csDRDY := ⟨0, 1, .ro⟩
  csF := ⟨1, 3, .rw⟩
  csBAX := ⟨4, 2, .w0⟩
  csIE := ⟨6, 1, .w0⟩
  csCRDY := ⟨7, 1, .rw⟩
  csDS := ⟨8, 2, .rw⟩
  csE := ⟨10, 4, .ro⟩
  csDE := ⟨14, 1, .ro⟩
  csCE := ⟨15, 1, .ro⟩
  baADDR := ⟨0, 16, .rw⟩
  daWORD := ⟨0, 16, .rw⟩
  mpWORD := ⟨0, 16, .rw⟩
  rcsrDONE := ⟨7, 1, .ro⟩
  rcsrRIE := ⟨6, 1, .rw⟩
  rbufDATA := ⟨0, 8, .ro⟩
  xcsrREADY := ⟨7, 1, .ro⟩
  xcsrTIE := ⟨6, 1, .rw⟩
  xbufDATA := ⟨0, 8, .wo⟩
  rdCYL := ⟨7, 9, .rw⟩
  rdHEAD := ⟨6, 1, .rw⟩
  rdSEC := ⟨0, 6, .rw⟩
  seekDIFF := ⟨7, 9, .rw⟩
  seekHS := ⟨4, 1, .rw⟩
  seekDIR := ⟨2, 1, .rw⟩
  seekMARK := ⟨0, 1, .rw⟩
  gsMARK := ⟨0, 2, .rw⟩
  gsRST := ⟨3, 1, .rw⟩
  stSTATE := ⟨0, 3, .rw⟩
  stDT := ⟨7, 1, .rw⟩
  hdCYL := ⟨7, 9, .rw⟩
  hdHEAD := ⟨6, 1, .rw⟩
  hdSEC := ⟨0, 6, .rw⟩

/-- The default register addresses (R47). -/
def defaultAddrs : RegAddrs where
  cs := 0xF900#16
  ba := 0xF902#16
  da := 0xF904#16
  mp := 0xF906#16
  rcsr := 0xFF70#16
  rbuf := 0xFF72#16
  xcsr := 0xFF74#16
  xbuf := 0xFF76#16

/-- The default function codes (R106). -/
def defaultFcode : FCodes where
  nop := 0#3
  writeCheck := 1#3
  getStatus := 2#3
  seek := 3#3
  readHeader := 4#3
  writeData := 5#3
  readData := 6#3
  readDataNoHeaderCheck := 7#3

/-- The default error-code map (R166), entry by entry. -/
def defaultErrtab : Vector ErrLabel 16 :=
  #v[.eNone, .eOpi, .eDcrc, .eHcrc, .eDlt, .eHnf, .eUnknown, .eUnknown,
     .eNxm, .eUnknown, .eUnknown, .eUnknown, .eUnknown, .eUnknown, .eUnknown, .eUnknown]

/-- The default drive-state map (R168), entry by entry. -/
def defaultStatetab : Vector StateLabel 8 :=
  #v[.sLoad, .sSpinUp, .sBrush, .sLoadHeads, .sSeek, .sLockOn, .sUnloadHeads, .sSpinDown]

/-- The configuration of the machine after reset: the values and defaults of R8. -/
def defaultCfg : Cfg where
  ndrives := 4
  rxCap := 4
  txCap := 4
  ovfBits := 16
  sectorsPerTrack := 40
  heads := 2
  cylSmall := 256
  cylLarge := 512
  blockSize := 256
  addr := defaultAddrs
  layout := defaultLayout
  fcode := defaultFcode
  errtab := defaultErrtab
  statetab := defaultStatetab
  wcForm := .ones

end Sys2Proof.Machine
end

