-- ==== Sys2Proof/WellFormed.lean ====
section
/-! DEFINITION. Well-formed requests (spec/30_encoding.md R96, R107; spec/20_memory.md R76) and well-formed
configurations (spec/00_scope.md R8, spec/20_memory.md R76, spec/10_state.md R37), and the configurations that keep the
default widths and access rights. -/

namespace Sys2Proof

/-- The four function codes the block issues and `C_CMD` accepts (R107). -/
def Fn.admitted : Fn → Bool
  | .getStatus | .seek | .readHeader | .readData => true
  | .nop | .writeCheck | .writeData | .readDataNoHeaderCheck => false

/-- The request check on operands (R96): an admitted function code for `C_CMD`, an even bus address for `C_RDBLK`.
Every other operand value is admitted by its field. -/
def Instr.wf : Instr → Bool
  | .cCmd _ fn => fn.admitted
  | .cRdblk _ _ _ _ _ ba => !ba.getLsbD 0
  | .srxRd | .stxWr _ | .srxAvail | .srtInit | .sceInit | .cWaitc | .cWaitd _ _ _ | .cStat _ _ | .cSeek _ _ _
  | .cDecerr _ | .cDecst _ | .svcRx | .svcTx | .getStatus _ | .seek _ | .readHeader _ | .readData _ => true

/-- The field lies inside a 16-bit word. -/
def Field.fits (f : Field) : Bool := decide (1 ≤ f.width) && decide (f.lo + f.width ≤ 16)

/-- The two fields share no bit. -/
def Field.disjoint (f g : Field) : Bool := decide (f.lo + f.width ≤ g.lo) || decide (g.lo + g.width ≤ f.lo)

/-- Every field of one word fits, and no two of them overlap. -/
def fieldsOk : List Field → Bool
  | [] => true
  | f :: fs => f.fits && (fs.all (fun g => f.disjoint g) && fieldsOk fs)

/-- The field has the given width and access right. -/
def Field.shaped (f : Field) (width : Nat) (access : AccessRight) : Bool :=
  decide (f.width = width) && decide (f.access = access)

/-- Every check of a list holds. -/
def allOk : List Bool → Bool
  | [] => true
  | b :: bs => b && allOk bs

/-- The default widths (R10) and access rights (R38 to R46) of every field, at any place. They are fields of the layout
too (R37), so that a well-formed layout need not have them; claims that rest on them say so. `RW` for MP (R42) and for the
fields of the words of R100 to R105 is the model's (DESIGN CHOICE, assumption 23). -/
def Layout.shaped (l : Layout) : Bool :=
  allOk [
    l.csDRDY.shaped 1 .ro, l.csF.shaped 3 .rw, l.csBAX.shaped 2 .w0, l.csIE.shaped 1 .w0, l.csCRDY.shaped 1 .rw,
    l.csDS.shaped 2 .rw, l.csE.shaped 4 .ro, l.csDE.shaped 1 .ro, l.csCE.shaped 1 .ro, l.baADDR.shaped 16 .rw,
    l.daWORD.shaped 16 .rw, l.mpWORD.shaped 16 .rw,
    l.rcsrDONE.shaped 1 .ro, l.rcsrRIE.shaped 1 .rw, l.rbufDATA.shaped 8 .ro, l.xcsrREADY.shaped 1 .ro,
    l.xcsrTIE.shaped 1 .rw, l.xbufDATA.shaped 8 .wo, l.rdCYL.shaped 9 .rw, l.rdHEAD.shaped 1 .rw, l.rdSEC.shaped 6 .rw,
    l.seekDIFF.shaped 9 .rw, l.seekHS.shaped 1 .rw, l.seekDIR.shaped 1 .rw, l.seekMARK.shaped 1 .rw,
    l.gsMARK.shaped 2 .rw, l.gsRST.shaped 1 .rw, l.stSTATE.shaped 3 .rw, l.stDT.shaped 1 .rw, l.hdCYL.shaped 9 .rw,
    l.hdHEAD.shaped 1 .rw, l.hdSEC.shaped 6 .rw]

/-- A layout is well-formed when, word by word, its fields fit and do not overlap; the place, width and access right of
each are free (R37). -/
def Layout.wf (l : Layout) : Bool :=
  allOk [
    fieldsOk [l.csDRDY, l.csF, l.csBAX, l.csIE, l.csCRDY, l.csDS, l.csE, l.csDE, l.csCE],
    fieldsOk [l.baADDR], fieldsOk [l.daWORD], fieldsOk [l.mpWORD], fieldsOk [l.rcsrDONE, l.rcsrRIE], fieldsOk [l.rbufDATA],
    fieldsOk [l.xcsrREADY, l.xcsrTIE], fieldsOk [l.xbufDATA],
    fieldsOk [l.rdCYL, l.rdHEAD, l.rdSEC], fieldsOk [l.seekDIFF, l.seekHS, l.seekDIR, l.seekMARK],
    fieldsOk [l.gsMARK, l.gsRST], fieldsOk [l.stSTATE, l.stDT], fieldsOk [l.hdCYL, l.hdHEAD, l.hdSEC]]

/-- The eight addresses in the order of R47. -/
def RegAddrs.toList (a : RegAddrs) : List Addr := [a.cs, a.ba, a.da, a.mp, a.rcsr, a.rbuf, a.xcsr, a.xbuf]

/-- The register addresses are even (R76). -/
def RegAddrs.even (a : RegAddrs) : Bool := a.toList.all (fun x => !x.getLsbD 0)

/-- No two registers have one address (R70). -/
def RegAddrs.distinct (a : RegAddrs) : Bool := decide a.toList.Nodup

/-- The eight codes in the order of R106. -/
def FCodes.toList (c : FCodes) : List (BitVec 3) :=
  [c.nop, c.writeCheck, c.getStatus, c.seek, c.readHeader, c.writeData, c.readData, c.readDataNoHeaderCheck]

/-- No two function names have one code (R106). -/
def FCodes.wf (c : FCodes) : Bool := decide c.toList.Nodup

/-- A well-formed configuration (R8): the ranges of the table, even and distinct register addresses (R70, R76), a layout
whose fields fit, and distinct function codes. The machine refuses odd addresses alone (R76); under any other
configuration it runs, and claims are made of the well-formed ones (assumption 14). -/
def Cfg.wf (c : Cfg) : Bool :=
  allOk [
    decide (c.ndrives = 4), decide (2 ≤ c.rxCap), decide (2 ≤ c.txCap), decide (c.ovfBits = 16),
    decide (1 ≤ c.sectorsPerTrack), decide (c.sectorsPerTrack ≤ 64), decide (1 ≤ c.heads), decide (c.heads ≤ 2),
    decide (1 ≤ c.cylSmall), decide (c.cylSmall ≤ 512), decide (1 ≤ c.cylLarge), decide (c.cylLarge ≤ 512),
    decide (c.blockSize % 2 = 0), decide (2 ≤ c.blockSize), decide (c.blockSize ≤ 131070),
    c.addr.even, c.addr.distinct, c.layout.wf, c.fcode.wf]

/-- A well-formed configuration with the default widths and access rights (R10, R38 to R46; assumption 23 for MP); places, addresses, codes,
tables and capacities are free. -/
def Cfg.standard (c : Cfg) : Bool := c.wf && c.layout.shaped

end Sys2Proof
end

