-- ==== Sys2Proof/Machine/Operands.lean ====
section
/-! DEFINITION. Fields of a word and the device words of spec/30_encoding.md R100 to R109, all read through the
configuration: what the block writes to and takes from the lower port. -/

namespace Sys2Proof.Machine

/-! ### Fields -/

/-- `n` one bits at the low end of a word. -/
def lowOnes (n : Nat) : Word := BitVec.ofNat 16 (2 ^ n - 1)

/-- The bits of a field. -/
def fieldMask (f : Field) : Word := lowOnes f.width <<< f.lo

/-- `w[hi:lo]` for the field's bits, read as an unsigned number of `n` bits (R11). -/
def getField (f : Field) (n : Nat) (w : Word) : BitVec n := ((w >>> f.lo) &&& lowOnes f.width).setWidth n

/-- The word that holds `v` in the field and 0 elsewhere. -/
def putField (f : Field) {n : Nat} (v : BitVec n) : Word := (v.setWidth 16 &&& lowOnes f.width) <<< f.lo

/-- `w` with the field replaced by `v`. -/
def setField (f : Field) {n : Nat} (v : BitVec n) (w : Word) : Word := (w &&& ~~~fieldMask f) ||| putField f v

/-- One-bit field as a flag. -/
def flagField (f : Field) (w : Word) : Bool := getField f 1 w == 1#1

/-- The bits of those fields of a list that have the given access right (R37). -/
def accessBits (a : AccessRight) : List Field → Word
  | [] => 0#16
  | f :: fs => (if f.access = a then fieldMask f else 0#16) ||| accessBits a fs

/-! ### Codes, labels and geometry -/

/-- `CFG.FCODE(name)` (R106). -/
def fcode (c : Cfg) : Fn → BitVec 3
  | .nop => c.fcode.nop
  | .writeCheck => c.fcode.writeCheck
  | .getStatus => c.fcode.getStatus
  | .seek => c.fcode.seek
  | .readHeader => c.fcode.readHeader
  | .writeData => c.fcode.writeData
  | .readData => c.fcode.readData
  | .readDataNoHeaderCheck => c.fcode.readDataNoHeaderCheck

/-- The name of a function code, the inverse of `fcode` (R106). -/
def fnOfCode (c : Cfg) (code : BitVec 3) : Option Fn :=
  [Fn.nop, .writeCheck, .getStatus, .seek, .readHeader, .writeData, .readData, .readDataNoHeaderCheck].find?
    (fun fn => fcode c fn == code)

/-- `ERRTAB(code)` (R166). -/
def errLabel (c : Cfg) (code : BitVec 4) : ErrLabel := c.errtab[code.toNat]'(code.isLt)

/-- `STATETAB(code)` (R168). -/
def stateLabel (c : Cfg) (code : BitVec 3) : StateLabel := c.statetab[code.toNat]'(code.isLt)

/-- `BLOCK_WORDS` (R9). -/
def blockWords (c : Cfg) : Nat := c.blockSize / 2

/-! ### Device words the block writes -/

/-- `da_rd(c, h, s)` (R100). -/
def daRd (c : Cfg) (cyl : BitVec 9) (hd : BitVec 1) (sec : BitVec 6) : Word :=
  putField c.layout.rdCYL cyl ||| putField c.layout.rdHEAD hd ||| putField c.layout.rdSEC sec

/-- `da_seek(mag, dir, hs)` (R101). -/
def daSeek (c : Cfg) (mag : BitVec 9) (dir hs : BitVec 1) : Word :=
  putField c.layout.seekDIFF mag ||| putField c.layout.seekHS hs ||| putField c.layout.seekDIR dir
    ||| putField c.layout.seekMARK 1#1

/-- `da_gs(reset)` (R102). -/
def daGs (c : Cfg) (reset : Bool) : Word :=
  putField c.layout.gsMARK 3#2 ||| putField c.layout.gsRST (BitVec.ofBool reset)

/-- `mp_wc(n)` (R104, R156): one's complement, or `(0x10000 - n) mod 0x10000` under `TWOS`. -/
def mpWc (c : Cfg) (n : Word) : Word :=
  match c.wcForm with
  | .ones => ~~~n
  | .twos => -n

/-- The number of words that an MP word-count word asks for, the inverse of `mpWc` (R104). -/
def wcOfMp (c : Cfg) (m : Word) : Word :=
  match c.wcForm with
  | .ones => ~~~m
  | .twos => -m

/-- `cs_cmd(d, f)` (R108): drive and function code, every other field 0. -/
def csCmd (c : Cfg) (d : Drive) (fn : Fn) : Word :=
  putField c.layout.csDS d ||| putField c.layout.csF (fcode c fn)

/-- The XCSR word that sets `TIE` to `t` (R109). -/
def tieWord (c : Cfg) (t : Bool) : Word := putField c.layout.xcsrTIE (BitVec.ofBool t)

/-- The RCSR word by which the host sets `RIE` (R214). -/
def rieWord (c : Cfg) (t : Bool) : Word := putField c.layout.rcsrRIE (BitVec.ofBool t)

/-- The BA word of a bus address (R40, R160). -/
def baWord (c : Cfg) (ba : Word) : Word := putField c.layout.baADDR ba

/-- The bus address that a BA word holds (R40, R74). -/
def baOfWord (c : Cfg) (w : Word) : Word := getField c.layout.baADDR 16 w

/-- The register word of DA for a disk-address word of R100 to R102 (R41). -/
def daWord (c : Cfg) (w : Word) : Word := putField c.layout.daWORD w

/-- The register word of MP for a word count (R42, R104). -/
def mpWord (c : Cfg) (w : Word) : Word := putField c.layout.mpWORD w

/-- The status, header or count word that a word of MP holds (R42, R103 to R105). -/
def mpOfWord (c : Cfg) (w : Word) : Word := getField c.layout.mpWORD 16 w

/-- The XBUF word of byte `b` (R109). -/
def xbufWord (c : Cfg) (b : Byte) : Word := putField c.layout.xbufDATA b

/-! ### Seek arithmetic -/

/-- `diff = signed(cyl) - signed(cur)` as a mathematical integer (R153). -/
def seekDiff (cyl cur : BitVec 9) : Int := (cyl.toNat : Int) - (cur.toNat : Int)

/-- `dir`: 1 toward higher cylinder numbers, 0 toward lower (R153). -/
def seekDir (cyl cur : BitVec 9) : BitVec 1 := BitVec.ofBool (decide (seekDiff cyl cur > 0))

/-- `mag = |diff|`, which fits nine bits (R153). -/
def seekMag (cyl cur : BitVec 9) : BitVec 9 := BitVec.ofNat 9 (seekDiff cyl cur).natAbs

/-! ### Fields the block reads -/

/-- `CS.CRDY` (R38). -/
def csReady (c : Cfg) (w : Word) : Bool := flagField c.layout.csCRDY w

/-- `CS.DRDY` (R38). -/
def csDriveReady (c : Cfg) (w : Word) : Bool := flagField c.layout.csDRDY w

/-- `CS.DE` (R38). -/
def csDriveError (c : Cfg) (w : Word) : Bool := flagField c.layout.csDE w

/-- `CS.CE` (R38). -/
def csCompositeError (c : Cfg) (w : Word) : Bool := flagField c.layout.csCE w

/-- `CS.E` (R38). -/
def csError (c : Cfg) (w : Word) : BitVec 4 := getField c.layout.csE 4 w

/-- `CS.F` (R38). -/
def csFunction (c : Cfg) (w : Word) : BitVec 3 := getField c.layout.csF 3 w

/-- `CS.DS` (R38). -/
def csDrive (c : Cfg) (w : Word) : Drive := getField c.layout.csDS 2 w

/-- The byte of an RBUF word (R44). -/
def rbufByte (c : Cfg) (w : Word) : Byte := getField c.layout.rbufDATA 8 w

/-- The major-state code of an MP drive-status word (R103). -/
def mpState (c : Cfg) (w : Word) : BitVec 3 := getField c.layout.stSTATE 3 w

/-- The drive-type bit of an MP drive-status word (R103): set for `LARGE`. -/
def mpLarge (c : Cfg) (w : Word) : Bool := flagField c.layout.stDT w

/-- The cylinder of an MP header word (R105). -/
def headerCyl (c : Cfg) (w : Word) : BitVec 9 := getField c.layout.hdCYL 9 w

/-- The head of an MP header word (R105). -/
def headerHead (c : Cfg) (w : Word) : BitVec 1 := getField c.layout.hdHEAD 1 w

/-- The sector of an MP header word (R105). -/
def headerSec (c : Cfg) (w : Word) : BitVec 6 := getField c.layout.hdSEC 6 w

/-! ### Byte order -/

/-- The byte a 16-bit value holds at an address of a register whose even address is `a` (R73): the low byte at `a`,
the high byte at `a + 1`. -/
def littleEndianByte (v : Word) (odd : Bool) : Byte :=
  match odd with
  | false => v.extractLsb' 0 8
  | true => v.extractLsb' 8 8

/-- The 16-bit value whose byte at `a` is the first and whose byte at `a + 1` is the second (R73). -/
def littleEndianWord (lo hi : Byte) : Word := hi.setWidth 16 <<< 8 ||| lo.setWidth 16

end Sys2Proof.Machine
end

