-- ==== Sys2Proof/Decode.lean ====
section
/-! DEFINITION. The decoders of the three input formats of the block (spec/30_encoding.md R90 to R97, R108): a 64-bit
request word, a 1-bit service event code and a 16-bit controller command word; and after them the encoder. -/

namespace Sys2Proof

/-- Why a word is no instruction (R96, R107, R108). -/
inductive DecodeError where
  /-- `OP` is 0, 5 or 6. -/
  | reservedOp
  /-- A field that the operation does not use is not 0. -/
  | unusedField
  /-- `C_CMD` with a function code that is not admitted. -/
  | functionNotAdmitted
  /-- `C_RDBLK` with an odd bus address. -/
  | oddBusAddress
  /-- A CS word that is no command word of R108. -/
  | notACommandWord
  deriving DecidableEq, Repr

/-- A row of the request table: its match and its mask (R94). -/
structure ReqRow where
  code : ReqWord
  mask : ReqWord
  deriving DecidableEq, Repr

/-- A request selects a row when `(q & mask) == match` (R94). -/
def ReqRow.selects (r : ReqRow) (q : ReqWord) : Bool := q &&& r.mask == r.code

/-! The thirteen rows of R94. -/
def rowSrxRd : ReqRow := ⟨0x0000000000000001#64, 0xFFFFFFFFFFFFFFFF#64⟩
def rowStxWr : ReqRow := ⟨0x0000000000000002#64, 0xFFFFFFFFFFFF00FF#64⟩
def rowSrxAvail : ReqRow := ⟨0x0000000000000003#64, 0xFFFFFFFFFFFFFFFF#64⟩
def rowSrtInit : ReqRow := ⟨0x0000000000000004#64, 0xFFFFFFFFFFFFFFFF#64⟩
def rowSceInit : ReqRow := ⟨0x0000000000000007#64, 0xFFFFFFFFFFFFFFFF#64⟩
def rowCWaitc : ReqRow := ⟨0x0000000000000008#64, 0xFFFFFFFFFFFFFFFF#64⟩
def rowCWaitd : ReqRow := ⟨0x0000000000000009#64, 0xFFFFFFFFFFFFFF0F#64⟩
def rowCCmd : ReqRow := ⟨0x000000000000000A#64, 0xFFFFFFFFFFFFF8CF#64⟩
def rowCStat : ReqRow := ⟨0x000000000000000B#64, 0xFFFFFFFFFFFFFF4F#64⟩
def rowCSeek : ReqRow := ⟨0x000000000000000C#64, 0xFFFFFFFF003FFFCF#64⟩
def rowCRdblk : ReqRow := ⟨0x000000000000000D#64, 0x000100000000FFCF#64⟩
def rowCDecerr : ReqRow := ⟨0x000000000000000E#64, 0xFFFF0000FFFFFFFF#64⟩
def rowCDecst : ReqRow := ⟨0x000000000000000F#64, 0xFFFF0000FFFFFFFF#64⟩

/-- The request table (R94). -/
def reqRows : List ReqRow :=
  [rowSrxRd, rowStxWr, rowSrxAvail, rowSrtInit, rowSceInit, rowCWaitc, rowCWaitd, rowCCmd, rowCStat, rowCSeek,
   rowCRdblk, rowCDecerr, rowCDecst]

/-! The fields of a request word (R91), each unsigned (R92). -/
def reqOp (q : ReqWord) : BitVec 4 := q.extractLsb' 0 4
def reqDrv (q : ReqWord) : Drive := q.extractLsb' 4 2
def reqR (q : ReqWord) : Bool := q.getLsbD 6
def reqS (q : ReqWord) : Bool := q.getLsbD 7
def reqImm8 (q : ReqWord) : Byte := q.extractLsb' 8 8
def reqFn (q : ReqWord) : BitVec 3 := q.extractLsb' 8 3
def reqSec (q : ReqWord) : BitVec 6 := q.extractLsb' 16 6
def reqHd (q : ReqWord) : BitVec 1 := q.extractLsb' 22 1
def reqCyl (q : ReqWord) : BitVec 9 := q.extractLsb' 23 9
def reqW16 (q : ReqWord) : Word := q.extractLsb' 32 16
def reqBa (q : ReqWord) : Word := q.extractLsb' 48 16

/-- The instruction if the row selects the word, else the refusal of a non-zero unused field (R96). -/
def underRow (r : ReqRow) (q : ReqWord) (i : Instr) : Except DecodeError Instr :=
  if r.selects q then .ok i else .error .unusedField

/-- `C_CMD`: the row, and then the admitted function codes (R107). -/
def decodeCmd (c : Cfg) (q : ReqWord) : Except DecodeError Instr :=
  match Machine.fnOfCode c (reqFn q) with
  | none => .error .functionNotAdmitted
  | some fn => if fn.admitted then underRow rowCCmd q (.cCmd (reqDrv q) fn) else .error .functionNotAdmitted

/-- `C_RDBLK`: an odd bus address is refused by its own name (R96). -/
def decodeRdblk (q : ReqWord) : Except DecodeError Instr :=
  if (reqBa q).getLsbD 0 then .error .oddBusAddress
  else underRow rowCRdblk q (.cRdblk (reqDrv q) (reqSec q) (reqHd q) (reqCyl q) (reqW16 q) (reqBa q))

/-- The decoder of request words (R91 to R96). -/
def decodeRequest (c : Cfg) (q : ReqWord) : Except DecodeError Instr :=
  match (reqOp q).toNat with
  | 0x1 => underRow rowSrxRd q .srxRd
  | 0x2 => underRow rowStxWr q (.stxWr (reqImm8 q))
  | 0x3 => underRow rowSrxAvail q .srxAvail
  | 0x4 => underRow rowSrtInit q .srtInit
  | 0x7 => underRow rowSceInit q .sceInit
  | 0x8 => underRow rowCWaitc q .cWaitc
  | 0x9 => underRow rowCWaitd q (.cWaitd (reqDrv q) (reqR q) (reqS q))
  | 0xA => decodeCmd c q
  | 0xB => underRow rowCStat q (.cStat (reqDrv q) (reqS q))
  | 0xC => underRow rowCSeek q (.cSeek (reqDrv q) (reqHd q) (reqCyl q))
  | 0xD => decodeRdblk q
  | 0xE => underRow rowCDecerr q (.cDecerr (reqW16 q))
  | 0xF => underRow rowCDecst q (.cDecst (reqW16 q))
  | _ => .error .reservedOp

/-- The decoder of service event codes (R97): `SVC_RX = 0`, `SVC_TX = 1`. -/
def decodeEvent (e : BitVec 1) : Instr := if e = 0#1 then .svcRx else .svcTx

/-- The instruction of an admitted controller command (R107). -/
def commandInstr (d : Drive) : Fn → Option Instr
  | .getStatus => some (.getStatus d)
  | .seek => some (.seek d)
  | .readHeader => some (.readHeader d)
  | .readData => some (.readData d)
  | .nop | .writeCheck | .writeData | .readDataNoHeaderCheck => none

/-- The decoder of controller command words: exactly the words `cs_cmd(d, f)` of R108 with an admitted `f`. -/
def decodeCommand (c : Cfg) (w : Word) : Except DecodeError Instr :=
  match Machine.fnOfCode c (Machine.csFunction c w) with
  | none => .error .functionNotAdmitted
  | some fn =>
    if Machine.csCmd c (Machine.csDrive c w) fn = w then
      match commandInstr (Machine.csDrive c w) fn with
      | none => .error .functionNotAdmitted
      | some i => .ok i
    else .error .notACommandWord

/-- An input of one of the three formats. -/
inductive Encoded where
  | request (q : ReqWord)
  | event (e : BitVec 1)
  | command (w : Word)
  deriving DecidableEq, Repr

/-- The decoder. -/
def decode (c : Cfg) : Encoded → Except DecodeError Instr
  | .request q => decodeRequest c q
  | .event e => .ok (decodeEvent e)
  | .command w => decodeCommand c w

/-! ### The encoder -/

/-- A request word from its fields (R91). -/
def reqWord (op : BitVec 4) (drv : Drive) (r s : Bool) (imm8 : Byte) (sec : BitVec 6) (hd : BitVec 1)
    (cyl : BitVec 9) (w16 ba : Word) : ReqWord :=
  op.setWidth 64 ||| drv.setWidth 64 <<< 4 ||| (BitVec.ofBool r).setWidth 64 <<< 6
    ||| (BitVec.ofBool s).setWidth 64 <<< 7 ||| imm8.setWidth 64 <<< 8 ||| sec.setWidth 64 <<< 16
    ||| hd.setWidth 64 <<< 22 ||| cyl.setWidth 64 <<< 23 ||| w16.setWidth 64 <<< 32 ||| ba.setWidth 64 <<< 48

/-- The encoder (R91, R93, R97, R108). -/
def encode (c : Cfg) : Instr → Encoded
  | .srxRd => .request (reqWord 0x1#4 0 false false 0 0 0 0 0 0)
  | .stxWr b => .request (reqWord 0x2#4 0 false false b 0 0 0 0 0)
  | .srxAvail => .request (reqWord 0x3#4 0 false false 0 0 0 0 0 0)
  | .srtInit => .request (reqWord 0x4#4 0 false false 0 0 0 0 0 0)
  | .sceInit => .request (reqWord 0x7#4 0 false false 0 0 0 0 0 0)
  | .cWaitc => .request (reqWord 0x8#4 0 false false 0 0 0 0 0 0)
  | .cWaitd d r s => .request (reqWord 0x9#4 d r s 0 0 0 0 0 0)
  | .cCmd d fn => .request (reqWord 0xA#4 d false false ((Machine.fcode c fn).setWidth 8) 0 0 0 0 0)
  | .cStat d s => .request (reqWord 0xB#4 d false s 0 0 0 0 0 0)
  | .cSeek d hd cyl => .request (reqWord 0xC#4 d false false 0 0 hd cyl 0 0)
  | .cRdblk d sec hd cyl wc ba => .request (reqWord 0xD#4 d false false 0 sec hd cyl wc ba)
  | .cDecerr w => .request (reqWord 0xE#4 0 false false 0 0 0 0 w 0)
  | .cDecst w => .request (reqWord 0xF#4 0 false false 0 0 0 0 w 0)
  | .svcRx => .event 0#1
  | .svcTx => .event 1#1
  | .getStatus d => .command (Machine.csCmd c d .getStatus)
  | .seek d => .command (Machine.csCmd c d .seek)
  | .readHeader d => .command (Machine.csCmd c d .readHeader)
  | .readData d => .command (Machine.csCmd c d .readData)

/-! ### Words of the opcode table -/

/-- The format that a table word of `nbits` bits has: at most 8 bits and 0 or 1 is an event code (R97), at most 16
bits and a controller command word is one (R108), every other word is a request word whose upper bits are 0 (R90). -/
def tableFormat (c : Cfg) (nbits w : Nat) : Encoded :=
  if nbits ≤ 8 ∧ w < 2 then .event (BitVec.ofNat 1 w)
  else if nbits ≤ 16 ∧ (decodeCommand c (BitVec.ofNat 16 w)).toBool then .command (BitVec.ofNat 16 w)
  else .request (BitVec.ofNat 64 w)

/-- The instruction the decoder reads from a word of the opcode table. -/
def decodeTableWord (nbits w : Nat) : Option Instr :=
  (decode Machine.defaultCfg (tableFormat Machine.defaultCfg nbits w)).toOption

end Sys2Proof
end

