-- ==== Sys2Proof/Machine/State.lean ====
section
/-! DEFINITION. The state of the machine: the block's own state (RX, TX, DS, SEQ) of spec/10_state.md R20, the eight
lower-port registers and what the two devices keep behind them (R36 to R49), host memory as the controller writes it
(spec/20_memory.md R72), the script of what the agents outside the sequencer do next (spec/60_exceptions.md R199), and
the reasons a step can stop. -/

namespace Sys2Proof.Machine

/-! ### The rings -/

/-- A ring buffer (R21, R22): its slots, the index the next byte is stored at, and the index of the oldest byte. -/
structure Ring where
  buf : List Byte
  inIdx : Nat
  outIdx : Nat
  deriving DecidableEq, Repr

/-! ### DeviceStatus -/

/-- The drive type, or geometry class (R28, R149). -/
inductive DriveType where
  | small | large
  deriving DecidableEq, Repr

/-- The DeviceStatus register set `DS` (R28). -/
structure DeviceStatus where
  driveType : DriveType
  sector : BitVec 6
  head : BitVec 1
  cylinder : BitVec 9
  lastError : BitVec 4
  errorLabel : ErrLabel
  stateLabel : StateLabel
  csImage : Word
  mpStatus : Word
  drive : Drive
  deriving DecidableEq, Repr

/-! ### The sequencer -/

/-- The named temporaries of a frame that live across steps (R32): `c` of `C_WAITD` (R143), `h` and `cur` of `C_SEEK`
(R152). They are 0 until the operation assigns them, and no operation reads one before that. -/
structure Locals where
  c : Word
  h : Word
  cur : BitVec 9
  deriving DecidableEq, Repr

/-- What a frame runs: a request, or the read-header sub-sequence, which has no request of its own (R111, R151). -/
inductive Op where
  | request (i : Instr)
  | rdhdr (d : Drive)
  deriving DecidableEq, Repr

/-- A frame `(op, step, locals)`: `step` is the number of its next step (R32). -/
structure Frame where
  op : Op
  step : Nat
  locals : Locals
  deriving DecidableEq, Repr

/-- The sequencer `SEQ` (R32): `IDLE`, or `BUSY` with a non-empty stack, the innermost frame first. -/
inductive Seq where
  | idle
  | busy (top : Frame) (below : List Frame)
  deriving DecidableEq, Repr

/-! ### Responses -/

/-- The result part of a `C_RDBLK` response (R95). -/
inductive BlockResult where
  | ok | bounds
  deriving DecidableEq, Repr

/-- A value that `respond` gives (R95, R12). `header` is the one that only a calling step receives (R151). -/
inductive Response where
  | byte (b : Byte)
  | ok
  | count (n : Nat)
  | status (ds : DeviceStatus)
  | block (r : BlockResult) (ds : DeviceStatus)
  | errLabel (l : ErrLabel)
  | stateLabel (l : StateLabel)
  | refused
  | header (h : Word)
  deriving DecidableEq, Repr

/-! ### The lower port -/

/-- The eight registers of the lower port (R36). -/
inductive Reg where
  | cs | ba | da | mp | rcsr | rbuf | xcsr | xbuf
  deriving DecidableEq, Repr

/-- One 16-bit access that the block makes on the lower port (R75), with its address and its value. -/
inductive Access where
  | read (a : Addr) (v : Word)
  | write (a : Addr) (v : Word)
  deriving DecidableEq, Repr

/-- A controller command in flight: the function and the drive of the CS write that started it (R49). -/
structure Command where
  f : BitVec 3
  drive : Drive
  deriving DecidableEq, Repr

/-! ### Host memory -/

/-- Host memory: (address, byte) pairs with rising addresses. An address that is not listed holds no value that the
model knows (R72, assumption 6). -/
abbrev Memory := List Host.Cell

/-! ### The agents outside the sequencer -/

/-- The two interrupt services (R97). -/
inductive Service where
  | rx | tx
  deriving DecidableEq, Repr

/-- What the serial device draws when a platform reset reaches it: the registers that R211 leaves unspecified. -/
structure SerialDraw where
  rbuf : Word
  xbuf : Word
  deriving DecidableEq, Repr

/-- What the storage controller and its drives draw when a platform reset reaches them: the register fields that R211
leaves unspecified. -/
structure StorageDraw where
  cs : Word
  ba : Word
  da : Word
  mp : Word
  drives : Vector Bool 4
  deriving DecidableEq, Repr

/-- The host's place in the serial boot order (R197, R214). -/
inductive SerialBoot where
  /-- After RESET, or when the host has read `TIE = 0` in XCSR: `SRT_INIT` may be issued. -/
  | start
  /-- The host has issued `SRT_INIT`; when it has ended, `RCSR <- 0x0040` may be written. -/
  | initialised
  /-- The host has enabled the receive interrupt: the serial boot is complete. -/
  | enabled
  /-- The host has written `RCSR <- 0x0000` and reads XCSR until `TIE = 0`. -/
  | draining
  deriving DecidableEq, Repr

/-- One atomic move of one agent (R199, R13). -/
inductive Move where
  /-- The block sequencer takes the next numbered step of the operation in `SEQ`. -/
  | sequencer
  /-- The service dispatcher is offered a turn for one service (R184). -/
  | dispatch (v : Service)
  /-- The host offers a request word (R90, R196). -/
  | request (q : ReqWord)
  /-- RESET (R210); each device's draw is there when the platform's reset reaches that device (R211), absent when it
  does not (U13). -/
  | reset (serial : Option SerialDraw) (storage : Option StorageDraw)
  /-- The host writes `RCSR <- 0x0040` or `0x0000` (R214). -/
  | hostRcsr (rie : Bool)
  /-- The host reads XCSR (R214). -/
  | hostReadXcsr
  /-- `@RX`: the serial device puts a word in RBUF and sets `DONE` (R48 c, R110). -/
  | serialReceive (w : Word)
  /-- `@TXDONE`: the serial device sets `READY` (R48 b, R110). -/
  | serialSent
  /-- `@CS v`: the storage controller presents a CS value (R49 b and d, R110). -/
  | ctlStatus (v : Word)
  /-- `@MP v`: the storage controller presents an MP value (R49 d, R110). -/
  | ctlMp (v : Word)
  /-- A drive becomes ready, or is no longer (R49 c). -/
  | driveReady (d : Drive) (ready : Bool)
  /-- The controller moves byte `k` of the block of a read-data command to host memory (R72, R74). -/
  | dma (k : Nat) (b : Byte)
  deriving DecidableEq, Repr

/-! ### The state -/

/-- The state of the machine. -/
structure State where
  /-- The configuration; no step changes it. -/
  cfg : Cfg
  /-- The receive ring (R21). -/
  rx : Ring
  /-- The overflow counter `RX.ovf` (R26). -/
  rxOvf : Nat
  /-- The transmit ring (R22). -/
  tx : Ring
  /-- DeviceStatus (R28). -/
  ds : DeviceStatus
  /-- The sequencer (R32). -/
  seq : Seq
  /-- The lower-port registers (R38 to R46). In `cs` the stored `DRDY` bit stands unused: a read takes it from the
  selected drive (R49 c). `xbuf` is the last word written. The bits that a write-only field hides are stored and not
  shown. -/
  cs : Word
  ba : Word
  da : Word
  mp : Word
  rcsr : Word
  rbuf : Word
  xcsr : Word
  xbuf : Word
  /-- The ready bit of each of the four drives (R49 c). -/
  drives : Vector Bool 4
  /-- The drive that the last CS write selected, whose ready bit `DRDY` reports (R227). -/
  sel : Drive
  /-- The controller command in flight (R49 a, R50). -/
  cmd : Option Command
  /-- Host memory (R72). -/
  mem : Memory
  /-- The host's response port: the last response, none since the last accepted request or RESET (R95, R213). -/
  resp : Option Response
  /-- The value of the host's last read of XCSR (R214). The model's own field. -/
  hostXcsr : Word
  /-- The host's place in the serial boot order (R197, R214). The model's own field. -/
  boot : SerialBoot
  /-- The lower-port accesses of the last transition, in order (R82). The model's own field. -/
  bus : List Access
  /-- What the agents do next, first move first; when it is empty the default schedule of assumption 9 runs. The
  model's own field: it carries every choice that R187 and R229 leave free. -/
  env : List Move
  /-- How many free values have been drawn. The model's own field. -/
  free : Nat
  deriving DecidableEq, Repr

/-! ### Reset -/

/-- The reset values of DeviceStatus (R28): zeros, `SMALL`, `E_NONE` and the label of state code 0. -/
def DeviceStatus.reset (c : Cfg) : DeviceStatus where
  driveType := .small
  sector := 0
  head := 0
  cylinder := 0
  lastError := 0
  errorLabel := .eNone
  stateLabel := c.statetab[0]
  csImage := 0
  mpStatus := 0
  drive := 0

/-- An empty ring of `cap` slots (R51); its slots are 0, which the spec leaves unspecified (assumption 3). -/
def Ring.reset (cap : Nat) : Ring where
  buf := List.replicate cap 0
  inIdx := 0
  outIdx := 0

/-- The machine right after RESET with the default configuration and default devices (R51, R210, R211): `CS.CRDY = 1`
and `XCSR.READY = 1`, `RCSR = 0`, and the register fields that the spec leaves unspecified at 0 (assumption 4). -/
def State.reset : State where
  cfg := defaultCfg
  rx := Ring.reset defaultCfg.rxCap
  rxOvf := 0
  tx := Ring.reset defaultCfg.txCap
  ds := DeviceStatus.reset defaultCfg
  seq := .idle
  cs := 0x0080#16
  ba := 0
  da := 0
  mp := 0
  rcsr := 0
  rbuf := 0
  xcsr := 0x0080#16
  xbuf := 0
  drives := #v[false, false, false, false]
  sel := 0
  cmd := none
  mem := []
  resp := none
  hostXcsr := 0
  boot := .start
  bus := []
  env := []
  free := 0

/-! ### Stops -/

/-- Why the machine stops with a fault. -/
inductive Fault where
  /-- Raised by an operation whose frame stands at a step number that its rule does not have. No run from a
  well-formed state reaches it. Safe: the machine stops where the spec has no step. -/
  | noSuchStep
  /-- Raised by the step when the host breaks the serial boot order (R197, R214): it offers `SRT_INIT` while a serial
  interrupt is enabled or before it has read `TIE = 0`, or writes RCSR out of its turn. U22 of spec/93_implementation_defined.md puts this outside the model. Safe: the machine stops. -/
  | hostDutyBroken
  deriving DecidableEq, Repr

/-- Why the machine refuses to go on. -/
inductive Refusal where
  /-- Raised by exec for an instruction that has no meaning yet. Safe: the machine stops. No instruction raises it. -/
  | notModelled (mnemonic : String)
  /-- Raised by the step when the configuration has an odd register address, which R76 calls ill-formed and has a model
  refuse. Safe: the machine stops. -/
  | oddRegisterAddress
  deriving DecidableEq, Repr

end Sys2Proof.Machine
end

