-- ==== Sys2Proof/Machine/Flags.lean ====
section
/-! DEFINITION. The status predicates of spec/10_state.md R35, all derived and none stored: ring emptiness, fullness
and count (R23, R24), the interrupt requests (spec/60_exceptions.md R182), and what a read of CS shows (R38, R49). -/

namespace Sys2Proof.Machine

/-- `(i + 1) mod CAP`: the advance of a ring index (R121, R123, R126, R128). -/
def nextIdx (cap i : Nat) : Nat := (i + 1) % cap

/-- `empty(Q)` (R23). -/
def Ring.isEmpty (q : Ring) : Bool := decide (q.inIdx = q.outIdx)

/-- `full(Q)` (R24). -/
def Ring.isFull (cap : Nat) (q : Ring) : Bool := decide (nextIdx cap q.inIdx = q.outIdx)

/-- `count(Q) = (Q.in - Q.out) mod CAP`, the mathematical remainder (R24, R11). -/
def Ring.count (cap : Nat) (q : Ring) : Nat := (((q.inIdx : Int) - (q.outIdx : Int)) % (cap : Int)).toNat

/-- The unread byte number `k`, oldest first (R24). -/
def Ring.unreadAt (cap : Nat) (q : Ring) (k : Nat) : Byte := q.buf.getD ((q.outIdx + k) % cap) 0

/-- The unread bytes, oldest first (R24). -/
def Ring.unread (cap : Nat) (q : Ring) : List Byte := (List.range (q.count cap)).map (q.unreadAt cap)

/-- `IRQ_RX = RCSR.DONE and RCSR.RIE` (R182). -/
def irqRx (s : State) : Bool := flagField s.cfg.layout.rcsrDONE s.rcsr && flagField s.cfg.layout.rcsrRIE s.rcsr

/-- `IRQ_TX = XCSR.READY and XCSR.TIE` (R182). -/
def irqTx (s : State) : Bool := flagField s.cfg.layout.xcsrREADY s.xcsr && flagField s.cfg.layout.xcsrTIE s.xcsr

/-- `XCSR.TIE` (R45). -/
def tie (s : State) : Bool := flagField s.cfg.layout.xcsrTIE s.xcsr

/-- `RCSR.RIE` (R43). -/
def rie (s : State) : Bool := flagField s.cfg.layout.rcsrRIE s.rcsr

/-- Whether the drive that the last CS write selected is ready (R49 c, R227). -/
def selectedReady (s : State) : Bool := s.drives[s.sel.toNat]'(s.sel.isLt)

/-- What CS presents: the stored word with `DRDY` of the drive that the last CS write selected (R38, R49 c, R227). -/
def csValue (s : State) : Word :=
  setField { s.cfg.layout.csDRDY with width := 1 } (BitVec.ofBool (selectedReady s)) s.cs

end Sys2Proof.Machine
end

