-- ==== Sys2Proof/Machine/Ops.lean ====
section
/-! DEFINITION. The shared operations: host memory, the lower-port registers and their side effects
(spec/10_state.md R37 to R49, spec/20_memory.md R73 to R79), ring pushes and pops (spec/10_state.md R21 to R24), the
sequencer (R32, R33), responses and refusals (spec/30_encoding.md R95, R96), and RESET
(spec/70_reset_and_hazards.md R210, R211). The block raises no exception (spec/60_exceptions.md R180): its interrupt
entry and return are the service meanings, which save and restore nothing (R184, R185). -/

namespace Sys2Proof.Machine

/-! ### Host memory -/

/-- The byte at an address, none where nothing has been written. -/
def Memory.read (m : Memory) (a : Nat) : Option Byte :=
  match m with
  | [] => none
  | (k, b) :: rest => if k = a then some b else Memory.read rest a

/-- Write one byte, keeping the addresses rising. -/
def Memory.write (m : Memory) (a : Nat) (v : Byte) : Memory :=
  match m with
  | [] => [(a, v)]
  | (k, b) :: rest =>
    if a < k then (a, v) :: (k, b) :: rest
    else if a = k then (a, v) :: rest
    else (k, b) :: Memory.write rest a v

/-- Every address of the list is above `lo`, and the addresses rise. -/
def Memory.risingFrom (lo : Nat) (m : Memory) : Bool :=
  match m with
  | [] => true
  | (k, _) :: rest => decide (lo ≤ k) && Memory.risingFrom (k + 1) rest

/-- The canonical form of host memory: addresses strictly rising. An unlisted address holds no value, so no listed
entry can equal it. -/
def Memory.wf (m : Memory) : Bool := Memory.risingFrom 0 m

/-! ### Registers of the lower port -/

/-- `CFG.ADDR(r)` (R47). -/
def regAddr (c : Cfg) : Reg → Addr
  | .cs => c.addr.cs
  | .ba => c.addr.ba
  | .da => c.addr.da
  | .mp => c.addr.mp
  | .rcsr => c.addr.rcsr
  | .rbuf => c.addr.rbuf
  | .xcsr => c.addr.xcsr
  | .xbuf => c.addr.xbuf

/-- The register that sits at an address of the lower port, if one does (R70). -/
def regAt (c : Cfg) (a : Addr) : Option Reg :=
  [Reg.cs, .ba, .da, .mp, .rcsr, .rbuf, .xcsr, .xbuf].find? (fun r => regAddr c r == a)

/-- The fields of a register (R38 to R46). -/
def regFields (c : Cfg) : Reg → List Field
  | .cs => [c.layout.csDRDY, c.layout.csF, c.layout.csBAX, c.layout.csIE, c.layout.csCRDY, c.layout.csDS,
      c.layout.csE, c.layout.csDE, c.layout.csCE]
  | .ba => [c.layout.baADDR]
  | .da => [c.layout.daWORD]
  | .mp => [c.layout.mpWORD]
  | .rcsr => [c.layout.rcsrDONE, c.layout.rcsrRIE]
  | .rbuf => [c.layout.rbufDATA]
  | .xcsr => [c.layout.xcsrREADY, c.layout.xcsrTIE]
  | .xbuf => [c.layout.xbufDATA]

/-- The bits of a register that writes leave alone (R37, `RO`). -/
def regRo (c : Cfg) (r : Reg) : Word := accessBits .ro (regFields c r)

/-- The bits of a register that the block writes 0 to (R37, `W0`). -/
def regW0 (c : Cfg) (r : Reg) : Word := accessBits .w0 (regFields c r)

/-- The bits of a register that its readable fields cover (R37). -/
def readableBits (c : Cfg) (r : Reg) : Word :=
  accessBits .ro (regFields c r) ||| accessBits .rw (regFields c r) ||| accessBits .w0 (regFields c r)

/-- The bits of a register that a read leaves unspecified (R37, `WO`): none where it has no write-only field, else all
but those of its readable fields (U19 leaves all of XBUF open). -/
def openBits (c : Cfg) (r : Reg) : Word :=
  if accessBits .wo (regFields c r) = 0#16 then 0#16 else ~~~readableBits c r

/-- The stored word after a write: the written bits where the device does not drive them (R37). -/
def mergeWrite (ro old v : Word) : Word := (old &&& ro) ||| (v &&& ~~~ro)

/-- The word that a register holds (R38 to R46). -/
def portWord (r : Reg) (s : State) : Word :=
  match r with
  | .cs => csValue s
  | .ba => s.ba
  | .da => s.da
  | .mp => s.mp
  | .rcsr => s.rcsr
  | .rbuf => s.rbuf
  | .xcsr => s.xcsr
  | .xbuf => s.xbuf

/-- What a RegRead returns (R12): the word that the register holds, with a free value in the bits that a read leaves
unspecified (R37, U19). -/
def regValue (r : Reg) (s : State) : Word :=
  if openBits s.cfg r = 0#16 then portWord r s
  else mergeWrite (openBits s.cfg r) (Config.freeWord s.free) (portWord r s)

/-- A read of a register with unspecified bits has drawn a free value. -/
def drawOpen (r : Reg) (s : State) : State :=
  { s with free := if openBits s.cfg r = 0#16 then s.free else s.free + 1 }

/-- The state after a RegRead: the access, and the read side effects of R48 a and R78. A read of RBUF clears
`RCSR.DONE`; a read of MP leaves an open value there; reads of CS, RCSR and XCSR have none. -/
def afterRead (r : Reg) (s : State) : State :=
  let s := drawOpen r { s with bus := s.bus ++ [Access.read (regAddr s.cfg r) (regValue r s)] }
  match r with
  | .rbuf => { s with rcsr := setField s.cfg.layout.rcsrDONE 0#1 s.rcsr }
  | .mp => { s with mp := Config.freeWord s.free, free := s.free + 1 }
  | .xbuf => s
  | .cs => s
  | .ba => s
  | .da => s
  | .rcsr => s
  | .xcsr => s

/-- The command in flight after a CS write that leaves the word `w` in CS: the one of its `F` and `DS` if the write
cleared `CRDY` (R49 a); a `CRDY` that is `RO` ignores writes, so that none clears it (R37). -/
def startedBy (c : Cfg) (w : Word) (old : Option Command) : Option Command :=
  if csReady c w || decide (c.layout.csCRDY.access = .ro) then old else some ⟨csFunction c w, csDrive c w⟩

/-- A 16-bit write that reaches a register (R37), with the write side effects of R48 b and R79: a write of CS selects a
drive (R227) and with `CRDY = 0` starts a command, a write of XBUF clears `XCSR.READY`. -/
def portWrite (r : Reg) (v : Word) (s : State) : State :=
  let s := { s with bus := s.bus ++ [Access.write (regAddr s.cfg r) v] }
  match r with
  | .cs =>
    { s with
      cs := mergeWrite (regRo s.cfg .cs) s.cs v
      sel := csDrive s.cfg (mergeWrite (regRo s.cfg .cs) s.cs v)
      cmd := startedBy s.cfg (mergeWrite (regRo s.cfg .cs) s.cs v) s.cmd }
  | .ba => { s with ba := mergeWrite (regRo s.cfg .ba) s.ba v }
  | .da => { s with da := mergeWrite (regRo s.cfg .da) s.da v }
  | .mp => { s with mp := mergeWrite (regRo s.cfg .mp) s.mp v }
  | .rcsr => { s with rcsr := mergeWrite (regRo s.cfg .rcsr) s.rcsr v }
  | .rbuf => { s with rbuf := mergeWrite (regRo s.cfg .rbuf) s.rbuf v }
  | .xcsr => { s with xcsr := mergeWrite (regRo s.cfg .xcsr) s.xcsr v }
  | .xbuf =>
    { s with
      xbuf := mergeWrite (regRo s.cfg .xbuf) s.xbuf v
      xcsr := setField s.cfg.layout.xcsrREADY 0#1 s.xcsr }

/-- The word that the block puts on the port to write `v`: 0 in every `W0` field (R37). -/
def blockWord (c : Cfg) (r : Reg) (v : Word) : Word := v &&& ~~~regW0 c r

/-- `RegWrite(r, v)` of the block (R12, R37, R75). -/
def regWrite (r : Reg) (v : Word) (s : State) : State := portWrite r (blockWord s.cfg r v) s

/-! ### The address space of the lower port -/

/-- The byte at an address when the registers hold the words `w`: of the register at `a`, or of the one at `a - 1` for an
odd address (R73); none where no register sits (R70). -/
def byteAt (c : Cfg) (w : Reg → Word) (a : Addr) : Option Byte :=
  if a.getLsbD 0 then (regAt c (a - 1)).map (fun r => littleEndianByte (w r) true)
  else (regAt c a).map (fun r => littleEndianByte (w r) false)

/-- The byte that the lower port holds at an address (R73). -/
def portByte (a : Addr) (s : State) : Option Byte := byteAt s.cfg (fun r => portWord r s) a

/-- `MemRead(a, 2)` (R12, R73): the byte at `a` in bits 7:0 and the byte at `a + 1` in bits 15:8, as a read returns them;
none at an odd address (R76) and where no register sits (R70). -/
def memRead (a : Addr) (s : State) : Option Word :=
  if a.getLsbD 0 then none
  else
    match byteAt s.cfg (fun r => regValue r s) a, byteAt s.cfg (fun r => regValue r s) (a + 1) with
    | some lo, some hi => some (littleEndianWord lo hi)
    | _, _ => none

/-- `MemWrite(a, 2, v)` (R12, R73): `v[7:0]` goes to the byte at `a` and `v[15:8]` to the byte at `a + 1`, both at once
(R77); none at an odd address (R76) and where no register sits (R70). -/
def memWrite (a : Addr) (v : Word) (s : State) : Option State :=
  if a.getLsbD 0 then none
  else
    (regAt s.cfg a).map (fun r =>
      portWrite r (littleEndianWord (littleEndianByte v false) (littleEndianByte v true)) s)

/-! ### Rings -/

/-- Store a byte at `in` and advance `in` (R121, R128). -/
def Ring.push (cap : Nat) (q : Ring) (b : Byte) : Ring :=
  { q with buf := q.buf.set q.inIdx b, inIdx := nextIdx cap q.inIdx }

/-- The byte at `out` (R123, R126). -/
def Ring.front (q : Ring) : Byte := q.buf.getD q.outIdx 0

/-- Advance `out` (R121, R123, R126). -/
def Ring.drop (cap : Nat) (q : Ring) : Ring := { q with outIdx := nextIdx cap q.outIdx }

/-- Both indices to 0, the slots as they are (R130, R210). -/
def Ring.clear (q : Ring) : Ring := { q with inIdx := 0, outIdx := 0 }

/-! ### The sequencer -/

/-- Locals that nothing has been assigned to. -/
def noLocals : Locals := ⟨0, 0, 0⟩

/-- A frame at step 1 (R33). -/
def firstFrame (op : Op) : Frame := ⟨op, 1, noLocals⟩

/-- Change the innermost frame. -/
def onTop (g : Frame → Frame) (s : State) : State :=
  match s.seq with
  | .idle => s
  | .busy f rest => { s with seq := .busy (g f) rest }

/-- The frame's step advances by 1 (R33). -/
def advance (s : State) : State := onTop (fun f => { f with step := f.step + 1 }) s

/-- `goto n` (R33). -/
def jump (n : Nat) (s : State) : State := onTop (fun f => { f with step := n }) s

/-- `call OP(args)`: push a frame; the calling step stays (R12, R32, R33). -/
def call (op : Op) (s : State) : State :=
  match s.seq with
  | .idle => s
  | .busy f rest => { s with seq := .busy (firstFrame op) (f :: rest) }

/-- The calling step receives the value and ends: its frame advances (R12, R33). Only `h <- call RDHDR(d)`, step 1 of
`C_SEEK`, keeps the value (R152). -/
def receive (v : Response) (f : Frame) : Frame :=
  match v with
  | .header h => if f.step = 1 then ⟨f.op, f.step + 1, { f.locals with h := h }⟩ else { f with step := f.step + 1 }
  | _ => { f with step := f.step + 1 }

/-- `respond v`: pop the frame; to the calling step, or from the outermost frame to the host with `SEQ <- IDLE`
(R12, R32). -/
def respond (v : Response) (s : State) : State :=
  match s.seq with
  | .idle => s
  | .busy _ [] => { s with seq := .idle, resp := some v }
  | .busy _ (g :: rest) => { s with seq := .busy (receive v g) rest }

/-- The response `REFUSED`; nothing else changes (R96, R196). -/
def refuse (s : State) : State := { s with resp := some .refused }

/-- Acceptance of a request while `IDLE`: `SEQ <- BUSY[(op, 1, args)]` (R33), after the request check (R96). -/
def accept (i : Instr) (s : State) : State :=
  if i.wf then { s with seq := .busy (firstFrame (.request i)) [], resp := none } else refuse s

/-- One transition of a request: it is accepted while `SEQ` is `IDLE` (R33), it takes the next numbered step of its
frame when its frame is the innermost one, and while `SEQ` is busy with anything else it is refused (R196). -/
def transition (i : Instr) (body : Frame → State → Host.Outcome State Fault Refusal) (s : State) :
    Host.Outcome State Fault Refusal :=
  match s.seq with
  | .idle => .next (accept i s)
  | .busy f _ => if f.op = .request i then body f s else .next (refuse s)

/-! ### Shared operations of the storage engine -/

/-- The CS write that starts a command (R108, R145 step 2). -/
def issueCommand (d : Drive) (fn : Fn) (s : State) : State := regWrite .cs (csCmd s.cfg d fn) s

/-- The drive type of an MP drive-status word (R149). -/
def driveType (c : Cfg) (m : Word) : DriveType := if mpLarge c m then .large else .small

/-- `CYLINDER_LIMIT(type)` (R9). The block never compares a cylinder with it (R149). -/
def cylinderLimit (c : Cfg) (d : DriveType) : Nat :=
  match d with
  | .small => c.cylSmall
  | .large => c.cylLarge

/-- DeviceStatus with the outcome of a command (R145 step 4). -/
def recordError (c : Cfg) (ds : DeviceStatus) : DeviceStatus :=
  { ds with lastError := csError c ds.csImage, errorLabel := errLabel c (csError c ds.csImage) }

/-- DeviceStatus with a drive-status word decoded (R148 step 3). -/
def recordStatus (c : Cfg) (m : Word) (ds : DeviceStatus) : DeviceStatus :=
  { ds with mpStatus := m, driveType := driveType c m, stateLabel := stateLabel c (mpState c m) }

/-- DeviceStatus with the position of a header word (R151 step 2). -/
def recordHeader (c : Cfg) (h : Word) (ds : DeviceStatus) : DeviceStatus :=
  { ds with cylinder := headerCyl c h, head := headerHead c h, sector := headerSec c h }

/-! ### RESET -/

/-- RESET of the block's own state (R210): the ring slots, the configuration and the devices stay. -/
def resetBlock (s : State) : State :=
  { s with
    seq := .idle
    rx := s.rx.clear
    rxOvf := 0
    tx := s.tx.clear
    ds := DeviceStatus.reset s.cfg
    resp := none }

/-- The serial device after a platform reset that reaches it (R211): `RCSR = 0`, `XCSR` with `READY` only, and every
other value a draw. -/
def resetSerial (w : SerialDraw) (s : State) : State :=
  { s with
    rcsr := 0
    rbuf := w.rbuf
    xcsr := putField s.cfg.layout.xcsrREADY 1#1
    xbuf := w.xbuf }

/-- The storage controller and its drives after a platform reset that reaches them (R211): `CS.CRDY = 1`, no command in
flight, and every other value a draw, the selected drive among them. -/
def resetStorage (w : StorageDraw) (s : State) : State :=
  { s with
    cs := setField s.cfg.layout.csCRDY 1#1 w.cs
    ba := w.ba
    da := w.da
    mp := w.mp
    drives := w.drives
    sel := csDrive s.cfg w.cs
    cmd := none }

end Sys2Proof.Machine
end

