-- ==== Sys2Proof/Machine/Controller.lean ====
section
/-! DEFINITION. The four controller command words of spec/30_encoding.md R108: what writing each to CS does. The write
selects the drive, clears `CRDY` and starts the command (spec/10_state.md R38, R49 a); the command's outcome is what the
controller presents later (R49 b). Only step 2 of `C_CMD` writes these words (spec/41_storage_engine.md R146). -/

namespace Sys2Proof.Machine

/-- The command word `GET_STATUS` (R106, R108, R148). -/
def execGetStatus (d : Drive) (s : State) : Host.Outcome State Fault Refusal := .next (issueCommand d .getStatus s)

/-- The command word `SEEK` (R106, R108, R152). -/
def execSeek (d : Drive) (s : State) : Host.Outcome State Fault Refusal := .next (issueCommand d .seek s)

/-- The command word `READ_HEADER` (R106, R108, R151). -/
def execReadHeader (d : Drive) (s : State) : Host.Outcome State Fault Refusal := .next (issueCommand d .readHeader s)

/-- The command word `READ_DATA` (R106, R108, R160). -/
def execReadData (d : Drive) (s : State) : Host.Outcome State Fault Refusal := .next (issueCommand d .readData s)

end Sys2Proof.Machine
end

