-- ==== Sys2Proof/Machine/Serial.lean ====
section
/-! DEFINITION. The host operations of the serial ring-buffer transceiver: spec/40_serial_ring.md R126 to R130. Each
`…Step` is the list of numbered steps of the rule. -/

namespace Sys2Proof.Machine

/-- The steps of `SRX_RD` (R126). -/
def srxRdStep (f : Frame) (s : State) : Host.Outcome State Fault Refusal :=
  match f.step with
  | 1 => .next (if s.rx.isEmpty then s else advance s)
  | 2 => .next (respond (.byte s.rx.front) { s with rx := s.rx.drop s.cfg.rxCap })
  | _ => .fault .noSuchStep

/-- `SRX_RD`, blocking read byte (R126). -/
def execSrxRd (s : State) : Host.Outcome State Fault Refusal := transition .srxRd srxRdStep s

/-- The steps of `STX_WR` (R128). -/
def stxWrStep (b : Byte) (f : Frame) (s : State) : Host.Outcome State Fault Refusal :=
  match f.step with
  | 1 => .next (if s.tx.isFull s.cfg.txCap then regWrite .xcsr (tieWord s.cfg true) s else advance s)
  | 2 => .next (respond .ok (regWrite .xcsr (tieWord s.cfg true) { s with tx := s.tx.push s.cfg.txCap b }))
  | _ => .fault .noSuchStep

/-- `STX_WR`, blocking write byte (R128). -/
def execStxWr (b : Byte) (s : State) : Host.Outcome State Fault Refusal := transition (.stxWr b) (stxWrStep b) s

/-- The step of `SRX_AVAIL` (R127). -/
def srxAvailStep (f : Frame) (s : State) : Host.Outcome State Fault Refusal :=
  match f.step with
  | 1 => .next (respond (.count (s.rx.count s.cfg.rxCap)) s)
  | _ => .fault .noSuchStep

/-- `SRX_AVAIL`, bytes available (R127). -/
def execSrxAvail (s : State) : Host.Outcome State Fault Refusal := transition .srxAvail srxAvailStep s

/-- The step of `SRT_INIT` (R130). -/
def srtInitStep (f : Frame) (s : State) : Host.Outcome State Fault Refusal :=
  match f.step with
  | 1 => .next (respond .ok { s with rx := s.rx.clear, rxOvf := 0, tx := s.tx.clear })
  | _ => .fault .noSuchStep

/-- `SRT_INIT`, ring initialisation (R130). -/
def execSrtInit (s : State) : Host.Outcome State Fault Refusal := transition .srtInit srtInitStep s

end Sys2Proof.Machine
end

