-- ==== Sys2Proof/Machine/Services.lean ====
section
/-! DEFINITION. The two interrupt services of spec/40_serial_ring.md R121 and R123, each one atomic transition that
leaves `SEQ` unchanged (spec/10_state.md R34). -/

namespace Sys2Proof.Machine

/-- Store a received byte; a full ring drops its oldest unread byte and counts it (R121). -/
def receiveByte (b : Byte) (s : State) : State :=
  let q := s.rx.push s.cfg.rxCap b
  if q.inIdx = q.outIdx then
    { s with rx := q.drop s.cfg.rxCap, rxOvf := (s.rxOvf + 1) % 2 ^ s.cfg.ovfBits }
  else { s with rx := q }

/-- `SVC_RX` (R121): one read of RBUF, which clears `DONE`; there is no test of `DONE`. -/
def execSvcRx (s : State) : Host.Outcome State Fault Refusal :=
  .next (receiveByte (rbufByte s.cfg (regValue .rbuf s)) (afterRead .rbuf s))

/-- The first half of `SVC_TX` (R123): send the oldest byte if the ring holds one and the device is ready. XCSR is read
only when the ring is not empty. -/
def sendByte (s : State) : State :=
  if s.tx.isEmpty then s
  else if flagField s.cfg.layout.xcsrREADY (regValue .xcsr s) then
    regWrite .xbuf (xbufWord s.cfg s.tx.front) { afterRead .xcsr s with tx := s.tx.drop s.cfg.txCap }
  else afterRead .xcsr s

/-- The second half of `SVC_TX` (R123): `TIE` is 1 exactly when data remains. -/
def updateTie (s : State) : State := regWrite .xcsr (tieWord s.cfg (!s.tx.isEmpty)) s

/-- `SVC_TX` (R123). -/
def execSvcTx (s : State) : Host.Outcome State Fault Refusal := .next (updateTie (sendByte s))

end Sys2Proof.Machine
end

