-- ==== Sys2Proof/Machine/Storage.lean ====
section
/-! DEFINITION. The host operations of the storage command engine: spec/41_storage_engine.md R141 to R170, and the
read-header sub-sequence of R151. Each `…Step` is the list of numbered steps of the rule. -/

namespace Sys2Proof.Machine

/-! ### Readiness polling -/

/-- The step of `C_WAITC` (R141): one pass of the poll. -/
def cWaitcStep (f : Frame) (s : State) : Host.Outcome State Fault Refusal :=
  match f.step with
  | 1 =>
    let c := regValue .cs s
    if csReady s.cfg c then
      .next (respond (.status { s.ds with csImage := c }) { afterRead .cs s with ds := { s.ds with csImage := c } })
    else .next (afterRead .cs s)
  | _ => .fault .noSuchStep

/-- `C_WAITC`, wait for controller ready (R141). -/
def execCWaitc (s : State) : Host.Outcome State Fault Refusal := transition .cWaitc cWaitcStep s

/-- The steps of `C_WAITD` (R143). Step 2 keeps the CS value for step 3. -/
def cWaitdStep (d : Drive) (refresh reset : Bool) (f : Frame) (s : State) : Host.Outcome State Fault Refusal :=
  match f.step with
  | 1 => .next (if refresh then call (.request (.cStat d reset)) s else advance s)
  | 2 =>
    let c := regValue .cs s
    let s := onTop (fun f => { f with locals := { f.locals with c := c } }) (afterRead .cs s)
    .next (if csDriveReady s.cfg c then respond (.status s.ds) s else advance s)
  | 3 =>
    .next (if csCompositeError s.cfg f.locals.c || csDriveError s.cfg f.locals.c
      then call (.request (.cStat d true)) s else advance s)
  | 4 => .next (jump 2 s)
  | _ => .fault .noSuchStep

/-- `C_WAITD`, wait for drive ready (R143). -/
def execCWaitd (d : Drive) (refresh reset : Bool) (s : State) : Host.Outcome State Fault Refusal :=
  transition (.cWaitd d refresh reset) (cWaitdStep d refresh reset) s

/-! ### Commands -/

/-- The steps of `C_CMD` (R145). -/
def cCmdStep (d : Drive) (fn : Fn) (f : Frame) (s : State) : Host.Outcome State Fault Refusal :=
  match f.step with
  | 1 => .next (call (.request .cWaitc) s)
  | 2 => .next (advance { issueCommand d fn s with ds := { s.ds with drive := d } })
  | 3 => .next (call (.request .cWaitc) s)
  | 4 => .next (respond (.status (recordError s.cfg s.ds)) { s with ds := recordError s.cfg s.ds })
  | _ => .fault .noSuchStep

/-- `C_CMD`, issue command (R145). -/
def execCCmd (d : Drive) (fn : Fn) (s : State) : Host.Outcome State Fault Refusal :=
  transition (.cCmd d fn) (cCmdStep d fn) s

/-- The steps of `C_STAT` (R148). MP is read once. -/
def cStatStep (d : Drive) (reset : Bool) (f : Frame) (s : State) : Host.Outcome State Fault Refusal :=
  match f.step with
  | 1 => .next (advance (regWrite .da (daWord s.cfg (daGs s.cfg reset)) s))
  | 2 => .next (call (.request (.cCmd d .getStatus)) s)
  | 3 =>
    let ds := recordStatus s.cfg (mpOfWord s.cfg (regValue .mp s)) s.ds
    .next (respond (.status ds) { afterRead .mp s with ds := ds })
  | _ => .fault .noSuchStep

/-- `C_STAT`, get status (R148). -/
def execCStat (d : Drive) (reset : Bool) (s : State) : Host.Outcome State Fault Refusal :=
  transition (.cStat d reset) (cStatStep d reset) s

/-! ### Read header and seek -/

/-- The steps of the read-header sub-sequence `RDHDR` (R151). MP is read once. -/
def rdhdrStep (d : Drive) (f : Frame) (s : State) : Host.Outcome State Fault Refusal :=
  match f.step with
  | 1 => .next (call (.request (.cCmd d .readHeader)) s)
  | 2 =>
    let h := mpOfWord s.cfg (regValue .mp s)
    .next (respond (.header h) { afterRead .mp s with ds := recordHeader s.cfg h s.ds })
  | _ => .fault .noSuchStep

/-- The steps of `C_SEEK` (R152). -/
def cSeekStep (d : Drive) (hd : BitVec 1) (cyl : BitVec 9) (f : Frame) (s : State) :
    Host.Outcome State Fault Refusal :=
  match f.step with
  | 1 => .next (call (.rdhdr d) s)
  | 2 =>
    let cur := headerCyl s.cfg f.locals.h
    let s := onTop (fun f => { f with locals := { f.locals with cur := cur } }) s
    .next (if cur = cyl then respond (.status s.ds) s else advance s)
  | 3 =>
    let cur := f.locals.cur
    .next (advance (regWrite .da (daWord s.cfg (daSeek s.cfg (seekMag cyl cur) (seekDir cyl cur) hd)) s))
  | 4 => .next (call (.request (.cCmd d .seek)) s)
  | 5 => .next (call (.request (.cWaitd d false false)) s)
  | 6 => .next (call (.rdhdr d) s)
  | 7 => .next (respond (.status s.ds) s)
  | _ => .fault .noSuchStep

/-- `C_SEEK`, seek (R152). -/
def execCSeek (d : Drive) (hd : BitVec 1) (cyl : BitVec 9) (s : State) : Host.Outcome State Fault Refusal :=
  transition (.cSeek d hd cyl) (cSeekStep d hd cyl) s

/-! ### Read block -/

/-- The steps of `C_RDBLK` (R160): the bounds check of R155, the seek, the writes in the order of R158, the command
and the recording of R159. -/
def cRdblkStep (d : Drive) (sec : BitVec 6) (hd : BitVec 1) (cyl : BitVec 9) (wc ba : Word) (f : Frame) (s : State) :
    Host.Outcome State Fault Refusal :=
  match f.step with
  | 1 => .next (if blockWords s.cfg < wc.toNat then respond (.block .bounds s.ds) s else advance s)
  | 2 => .next (call (.request (.cSeek d hd cyl)) s)
  | 3 => .next (advance (regWrite .mp (mpWord s.cfg (mpWc s.cfg wc)) s))
  | 4 => .next (advance (regWrite .ba (baWord s.cfg ba) s))
  | 5 => .next (advance (regWrite .da (daWord s.cfg (daRd s.cfg cyl hd sec)) s))
  | 6 => .next (call (.request (.cCmd d .readData)) s)
  | 7 =>
    let ds := { s.ds with sector := sec, head := hd, cylinder := cyl }
    .next (respond (.block .ok ds) { s with ds := ds })
  | _ => .fault .noSuchStep

/-- `C_RDBLK`, read block (R160). -/
def execCRdblk (d : Drive) (sec : BitVec 6) (hd : BitVec 1) (cyl : BitVec 9) (wc ba : Word) (s : State) :
    Host.Outcome State Fault Refusal :=
  transition (.cRdblk d sec hd cyl wc ba) (cRdblkStep d sec hd cyl wc ba) s

/-! ### Decoding and initialisation -/

/-- The step of `C_DECERR` (R165). -/
def cDecerrStep (w : Word) (f : Frame) (s : State) : Host.Outcome State Fault Refusal :=
  match f.step with
  | 1 => .next (respond (.errLabel (errLabel s.cfg (csError s.cfg w))) s)
  | _ => .fault .noSuchStep

/-- `C_DECERR`, decode error (R165). -/
def execCDecerr (w : Word) (s : State) : Host.Outcome State Fault Refusal := transition (.cDecerr w) (cDecerrStep w) s

/-- The step of `C_DECST` (R167). -/
def cDecstStep (w : Word) (f : Frame) (s : State) : Host.Outcome State Fault Refusal :=
  match f.step with
  | 1 => .next (respond (.stateLabel (stateLabel s.cfg (mpState s.cfg w))) s)
  | _ => .fault .noSuchStep

/-- `C_DECST`, decode drive state (R167). -/
def execCDecst (w : Word) (s : State) : Host.Outcome State Fault Refusal := transition (.cDecst w) (cDecstStep w) s

/-- The step of `SCE_INIT` (R170). -/
def sceInitStep (f : Frame) (s : State) : Host.Outcome State Fault Refusal :=
  match f.step with
  | 1 => .next (respond .ok { s with ds := DeviceStatus.reset s.cfg })
  | _ => .fault .noSuchStep

/-- `SCE_INIT`, DeviceStatus re-initialisation (R170). -/
def execSceInit (s : State) : Host.Outcome State Fault Refusal := transition .sceInit sceInitStep s

end Sys2Proof.Machine
end

