-- ==== Sys2Proof/Machine/Dispatch.lean ====
section
/-! DEFINITION. One arm for each instruction of the opcode table. -/

namespace Sys2Proof.Machine

def exec (i : Instr) (s : State) : Host.Outcome State Fault Refusal :=
  match i with
  | .srxRd => Sys2Proof.Machine.execSrxRd s
  | .stxWr b => Sys2Proof.Machine.execStxWr b s
  | .srxAvail => Sys2Proof.Machine.execSrxAvail s
  | .srtInit => Sys2Proof.Machine.execSrtInit s
  | .sceInit => Sys2Proof.Machine.execSceInit s
  | .cWaitc => Sys2Proof.Machine.execCWaitc s
  | .cWaitd d refresh reset => Sys2Proof.Machine.execCWaitd d refresh reset s
  | .cCmd d fn => Sys2Proof.Machine.execCCmd d fn s
  | .cStat d reset => Sys2Proof.Machine.execCStat d reset s
  | .cSeek d hd cyl => Sys2Proof.Machine.execCSeek d hd cyl s
  | .cRdblk d sec hd cyl wc ba => Sys2Proof.Machine.execCRdblk d sec hd cyl wc ba s
  | .cDecerr w => Sys2Proof.Machine.execCDecerr w s
  | .cDecst w => Sys2Proof.Machine.execCDecst w s
  | .svcRx => Sys2Proof.Machine.execSvcRx s
  | .svcTx => Sys2Proof.Machine.execSvcTx s
  | .getStatus d => Sys2Proof.Machine.execGetStatus d s
  | .seek d => Sys2Proof.Machine.execSeek d s
  | .readHeader d => Sys2Proof.Machine.execReadHeader d s
  | .readData d => Sys2Proof.Machine.execReadData d s

end Sys2Proof.Machine
end

