-- ==== Sys2Proof/Machine/Schedule.lean ====
section
/-! DEFINITION. One move of one agent (spec/60_exceptions.md R199): the sequencer, the service dispatcher, the host,
RESET, the serial device, the storage controller with its drives. The order of the moves is the script `State.env`
(R187); where it is empty the default schedule runs (assumption 9). -/

namespace Sys2Proof.Machine

/-! ### The sequencer and the dispatcher -/

/-- The instruction of the innermost frame takes its next numbered step; `RDHDR` has no instruction of its own. -/
def runTop (f : Frame) (s : State) : Host.Outcome State Fault Refusal :=
  match f.op with
  | .request i => exec i s
  | .rdhdr d => rdhdrStep d f s

/-- A turn of the sequencer: nothing to do while `IDLE` (R212). -/
def sequencerTurn (s : State) : Host.Outcome State Fault Refusal :=
  match s.seq with
  | .idle => .next s
  | .busy f _ => runTop f s

/-- A turn of the dispatcher: the service runs if its request is asserted (R184), else nothing does (R183). -/
def dispatchTurn (v : Service) (s : State) : Host.Outcome State Fault Refusal :=
  match v with
  | .rx => if irqRx s then exec .svcRx s else .next s
  | .tx => if irqTx s then exec .svcTx s else .next s

/-! ### The host -/

/-- The duty of R197 and R214: `SRT_INIT` is offered only while both serial interrupts are disabled, and after the
receive interrupt was enabled only once the host has disabled it and read `TIE = 0`. -/
def breaksDuty (i : Instr) (s : State) : Bool :=
  decide (i = .srtInit) && (rie s || tie s || decide (s.boot = .enabled) || decide (s.boot = .draining))

/-- `SRT_INIT` is in progress: accepted and not yet answered. It calls nothing, and nothing calls it. -/
def srtInitRuns (s : State) : Bool :=
  match s.seq with
  | .idle => false
  | .busy f _ => decide (f.op = .request .srtInit)

/-- The duty of R197 and R214 on the write of RCSR: none while `SRT_INIT` is in progress, and `RIE <- 1` only as the step
of the boot order that follows `SRT_INIT`. -/
def rcsrBreaksDuty (t : Bool) (s : State) : Bool := srtInitRuns s || (t && !decide (s.boot = .initialised))

/-- The host notes that it has issued `SRT_INIT` (R214). -/
def noteRequest (i : Instr) (s : State) : State :=
  { s with boot := if i = .srtInit then .initialised else s.boot }

/-- The host offers a request (R90): refused while `SEQ` is busy (R196) or when the request check fails (R96), else
accepted. -/
def requestTurn (q : ReqWord) (s : State) : Host.Outcome State Fault Refusal :=
  match s.seq with
  | .busy _ _ => .next (refuse s)
  | .idle =>
    match decodeRequest s.cfg q with
    | .error _ => .next (refuse s)
    | .ok i => if breaksDuty i s then .fault .hostDutyBroken else exec i (noteRequest i s)

/-- The host's write of RCSR (R214): `RIE` is written and `DONE` stays (R43). It completes the boot, or begins a
re-initialisation. -/
def writeRcsr (t : Bool) (s : State) : State :=
  { s with
    rcsr := mergeWrite (regRo s.cfg .rcsr) s.rcsr (rieWord s.cfg t)
    boot := if t then .enabled else .draining }

/-- The host's write of RCSR, as far as its duties let it write (R197, U22). -/
def rcsrTurn (t : Bool) (s : State) : Host.Outcome State Fault Refusal :=
  if rcsrBreaksDuty t s then .fault .hostDutyBroken else .next (writeRcsr t s)

/-- The host's read of XCSR (R214), which has no side effect (R78). A host that waits for `TIE = 0` has seen it. -/
def hostReadXcsr (s : State) : State :=
  { drawOpen .xcsr s with
    hostXcsr := regValue .xcsr s
    boot := if s.boot = .draining ∧ flagField s.cfg.layout.xcsrTIE (regValue .xcsr s) = false then .start else s.boot }

/-- RESET as far as the serial device: reached by the platform's reset (R211), or left as it was (U13). -/
def resetSerialIf (w : Option SerialDraw) (s : State) : State :=
  match w with
  | none => s
  | some w => resetSerial w s

/-- RESET as far as the storage controller: reached by the platform's reset (R211), or left as it was (U13, R223). -/
def resetStorageIf (w : Option StorageDraw) (s : State) : State :=
  match w with
  | none => s
  | some w => resetStorage w s

/-- The host's place in the boot order after RESET, which is the first step of that order (R216). A serial device that
RESET does not reach keeps `RIE`, and a host that has enabled it disables it first, as R214 says (U13). -/
def bootAfterReset (serial : Option SerialDraw) (b : SerialBoot) : SerialBoot :=
  match serial with
  | some _ => .start
  | none => if b = .initialised then .start else b

/-- RESET (R210): the block, each device that the platform's reset reaches (R211), and the host's place in the boot
order. -/
def resetTurn (serial : Option SerialDraw) (storage : Option StorageDraw) (s : State) : State :=
  { resetStorageIf storage (resetSerialIf serial (resetBlock s)) with boot := bootAfterReset serial s.boot }

/-! ### The devices -/

/-- A received byte: RBUF holds it and `DONE` is 1; an earlier byte still there is lost uncounted (R48 c). -/
def receiveAtDevice (w : Word) (s : State) : State :=
  { s with rbuf := w, rcsr := setField s.cfg.layout.rcsrDONE 1#1 s.rcsr }

/-- The transmitter is ready again (R48 b). -/
def sentAtDevice (s : State) : State := { s with xcsr := setField s.cfg.layout.xcsrREADY 1#1 s.xcsr }

/-- The ready bit of one drive (R49 c). -/
def setDrive (d : Drive) (r : Bool) (s : State) : State := { s with drives := s.drives.set d.toNat r d.isLt }

/-- The controller presents a CS value (R49 b, d): every bit is its own, `DRDY` is that of the drive that the last CS
write selected (R227), which the presented `DS` does not change, and `CRDY = 1` ends the command in flight. -/
def presentCs (v : Word) (s : State) : State :=
  { setDrive s.sel (csDriveReady s.cfg v) s with
    cs := v
    cmd := if csReady s.cfg v then none else s.cmd }

/-- How many bytes the read-data command in flight may move: twice the word count, and up to 65536 words for a word
count of 0, which is open (R74, U6). -/
def dmaLimit (s : State) : Nat :=
  if wcOfMp s.cfg (mpOfWord s.cfg s.mp) = 0 then 131072 else 2 * (wcOfMp s.cfg (mpOfWord s.cfg s.mp)).toNat

/-- The address in host memory of byte `k` of the block (R74). -/
def dmaAddress (s : State) (k : Nat) : Nat := (baOfWord s.cfg s.ba).toNat + k

/-- The controller moves byte `k` of the block to `BA + k` (R74), if a read-data command is in flight. -/
def dmaByte (k : Nat) (b : Byte) (s : State) : State :=
  match s.cmd with
  | none => s
  | some c =>
    if c.f = fcode s.cfg .readData ∧ k < dmaLimit s then { s with mem := s.mem.write (dmaAddress s k) b } else s

/-! ### One move -/

/-- One move of one agent (R199). -/
def runMove (m : Move) (s : State) : Host.Outcome State Fault Refusal :=
  match m with
  | .sequencer => sequencerTurn s
  | .dispatch v => dispatchTurn v s
  | .request q => requestTurn q s
  | .reset serial storage => .next (resetTurn serial storage s)
  | .hostRcsr t => rcsrTurn t s
  | .hostReadXcsr => .next (hostReadXcsr s)
  | .serialReceive w => .next (receiveAtDevice w s)
  | .serialSent => .next (sentAtDevice s)
  | .ctlStatus v => .next (presentCs v s)
  | .ctlMp v => .next { s with mp := v }
  | .driveReady d r => .next (setDrive d r s)
  | .dma k b => .next (dmaByte k b s)

/-- The default schedule when the script is empty: an asserted service, the receive service first, and else the
sequencer (assumption 9). It keeps the weak fairness of R189. -/
def defaultMove (s : State) : Move :=
  if irqRx s then .dispatch .rx else if irqTx s then .dispatch .tx else .sequencer

/-- The move that comes next, and the script that remains. -/
def nextMove (s : State) : Move × List Move :=
  match s.env with
  | [] => (defaultMove s, [])
  | m :: rest => (m, rest)

/-- The state in which the next move runs: the move is taken from the script, and the record of lower-port accesses
starts anew. -/
def openTurn (s : State) : State := { s with bus := [], env := (nextMove s).2 }

/-- One atomic transition of the machine; a configuration with an odd register address is refused (R76). -/
def turn (s : State) : Host.Outcome State Fault Refusal :=
  if s.cfg.addr.even then runMove (nextMove s).1 (openTurn s) else .refused .oddRegisterAddress

/-! ### Placing one instruction where the next step runs it -/

/-- The move that has the given service dispatched, with its request asserted (R182). -/
def placeService (i : Instr) (s : State) : State :=
  match i with
  | .svcTx =>
    { s with
      env := .dispatch .tx :: s.env
      xcsr := setField s.cfg.layout.xcsrTIE 1#1 (setField s.cfg.layout.xcsrREADY 1#1 s.xcsr) }
  | _ =>
    { s with
      env := .dispatch .rx :: s.env
      rcsr := setField s.cfg.layout.rcsrRIE 1#1 (setField s.cfg.layout.rcsrDONE 1#1 s.rcsr) }

/-- `SEQ` at step 2 of `C_CMD d, fn`, the one step that writes a command word to CS (R146). -/
def placeCommand (d : Drive) (fn : Fn) (s : State) : State :=
  { s with seq := .busy ⟨.request (.cCmd d fn), 2, noLocals⟩ [], env := .sequencer :: s.env }

/-- The host offers the request word while `SEQ` is `IDLE`; for `SRT_INIT`, with both interrupts disabled, at the start
of the boot order (R214). -/
def placeRequest (q : ReqWord) (s : State) : State :=
  match decodeRequest s.cfg q with
  | .ok .srtInit =>
    { s with
      seq := .idle
      env := .request q :: s.env
      boot := .start
      rcsr := setField s.cfg.layout.rcsrRIE 0#1 s.rcsr
      xcsr := setField s.cfg.layout.xcsrTIE 0#1 s.xcsr }
  | _ => { s with seq := .idle, env := .request q :: s.env }

/-- A word of the opcode table placed where the next step takes it. -/
def placeWord (nbits w : Nat) (s : State) : State :=
  match tableFormat s.cfg nbits w with
  | .event e => placeService (decodeEvent e) s
  | .request q => placeRequest q s
  | .command v =>
    match decodeCommand s.cfg v with
    | .ok (.getStatus d) => placeCommand d .getStatus s
    | .ok (.seek d) => placeCommand d .seek s
    | .ok (.readHeader d) => placeCommand d .readHeader s
    | .ok (.readData d) => placeCommand d .readData s
    | _ => s

end Sys2Proof.Machine
end

