-- ==== Sys2Proof/Machine/Step.lean ====
section
/-! DEFINITION. The step: one atomic transition of the machine (spec/00_scope.md R13, spec/60_exceptions.md R199). -/

namespace Sys2Proof.Machine

/-- One step. -/
def step (s : State) : Host.Outcome State Fault Refusal := Sys2Proof.Machine.turn s

/-- `s` with a word of the opcode table placed where the very next step runs it (assumption 10). -/
def State.withFetchWord (s : State) (nbits w : Nat) : State := Sys2Proof.Machine.placeWord nbits w s

end Sys2Proof.Machine
end

