-- ==== Sys2Proof/Safety.lean ====
section
/-! DEFINITION. What a good state and a safe step are: the ring invariant of spec/10_state.md R21 to R24, the shape of
the sequencer's stack (R32, R33), the transmit-enable invariant of spec/40_serial_ring.md R124, the selected drive of
spec/70_reset_and_hazards.md R227, the decode invariants of
spec/41_storage_engine.md R149 and R169, and the canonical form of host memory. -/

namespace Sys2Proof.Machine

/-- A ring of `cap` slots with both indices in `0 .. cap - 1` (R21, R22). -/
def Ring.ok (cap : Nat) (q : Ring) : Bool :=
  decide (q.buf.length = cap) && (decide (q.inIdx < cap) && decide (q.outIdx < cap))

/-- The number of numbered steps of an operation (R126 to R170). -/
def lastStep : Op → Nat
  | .rdhdr _ => 2
  | .request i =>
    match i with
    | .srxRd => 2
    | .stxWr _ => 2
    | .srxAvail => 1
    | .srtInit => 1
    | .sceInit => 1
    | .cWaitc => 1
    | .cWaitd _ _ _ => 4
    | .cCmd _ _ => 4
    | .cStat _ _ => 3
    | .cSeek _ _ _ => 7
    | .cRdblk _ _ _ _ _ _ => 7
    | .cDecerr _ => 1
    | .cDecst _ => 1
    | .svcRx => 0
    | .svcTx => 0
    | .getStatus _ => 0
    | .seek _ => 0
    | .readHeader _ => 0
    | .readData _ => 0

/-- The operation that a step may call: the `call` steps of R143, R145, R148, R151, R152 and R160. -/
def callee (op : Op) (n : Nat) : Option Op :=
  match op with
  | .request (.cWaitd d refresh reset) =>
    if n = 1 ∧ refresh = true then some (.request (.cStat d reset))
    else if n = 3 then some (.request (.cStat d true)) else none
  | .request (.cCmd _ _) => if n = 1 ∨ n = 3 then some (.request .cWaitc) else none
  | .request (.cStat d _) => if n = 2 then some (.request (.cCmd d .getStatus)) else none
  | .rdhdr d => if n = 1 then some (.request (.cCmd d .readHeader)) else none
  | .request (.cSeek d _ _) =>
    if n = 1 ∨ n = 6 then some (.rdhdr d)
    else if n = 4 then some (.request (.cCmd d .seek))
    else if n = 5 then some (.request (.cWaitd d false false)) else none
  | .request (.cRdblk d _ hd cyl _ _) =>
    if n = 2 then some (.request (.cSeek d hd cyl))
    else if n = 6 then some (.request (.cCmd d .readData)) else none
  | _ => none

/-- A frame runs a well-formed request or `RDHDR`. -/
def opOk : Op → Bool
  | .request i => i.isRequest && i.wf
  | .rdhdr _ => true

/-- `C_SEEK` reaches step 3 only off the target cylinder (R152, R153: `diff = 0` never reaches step 3). -/
def localsOk (f : Frame) : Bool :=
  match f.op with
  | .request (.cSeek _ _ cyl) => decide (f.step = 3 → f.locals.cur ≠ cyl)
  | _ => true

/-- The frame stands at one of the numbered steps of its operation (R32, R33). -/
def frameOk (f : Frame) : Bool :=
  opOk f.op && (decide (1 ≤ f.step) && (decide (f.step ≤ lastStep f.op) && localsOk f))

/-- The stack: each frame was called by the step that the frame below stands at, and the outermost frame is a
request of the host (R32). -/
def stackOk (f : Frame) : List Frame → Bool
  | [] => frameOk f && (match f.op with
      | .request _ => true
      | .rdhdr _ => false)
  | g :: rest => frameOk f && (decide (callee g.op g.step = some f.op) && stackOk g rest)

/-- The sequencer is `IDLE` or has a good stack. -/
def seqOk : Seq → Bool
  | .idle => true
  | .busy f rest => stackOk f rest

/-- The number of frames (R32). -/
def Seq.depth : Seq → Nat
  | .idle => 0
  | .busy _ rest => rest.length + 1

/-- The frames of the sequencer, the innermost first (R32). -/
def Seq.frames : Seq → List Frame
  | .idle => []
  | .busy f rest => f :: rest

/-- `C_CMD d` has written its command word before its step 3, and `C_SEEK d` has had its seek command run before its
step 5, so that drive `d` is the selected one at these steps (R145, R152, R227). -/
def selOk (sel : Drive) (f : Frame) : Bool :=
  match f.op with
  | .request (.cCmd d _) => decide (3 ≤ f.step → sel = d)
  | .request (.cSeek d _ _) => decide (f.step = 5 → sel = d)
  | _ => true

/-- The invariant of the machine. -/
structure Inv (s : State) : Prop where
  /-- The configuration is well-formed (R8, R76). -/
  cfg : s.cfg.wf = true
  /-- The rings are in range (R21, R22). -/
  rx : s.rx.ok s.cfg.rxCap = true
  tx : s.tx.ok s.cfg.txCap = true
  /-- The overflow counter fits its width (R26). -/
  ovf : s.rxOvf < 2 ^ s.cfg.ovfBits
  /-- The sequencer's stack has its shape (R32). -/
  seq : seqOk s.seq = true
  /-- `STX_WR` reaches step 2 only with a free slot, and it stays free (R128). -/
  room : ∀ b l rest, s.seq = .busy ⟨.request (.stxWr b), 2, l⟩ rest → s.tx.isFull s.cfg.txCap = false
  /-- `SRX_RD` reaches step 2 only with an unread byte, and one stays (R126). -/
  byte : ∀ l rest, s.seq = .busy ⟨.request .srxRd, 2, l⟩ rest → s.rx.isEmpty = false
  /-- While `SRT_INIT` is in progress both enables are 0, so that no service can run (R214). -/
  init : srtInitRuns s = true → rie s = false ∧ tie s = false
  /-- A queued byte is never stranded (R124), where the layout lets the block write `TIE` (R45). -/
  tie : s.cfg.layout.xcsrTIE.access = .rw → s.tx.isEmpty = false → tie s = true
  /-- The drive of the last command is the selected one (R227), where the layout lets the block write `DS`. -/
  sel : s.cfg.standard = true → ∀ f ∈ s.seq.frames, selOk s.sel f = true
  /-- `RIE` is 1 only when the host has enabled it in the boot order (R183, R214), where the layout lets it write `RIE`. -/
  rxEnable : s.cfg.layout.rcsrRIE.access = .rw → s.boot ≠ .enabled → rie s = false
  /-- The state label is that of the last drive-status word (R169). -/
  label : s.ds.stateLabel = stateLabel s.cfg (mpState s.cfg s.ds.mpStatus)
  /-- The drive type is that of the last drive-status word (R149). -/
  type : s.ds.driveType = driveType s.cfg s.ds.mpStatus
  /-- Host memory is in its canonical form. -/
  mem : s.mem.wf = true

/-- The host breaks a duty of R197 and R214 in the move that comes next: it offers `SRT_INIT` to an idle block while a
serial interrupt is enabled, or with the receive interrupt enabled before and `TIE = 0` not yet read; or it writes RCSR
while `SRT_INIT` is in progress, or enables the receive interrupt without `SRT_INIT` before. -/
def breach (s : State) : Prop :=
  (s.seq = .idle ∧ ∃ q rest, s.env = .request q :: rest ∧ decodeRequest s.cfg q = .ok .srtInit
    ∧ (rie s = true ∨ tie s = true ∨ s.boot = .enabled ∨ s.boot = .draining))
  ∨ (∃ t rest, s.env = .hostRcsr t :: rest
    ∧ ((∃ f below, s.seq = .busy f below ∧ f.op = .request .srtInit) ∨ (t = true ∧ s.boot ≠ .initialised)))

/-- A step is safe when it answers a next state, or when the host breaks its duty in this very step and the machine
stops there (U22). -/
def safeStep (s : State) : Prop :=
  (∃ t, step s = .next t) ∨ (step s = .fault .hostDutyBroken ∧ breach s)

end Sys2Proof.Machine
end

