-- ==== Sys2Proof/Certificates/Slice0/Obligations.lean ====
section
/-! DEFINITION. The statements for the provers. `answered`, `commandStarted` and `deliverAll` are the terms they are
written in. A statement with `s.cfg.standard` is made of the well-formed configurations whose fields have their default
widths and access rights, at any place (R37, assumptions 14, 23). Wherever a statement speaks of an accepted request, a
call or an answer, the model's reading holds: the calling frame stays at its step and the answer advances it (assumption
12), and a new frame has the locals 0 (assumption 20). -/

namespace Sys2Proof.Machine

/-- The state after `respond v` from a frame with the frames `rest` below it: the host has the response and `SEQ` is
`IDLE`, or the calling frame has it (R12, R32); that it advances the calling frame is the model's reading (assumption
12). -/
def answered (v : Response) (rest : List Frame) (s : State) : State :=
  match rest with
  | [] => { s with seq := .idle, resp := some v }
  | g :: below => { s with seq := .busy (receive v g) below }

/-- `t` is `s` after the command word `cs_cmd(d, fn)` was written to CS: `F`, `DS` and `CRDY` as written, `BAX` and `IE`
0, the fields that the device drives as before, the drive selected, the command in flight, and one write access (R38,
R49 a, R108, R227). -/
def commandStarted (d : Drive) (fn : Fn) (s t : State) : Prop :=
  ∃ w : Word,
    t = { s with
      cs := w
      sel := d
      cmd := some ⟨fcode s.cfg fn, d⟩
      bus := s.bus ++ [.write s.cfg.addr.cs (csCmd s.cfg d fn)] }
    ∧ csFunction s.cfg w = fcode s.cfg fn ∧ csDrive s.cfg w = d ∧ csReady s.cfg w = false
    ∧ getField s.cfg.layout.csBAX 2 w = 0#2 ∧ getField s.cfg.layout.csIE 1 w = 0#1
    ∧ csError s.cfg w = csError s.cfg s.cs ∧ csDriveError s.cfg w = csDriveError s.cfg s.cs
    ∧ csCompositeError s.cfg w = csCompositeError s.cfg s.cs

/-- `t` is `s` after `XCSR.TIE` was written with `v`: `READY` as before, and one write access (R45, R109). -/
def tieWritten (v : Bool) (s t : State) : Prop :=
  ∃ w : Word,
    t = { s with xcsr := w, bus := s.bus ++ [.write s.cfg.addr.xcsr (putField s.cfg.layout.xcsrTIE (BitVec.ofBool v))] }
    ∧ flagField s.cfg.layout.xcsrTIE w = v
    ∧ flagField s.cfg.layout.xcsrREADY w = flagField s.cfg.layout.xcsrREADY s.xcsr

/-- Bytes delivered by runs of `SVC_RX`, each after the device put its word in RBUF (R122). -/
def deliverAll : List Word → State → Host.Outcome State Fault Refusal
  | [], s => .next s
  | w :: ws, s =>
    match exec .svcRx (receiveAtDevice w s) with
    | .next t => deliverAll ws t
    | .fault r => .fault r
    | .refused r => .refused r

end Sys2Proof.Machine

open Sys2Proof Sys2Proof.Machine

/-! ### Encoding -/

/-- R91 to R97, R108: decoding the encoding of a well-formed instruction gives it back, under every well-formed
configuration, with every operand at every value; a controller command word needs a layout whose `DS` and `F` are wide
enough for a drive and a function code (R37 leaves their widths to the layout). -/
def Obligations.DecodeEncodeRoundTrip : Prop :=
  ∀ (c : Cfg) (i : Instr), c.wf = true → i.wf = true →
    (i.isRequest = true ∨ i = .svcRx ∨ i = .svcTx ∨ (2 ≤ c.layout.csDS.width ∧ 3 ≤ c.layout.csF.width)) →
    decode c (encode c i) = .ok i

/-- R94, R96: a request word that decodes is the encoding of what it decodes to, which is a well-formed request; so no
bit of a request word is dropped. -/
def Obligations.DecodedRequestIsItsEncoding : Prop :=
  ∀ (c : Cfg) (q : ReqWord) (i : Instr), c.wf = true → decodeRequest c q = .ok i →
    encode c i = .request q ∧ i.wf = true ∧ i.isRequest = true

/-- R94: at most one row of the request table matches any word. -/
def Obligations.AtMostOneRowSelects : Prop :=
  ∀ (q : ReqWord) (r₁ r₂ : ReqRow), r₁ ∈ reqRows → r₂ ∈ reqRows → r₁.selects q = true → r₂.selects q = true → r₁ = r₂

/-- R112: the worked encodings, with the three fields of the first word. -/
def Obligations.WorkedEncodingsDecode : Prop :=
  decodeRequest defaultCfg 0x100000803245000D#64 = .ok (.cRdblk 0#2 5#6 1#1 100#9 128#16 0x1000#16)
  ∧ (0x100000803245000D#64).extractLsb' 0 4 = 0xD#4
  ∧ (0x100000803245000D#64).extractLsb' 16 16 = 0x3245#16 ∧ daRd defaultCfg 100#9 1#1 5#6 = 0x3245#16
  ∧ (0x100000803245000D#64).extractLsb' 32 16 = 0x0080#16 ∧ (0x100000803245000D#64).extractLsb' 48 16 = 0x1000#16
  ∧ decodeRequest defaultCfg 0x0000000000004102#64 = .ok (.stxWr 0x41#8)
  ∧ decodeRequest defaultCfg 0x00000000000000AB#64 = .ok (.cStat 2#2 true)

/-- R96: the reserved request words. Offered while `SEQ` is `IDLE`, each gives the response `REFUSED` and changes no
state of the block: `OP` 0, 5 or 6; a set bit of the row's mask outside `OP`; an `FN` that is not admitted; an odd bus
address.
The response is a next state (assumption 5). -/
def Obligations.ReservedRequestsRefused : Prop :=
  ∀ (s : State) (q : ReqWord) (rest : List Move), s.cfg.addr.even = true → s.seq = .idle → s.env = .request q :: rest →
    (reqOp q = 0x0#4 ∨ reqOp q = 0x5#4 ∨ reqOp q = 0x6#4
      ∨ (∃ r ∈ reqRows, r.code.extractLsb' 0 4 = reqOp q ∧ r.selects q = false)
      ∨ (reqOp q = 0xA#4 ∧ ∀ fn : Fn, fn.admitted = true → fcode s.cfg fn ≠ reqFn q)
      ∨ (reqOp q = 0xD#4 ∧ q.getLsbD 48 = true)) →
    step s = .next { s with env := rest, bus := [], resp := some .refused }

/-! ### Device words -/

/-- R100, R101, R102: the three DA words under the default layout, field by field, and the two get-status values. -/
def Obligations.DiskAddressWords : Prop :=
  (∀ (c : BitVec 9) (h : BitVec 1) (s : BitVec 6),
    daRd defaultCfg c h s = (c.setWidth 16 <<< 7) ||| (h.setWidth 16 <<< 6) ||| s.setWidth 16
    ∧ (daRd defaultCfg c h s).extractLsb' 7 9 = c ∧ (daRd defaultCfg c h s).extractLsb' 6 1 = h
    ∧ (daRd defaultCfg c h s).extractLsb' 0 6 = s)
  ∧ (∀ (mag : BitVec 9) (dir hs : BitVec 1),
    daSeek defaultCfg mag dir hs = (mag.setWidth 16 <<< 7) ||| (hs.setWidth 16 <<< 4) ||| (dir.setWidth 16 <<< 2) ||| 1#16
    ∧ (daSeek defaultCfg mag dir hs).extractLsb' 7 9 = mag ∧ (daSeek defaultCfg mag dir hs).extractLsb' 4 1 = hs
    ∧ (daSeek defaultCfg mag dir hs).extractLsb' 2 1 = dir ∧ (daSeek defaultCfg mag dir hs).extractLsb' 5 2 = 0#2
    ∧ (daSeek defaultCfg mag dir hs).extractLsb' 3 1 = 0#1 ∧ (daSeek defaultCfg mag dir hs).extractLsb' 1 1 = 0#1
    ∧ (daSeek defaultCfg mag dir hs).extractLsb' 0 1 = 1#1)
  ∧ daGs defaultCfg false = 0x0003#16 ∧ daGs defaultCfg true = 0x000B#16

/-- R104: the word-count word, one's complement under `ONES` and `(0x10000 - n) mod 0x10000` under `TWOS`; the spec's
value of `WC_FORM` is `ONES`. -/
def Obligations.WordCountWord : Prop :=
  (∀ (c : Cfg) (n : Word),
    (c.wcForm = .ones → mpWc c n = ~~~n)
    ∧ (c.wcForm = .twos → (mpWc c n).toNat = (0x10000 - n.toNat) % 0x10000)
    ∧ wcOfMp c (mpWc c n) = n)
  ∧ defaultCfg.wcForm = .ones ∧ mpWc defaultCfg 128#16 = 0xFF7F#16 ∧ mpWc defaultCfg 0#16 = 0xFFFF#16
  ∧ mpWc { defaultCfg with wcForm := .twos } 128#16 = 0xFF80#16

/-- R108: the command word holds the drive and the function code and every other bit is 0, under every well-formed
configuration whose `DS` and `F` are wide enough for them; under the default layout it is the formula of the rule, with its two examples. -/
def Obligations.CommandWordFields : Prop :=
  (∀ (c : Cfg) (d : Drive) (fn : Fn), c.wf = true →
    2 ≤ c.layout.csDS.width → 3 ≤ c.layout.csF.width →
    csDrive c (csCmd c d fn) = d ∧ csFunction c (csCmd c d fn) = fcode c fn ∧ csReady c (csCmd c d fn) = false
    ∧ getField c.layout.csIE 1 (csCmd c d fn) = 0#1 ∧ getField c.layout.csBAX 2 (csCmd c d fn) = 0#2
    ∧ csDriveReady c (csCmd c d fn) = false ∧ csError c (csCmd c d fn) = 0#4
    ∧ csDriveError c (csCmd c d fn) = false ∧ csCompositeError c (csCmd c d fn) = false)
  ∧ (∀ (d : Drive) (fn : Fn),
    csCmd defaultCfg d fn = (d.setWidth 16 <<< 8) ||| ((fcode defaultCfg fn).setWidth 16 <<< 1))
  ∧ csCmd defaultCfg 0#2 .readData = 0x000C#16 ∧ csCmd defaultCfg 2#2 .getStatus = 0x0204#16

/-- R166, R168: the default error map, all sixteen codes, and the default drive-state map, all eight. The
entries are general-knowledge defaults of the configuration (G7, G8; assumption 15). -/
def Obligations.DefaultLabelMaps : Prop :=
  (∀ c : BitVec 4, errLabel defaultCfg c =
    if c = 0#4 then .eNone else if c = 1#4 then .eOpi else if c = 2#4 then .eDcrc else if c = 3#4 then .eHcrc
    else if c = 4#4 then .eDlt else if c = 5#4 then .eHnf else if c = 8#4 then .eNxm else .eUnknown)
  ∧ (∀ c : BitVec 3, stateLabel defaultCfg c =
    if c = 0#3 then .sLoad else if c = 1#3 then .sSpinUp else if c = 2#3 then .sBrush
    else if c = 3#3 then .sLoadHeads else if c = 4#3 then .sSeek else if c = 5#3 then .sLockOn
    else if c = 6#3 then .sUnloadHeads else .sSpinDown)

/-- R153: for two different 9-bit cylinders the offset lies in -511 .. 511 and its magnitude in 1 .. 511, so that it fits
its nine bits, and the direction is 1 exactly toward the higher cylinder; and in a good state no frame stands at step 3 of
`C_SEEK` on its target cylinder. -/
def Obligations.SeekArithmetic : Prop :=
  (∀ cyl cur : BitVec 9,
    seekDiff cyl cur = (cyl.toNat : Int) - (cur.toNat : Int) ∧ -511 ≤ seekDiff cyl cur ∧ seekDiff cyl cur ≤ 511
    ∧ (seekMag cyl cur).toNat = (seekDiff cyl cur).natAbs
    ∧ (cyl ≠ cur → 1 ≤ (seekMag cyl cur).toNat ∧ (seekMag cyl cur).toNat ≤ 511)
    ∧ (seekDiff cyl cur > 0 → seekDir cyl cur = 1#1) ∧ (seekDiff cyl cur < 0 → seekDir cyl cur = 0#1))
  ∧ (∀ (s : State) (d : Drive) (hd : BitVec 1) (cyl : BitVec 9) (l : Locals) (rest : List Frame), Inv s →
      s.seq = .busy ⟨.request (.cSeek d hd cyl), 3, l⟩ rest → seekDiff cyl l.cur ≠ 0)

/-! ### The step and the sequencer -/

/-- One step runs the instruction it finds: the request that the host offers while `SEQ` is `IDLE`, the operation of the
innermost frame on a turn of the sequencer (and `RDHDR`, which has no instruction), the service that is dispatched with
its request asserted (R184); a dispatch without its request runs nothing (R183), nor does a turn of the sequencer while
`SEQ` is `IDLE` (R212). The step adds that the move is taken from the script and the access record starts anew. The move
is the script's first; with an empty script it is the default one. With an odd register address the step is refused,
whatever comes next (R76).
A request `SRT_INIT` is taken when the boot order lets the host offer it, which the host then notes (R214).
The script with its default move and the stop at a breach of that order are the model's (assumptions 9, 11). -/
def Obligations.StepRunsTheInstruction : Prop :=
  ∀ s : State,
    ((∃ a ∈ s.cfg.addr.toList, a.getLsbD 0 = true) → step s = .refused .oddRegisterAddress)
    ∧ (∀ m rest, s.env = m :: rest → nextMove s = (m, rest))
    ∧ (s.env = [] →
        nextMove s = (if irqRx s then .dispatch .rx else if irqTx s then .dispatch .tx else .sequencer, []))
    ∧ (∀ rest : List Move, s.cfg.addr.even = true →
      (∀ (q : ReqWord) (i : Instr), nextMove s = (.request q, rest) → s.seq = .idle → decodeRequest s.cfg q = .ok i →
        (i = .srtInit → rie s = false ∧ tie s = false ∧ (s.boot = .start ∨ s.boot = .initialised)) →
        step s = exec i { s with env := rest, bus := [], boot := if i = .srtInit then .initialised else s.boot })
      ∧ (∀ (i : Instr) (n : Nat) (l : Locals) (below : List Frame), nextMove s = (.sequencer, rest) →
        s.seq = .busy ⟨.request i, n, l⟩ below → step s = exec i { s with env := rest, bus := [] })
      ∧ (∀ (d : Drive) (n : Nat) (l : Locals) (below : List Frame), nextMove s = (.sequencer, rest) →
        s.seq = .busy ⟨.rdhdr d, n, l⟩ below →
        step s = rdhdrStep d ⟨.rdhdr d, n, l⟩ { s with env := rest, bus := [] })
      ∧ (nextMove s = (.sequencer, rest) → s.seq = .idle → step s = .next { s with env := rest, bus := [] })
      ∧ (nextMove s = (.dispatch .rx, rest) → irqRx s = true → step s = exec .svcRx { s with env := rest, bus := [] })
      ∧ (nextMove s = (.dispatch .tx, rest) → irqTx s = true → step s = exec .svcTx { s with env := rest, bus := [] })
      ∧ (nextMove s = (.dispatch .rx, rest) → irqRx s = false → step s = .next { s with env := rest, bus := [] })
      ∧ (nextMove s = (.dispatch .tx, rest) → irqTx s = false → step s = .next { s with env := rest, bus := [] }))

/-- R37: what each access right does in a field of a lower-port register, under every well-formed layout. The block
puts 0 in a `W0` field and the given bits in every other; a write leaves an `RO` field as it is and sets every other one;
a read shows what an `RO`, `RW` or `W0` field holds and a free value in a `WO` field.
The second half is the model's reading of R37 with R49 a and R227 (assumption 13): the controller acts on what a write of CS
leaves there, so that the drive selected and the command started are those of `DS` and `F` after the write, a `CRDY` that is
`RO` starts none, and a write that leaves `CRDY` set keeps the command in flight.
`DRDY` of CS, which the selected drive drives, is left to `DriveReadyOfTheSelectedDrive`; the free value is the model's
form of an unspecified one (assumption 8). -/
def Obligations.RegisterAccessRights : Prop :=
  (∀ (s : State) (r : Reg) (f : Field) (v : Word), s.cfg.wf = true → f ∈ regFields s.cfg r →
    (r = .cs → f ≠ s.cfg.layout.csDRDY) →
    ∃ w : Word, (regWrite r v s).bus = s.bus ++ [.write (regAddr s.cfg r) w]
      ∧ (f.access = .w0 → getField f 16 w = 0#16)
      ∧ (f.access ≠ .w0 → getField f 16 w = getField f 16 v)
      ∧ (f.access = .ro → getField f 16 (portWord r (regWrite r v s)) = getField f 16 (portWord r s))
      ∧ (f.access ≠ .ro → getField f 16 (portWord r (regWrite r v s)) = getField f 16 w)
      ∧ (f.access ≠ .wo → getField f 16 (regValue r s) = getField f 16 (portWord r s))
      ∧ (f.access = .wo → getField f 16 (regValue r s) = getField f 16 (Config.freeWord s.free)))
  ∧ (∀ (s : State) (v : Word), s.cfg.wf = true → ∃ t, t = regWrite .cs v s
      ∧ t.sel = csDrive s.cfg t.cs
      ∧ (s.cfg.layout.csDS.access = .ro → t.sel = csDrive s.cfg s.cs)
      ∧ (s.cfg.layout.csCRDY.access ≠ .ro → csReady s.cfg t.cs = false →
          t.cmd = some ⟨csFunction s.cfg t.cs, csDrive s.cfg t.cs⟩)
      ∧ (s.cfg.layout.csF.access = .ro → csFunction s.cfg t.cs = csFunction s.cfg s.cs)
      ∧ (csReady s.cfg t.cs = true ∨ s.cfg.layout.csCRDY.access = .ro → t.cmd = s.cmd))

/-- R33, R96: while `SEQ` is `IDLE`, every request is accepted at step 1 of its operation if its operands pass the
request check, and refused with nothing changed if not.
Acceptance as a transition of its own is the model's reading (assumption 12), and the response REFUSED as a next state
too (assumption 5); the locals 0 of the new frame are the model's choice (assumption 20). -/
def Obligations.RequestAcceptance : Prop :=
  ∀ (i : Instr) (s : State), i.isRequest = true → s.seq = .idle →
    (i.wf = true → exec i s = .next { s with seq := .busy ⟨.request i, 1, ⟨0, 0, 0⟩⟩ [], resp := none })
    ∧ (i.wf = false → exec i s = .next { s with resp := some .refused })

/-- R196: a request is accepted only while `SEQ` is `IDLE`; one that is offered while `SEQ` is `BUSY` gets `REFUSED` and
changes nothing else.
The response is a next state (assumption 5). -/
def Obligations.RequestWhileBusyRefused : Prop :=
  ∀ (s : State) (q : ReqWord) (rest : List Move) (f : Frame) (below : List Frame), s.cfg.addr.even = true →
    s.env = .request q :: rest → s.seq = .busy f below →
    step s = .next { s with env := rest, bus := [], resp := some .refused }

/-- R43, R48, R49, R214: what each move of the host and of the devices does, and that it changes nothing else. The host's
write of RCSR in its turn of the boot order sets `RIE` and keeps `DONE`; its read of XCSR gives the value and has no side
effect, and ends the wait of a host that re-initialises when it shows `TIE = 0` (R214). A received word
replaces the one in RBUF, read or not, with no count (R48 c). The transmitter that is ready again keeps `TIE` (R48 b). The
next read of CS gives the presented value, whose `DRDY` is that of the selected drive, and `CRDY` in it ends the command
in flight (R49 b); the next read of MP gives the presented word (R49 d).
A move for each is the model's form (assumptions 9, 13). -/
def Obligations.HostAndDeviceMoves : Prop :=
  ∀ (s : State) (rest : List Move), s.cfg.standard = true →
    (∀ on, s.env = .hostRcsr on :: rest → (∀ f below, s.seq = .busy f below → f.op ≠ .request .srtInit) →
      (on = true → s.boot = .initialised) →
      ∃ w, step s = .next { s with
          env := rest
          bus := []
          rcsr := w
          boot := if on then .enabled else .draining }
      ∧ flagField s.cfg.layout.rcsrRIE w = on
      ∧ flagField s.cfg.layout.rcsrDONE w = flagField s.cfg.layout.rcsrDONE s.rcsr
      ∧ (s.cfg = defaultCfg → w = (s.rcsr &&& 0x0080#16) ||| (if on then 0x0040#16 else 0x0000#16)))
    ∧ (s.env = .hostReadXcsr :: rest → step s = .next { s with
        env := rest
        bus := []
        hostXcsr := s.xcsr
        boot := if s.boot = .draining ∧ tie s = false then .start else s.boot })
    ∧ (∀ v, s.env = .serialReceive v :: rest →
      ∃ w, step s = .next { s with env := rest, bus := [], rbuf := v, rcsr := w }
        ∧ flagField s.cfg.layout.rcsrDONE w = true
        ∧ flagField s.cfg.layout.rcsrRIE w = flagField s.cfg.layout.rcsrRIE s.rcsr)
    ∧ (s.env = .serialSent :: rest → ∃ w, step s = .next { s with env := rest, bus := [], xcsr := w }
      ∧ flagField s.cfg.layout.xcsrREADY w = true
      ∧ flagField s.cfg.layout.xcsrTIE w = flagField s.cfg.layout.xcsrTIE s.xcsr)
    ∧ (∀ v, s.env = .ctlStatus v :: rest → ∃ t, step s = .next t ∧ regValue .cs t = v
      ∧ t = { s with
          env := rest
          bus := []
          cs := v
          drives := s.drives.set s.sel.toNat (csDriveReady s.cfg v) s.sel.isLt
          cmd := if csReady s.cfg v then none else s.cmd })
    ∧ (∀ v, s.env = .ctlMp v :: rest →
      ∃ t, step s = .next t ∧ regValue .mp t = v ∧ t = { s with env := rest, bus := [], mp := v })
    ∧ (∀ d ready, s.env = .driveReady d ready :: rest →
      step s = .next { s with env := rest, bus := [], drives := s.drives.set d.toNat ready d.isLt })

/-- R12, R32, R33: `call` pushes a frame at step 1; `respond` pops it and gives the value to the calling step, or to the
host with `SEQ <- IDLE`. That the calling frame stays at its step and is advanced by the response is the model's reading
(assumption 12), and that the new frame's locals are 0 is its choice (assumption 20). R151, R152: a header answered to
step 1 of the caller goes into its local `h`; every other answer leaves the caller's locals as they are. -/
def Obligations.CallAndRespond : Prop :=
  ∀ (s : State) (f g : Frame) (rest : List Frame) (op : Op) (v : Response),
    (s.seq = .busy f rest → call op s = { s with seq := .busy ⟨op, 1, ⟨0, 0, 0⟩⟩ (f :: rest) })
    ∧ (s.seq = .busy f [] → respond v s = { s with seq := .idle, resp := some v })
    ∧ (s.seq = .busy f (g :: rest) →
        ∃ g', respond v s = { s with seq := .busy g' rest } ∧ g'.op = g.op ∧ g'.step = g.step + 1
          ∧ (∀ h, v = .header h → g.step = 1 → g'.locals = { g.locals with h := h })
          ∧ ((∀ h, v = .header h → g.step ≠ 1) → g'.locals = g.locals))

/-! ### Serial ring-buffer transceiver -/

/-- R126: `SRX_RD` holds while the ring is empty, goes to step 2 when it is not, and then answers the oldest byte and
advances `RX.out`; nothing else changes. -/
def Obligations.SrxRdTransitions : Prop :=
  ∀ (s : State) (l : Locals) (rest : List Frame),
    (s.seq = .busy ⟨.request .srxRd, 1, l⟩ rest → s.rx.inIdx = s.rx.outIdx → exec .srxRd s = .next s)
    ∧ (s.seq = .busy ⟨.request .srxRd, 1, l⟩ rest → s.rx.inIdx ≠ s.rx.outIdx →
        exec .srxRd s = .next { s with seq := .busy ⟨.request .srxRd, 2, l⟩ rest })
    ∧ (s.seq = .busy ⟨.request .srxRd, 2, l⟩ rest →
        exec .srxRd s = .next (answered (.byte (s.rx.buf.getD s.rx.outIdx 0)) rest
          { s with rx := { s.rx with outIdx := (s.rx.outIdx + 1) % s.cfg.rxCap } }))

/-- R128: on a full ring `STX_WR` writes `TIE <- 1` and stays at step 1; else it goes to step 2, where it stores the
byte, advances `TX.in`, writes `TIE <- 1` and answers `OK`; nothing else changes. -/
def Obligations.StxWrTransitions : Prop :=
  ∀ (s : State) (b : Byte) (l : Locals) (rest : List Frame), s.cfg.standard = true →
    (s.seq = .busy ⟨.request (.stxWr b), 1, l⟩ rest → (s.tx.inIdx + 1) % s.cfg.txCap = s.tx.outIdx →
      ∃ t, exec (.stxWr b) s = .next t ∧ tieWritten true s t)
    ∧ (s.seq = .busy ⟨.request (.stxWr b), 1, l⟩ rest → (s.tx.inIdx + 1) % s.cfg.txCap ≠ s.tx.outIdx →
      exec (.stxWr b) s = .next { s with seq := .busy ⟨.request (.stxWr b), 2, l⟩ rest })
    ∧ (s.seq = .busy ⟨.request (.stxWr b), 2, l⟩ rest →
      ∃ t, exec (.stxWr b) s = .next (answered .ok rest t) ∧
        tieWritten true
          { s with tx := { s.tx with buf := s.tx.buf.set s.tx.inIdx b, inIdx := (s.tx.inIdx + 1) % s.cfg.txCap } } t)

/-- R127: `SRX_AVAIL` answers `(RX.in - RX.out) mod RX_CAP` and writes nothing; the count lies in `0 .. RX_CAP - 1`, is 0
on an empty ring and `RX_CAP - 1` on a full one; and the example of the rule. -/
def Obligations.SrxAvailAnswersTheCount : Prop :=
  (∀ (s : State) (l : Locals) (rest : List Frame), s.seq = .busy ⟨.request .srxAvail, 1, l⟩ rest →
    exec .srxAvail s =
      .next (answered (.count (((s.rx.inIdx : Int) - s.rx.outIdx) % s.cfg.rxCap).toNat) rest s))
  ∧ (∀ (c : Nat) (q : Ring), 2 ≤ c → q.ok c = true →
      q.count c < c ∧ (q.isEmpty = true → q.count c = 0) ∧ (q.isFull c = true → q.count c = c - 1))
  ∧ Ring.count 4 ⟨[], 1, 3⟩ = 2

/-- R130: `SRT_INIT`, `OP = 0x4` and all other bits 0, sets the four indices and `RX.ovf` to 0 and answers `OK`; the slots
and everything else stay, and no register is accessed. -/
def Obligations.SrtInitClearsTheRings : Prop :=
  (∀ c : Cfg, decodeRequest c 0x0000000000000004#64 = .ok .srtInit)
  ∧ (∀ (s : State) (l : Locals) (rest : List Frame), s.seq = .busy ⟨.request .srtInit, 1, l⟩ rest →
    exec .srtInit s = .next (answered .ok rest
      { s with
        rx := { s.rx with inIdx := 0, outIdx := 0 }
        rxOvf := 0
        tx := { s.tx with inIdx := 0, outIdx := 0 } }))

/-- R214, R197, R216, U22: the serial boot order. `SRT_INIT` offered to an idle block is accepted while both enables are 0,
at the start of the order or again before `RIE <- 1`; the write of RCSR that follows it is `HostAndDeviceMoves`. The machine
stops at every other one: `SRT_INIT` while an enable is 1, or after the receive interrupt was enabled and before the host
has disabled it and read `TIE = 0`; a write of RCSR while `SRT_INIT` is in progress; `RIE <- 1` with no `SRT_INIT` before.
The stop is the model's choice (assumption 11), and so are the locals 0 of the accepted frame (assumption 20). -/
def Obligations.SerialBootOrderKept : Prop :=
  ∀ (s : State) (rest : List Move), s.cfg.addr.even = true →
    (s.seq = .idle → s.env = .request 0x0000000000000004#64 :: rest → rie s = false → tie s = false →
      s.boot = .start ∨ s.boot = .initialised →
      step s = .next { s with
        env := rest
        bus := []
        resp := none
        boot := .initialised
        seq := .busy ⟨.request .srtInit, 1, ⟨0, 0, 0⟩⟩ [] })
    ∧ (s.seq = .idle → s.env = .request 0x0000000000000004#64 :: rest →
      rie s = true ∨ tie s = true ∨ s.boot = .enabled ∨ s.boot = .draining → step s = .fault .hostDutyBroken)
    ∧ (∀ on, s.env = .hostRcsr on :: rest →
      (∃ f below, s.seq = .busy f below ∧ f.op = .request .srtInit) ∨ (on = true ∧ s.boot ≠ .initialised) →
      step s = .fault .hostDutyBroken)

/-- R121: `SVC_RX` takes bits 7:0 of RBUF (the DATA field), stores the byte at `RX.in` and advances it; on a full ring it
drops the oldest byte and counts it; the read clears `DONE` and keeps `RIE`; nothing else changes. -/
def Obligations.SvcRxEffect : Prop :=
  ∀ s : State, s.cfg.standard = true →
    ∃ t w, exec .svcRx s = .next t
      ∧ t = { s with
          rx := {
            buf := s.rx.buf.set s.rx.inIdx (getField s.cfg.layout.rbufDATA 8 s.rbuf)
            inIdx := (s.rx.inIdx + 1) % s.cfg.rxCap
            outIdx := if (s.rx.inIdx + 1) % s.cfg.rxCap = s.rx.outIdx then (s.rx.outIdx + 1) % s.cfg.rxCap
              else s.rx.outIdx }
          rxOvf := if (s.rx.inIdx + 1) % s.cfg.rxCap = s.rx.outIdx then (s.rxOvf + 1) % 2 ^ s.cfg.ovfBits else s.rxOvf
          rcsr := w
          bus := s.bus ++ [.read s.cfg.addr.rbuf s.rbuf] }
      ∧ flagField s.cfg.layout.rcsrDONE w = false
      ∧ flagField s.cfg.layout.rcsrRIE w = flagField s.cfg.layout.rcsrRIE s.rcsr

/-- R123: `SVC_TX` on an empty ring sends nothing, reads nothing and clears `TIE`; with data and `READY` it reads XCSR,
sends the oldest byte to XBUF, which clears `READY`, and leaves `TIE` 1 exactly when data remains; with data and no
`READY` it reads XCSR and keeps `TIE` 1. Nothing else changes. -/
def Obligations.SvcTxEffect : Prop :=
  ∀ s : State, s.cfg.standard = true →
    (s.tx.inIdx = s.tx.outIdx → ∃ t, exec .svcTx s = .next t ∧ tieWritten false s t)
    ∧ (s.tx.inIdx ≠ s.tx.outIdx → flagField s.cfg.layout.xcsrREADY s.xcsr = true →
        ∃ t u w x, exec .svcTx s = .next t
          ∧ u = { s with
              tx := { s.tx with outIdx := (s.tx.outIdx + 1) % s.cfg.txCap }
              xbuf := x
              xcsr := w
              bus := s.bus ++ [.read s.cfg.addr.xcsr s.xcsr,
                .write s.cfg.addr.xbuf (putField s.cfg.layout.xbufDATA (s.tx.buf.getD s.tx.outIdx 0))] }
          ∧ getField s.cfg.layout.xbufDATA 8 x = s.tx.buf.getD s.tx.outIdx 0
          ∧ flagField s.cfg.layout.xcsrREADY w = false
          ∧ tieWritten (decide (s.tx.inIdx ≠ (s.tx.outIdx + 1) % s.cfg.txCap)) u t)
    ∧ (s.tx.inIdx ≠ s.tx.outIdx → flagField s.cfg.layout.xcsrREADY s.xcsr = false →
        ∃ t, exec .svcTx s = .next t
          ∧ tieWritten true { s with bus := s.bus ++ [.read s.cfg.addr.xcsr s.xcsr] } t)

/-- R122: the receive overflow law. From an empty ring, `N` runs of `SVC_RX` with no read in between leave
`min(N, RX_CAP - 1)` unread bytes, the last ones in order, and add `max(0, N - RX_CAP + 1)` to the counter, under every
well-formed configuration whose `RBUF.DATA` can be read (R37, `WO`). -/
def Obligations.ReceiveOverflowLaw : Prop :=
  ∀ (s : State) (ws : List Word), s.cfg.wf = true → s.cfg.layout.rbufDATA.access ≠ .wo →
    s.rx.ok s.cfg.rxCap = true → s.rx.isEmpty = true → s.rxOvf < 2 ^ s.cfg.ovfBits →
    ∃ t, deliverAll ws s = .next t
      ∧ t.rx.count s.cfg.rxCap = min ws.length (s.cfg.rxCap - 1)
      ∧ t.rx.unread s.cfg.rxCap
          = (ws.map (getField s.cfg.layout.rbufDATA 8)).drop (ws.length - min ws.length (s.cfg.rxCap - 1))
      ∧ (t.rxOvf : Int) = ((s.rxOvf : Int) + max 0 ((ws.length : Int) - s.cfg.rxCap + 1)) % (2 : Int) ^ s.cfg.ovfBits

/-- R24, R125: the rings are FIFO queues of their unread bytes. `STX_WR` appends its byte, `SVC_TX` sends the oldest and
keeps the rest in order, `SVC_RX` appends its byte and drops the oldest only when full, and `SRX_RD` answers the
oldest. -/
def Obligations.RingsAreFifoQueues : Prop :=
  ∀ s : State, Inv s → s.cfg.standard = true →
    (∀ b l rest t, s.seq = .busy ⟨.request (.stxWr b), 2, l⟩ rest → exec (.stxWr b) s = .next t →
      t.tx.unread s.cfg.txCap = s.tx.unread s.cfg.txCap ++ [b])
    ∧ (∀ t, exec .svcTx s = .next t → s.tx.isEmpty = false → flagField s.cfg.layout.xcsrREADY s.xcsr = true →
      ∃ b, s.tx.unread s.cfg.txCap = b :: t.tx.unread s.cfg.txCap ∧ getField s.cfg.layout.xbufDATA 8 t.xbuf = b)
    ∧ (∀ t, exec .svcRx s = .next t →
      t.rx.unread s.cfg.rxCap =
        (if s.rx.isFull s.cfg.rxCap then (s.rx.unread s.cfg.rxCap).tail else s.rx.unread s.cfg.rxCap)
          ++ [getField s.cfg.layout.rbufDATA 8 s.rbuf])
    ∧ (∀ l t, s.seq = .busy ⟨.request .srxRd, 2, l⟩ [] → exec .srxRd s = .next t →
      ∃ b, s.rx.unread s.cfg.rxCap = b :: t.rx.unread s.cfg.rxCap ∧ t.resp = some (.byte b))

/-- R129: a blocked `STX_WR` stays blocked through every step but a run of `SVC_TX` that sends a byte, which needs
`READY`, and RESET; with an empty script the step is that of the default move (assumption 9). -/
def Obligations.BackpressureEndsOnlyBySending : Prop :=
  ∀ (s t : State) (m : Move) (b : Byte) (l : Locals) (rest : List Frame), Inv s →
    s.seq = .busy ⟨.request (.stxWr b), 1, l⟩ rest → s.tx.isFull s.cfg.txCap = true → (nextMove s).1 = m →
    (∀ serial storage, m ≠ .reset serial storage) → step s = .next t →
    t.seq = s.seq
    ∧ (t.tx.isFull t.cfg.txCap = true
      ∨ (m = .dispatch .tx ∧ flagField s.cfg.layout.xcsrREADY (regValue .xcsr s) = true
          ∧ t.tx.unread t.cfg.txCap = (s.tx.unread s.cfg.txCap).tail))

/-- R126, V-SRT-8: a blocked read completes with the byte that the device delivers: delivery, the service and two turns
of the sequencer. The script of the four moves is the model's form (assumption 9). -/
def Obligations.BlockedReadCompletes : Prop :=
  ∀ (s : State) (w : Word) (l : Locals) (more : List Move), Inv s → s.cfg.standard = true →
    s.seq = .busy ⟨.request .srxRd, 1, l⟩ [] → s.rx.isEmpty = true → rie s = true →
    s.env = [.serialReceive w, .dispatch .rx, .sequencer, .sequencer] ++ more →
    ∃ t, Host.Core.run Sys2Proof.core 4 s = .next t ∧ t.seq = .idle
      ∧ t.resp = some (.byte (getField s.cfg.layout.rbufDATA 8 w)) ∧ t.rx.isEmpty = true ∧ t.rxOvf = s.rxOvf
      ∧ t.env = more

/-! ### Storage command engine -/

/-- R170: `SCE_INIT`, `OP = 0x7` and all other bits 0, sets every field of DeviceStatus to its reset value (R28) and answers
`OK`; nothing else changes, and no register is accessed. -/
def Obligations.SceInitResetsDeviceStatus : Prop :=
  (∀ c : Cfg, decodeRequest c 0x0000000000000007#64 = .ok .sceInit)
  ∧ (∀ (s : State) (l : Locals) (rest : List Frame), s.seq = .busy ⟨.request .sceInit, 1, l⟩ rest →
    exec .sceInit s = .next (answered .ok rest
      { s with ds := {
          driveType := .small, sector := 0, head := 0, cylinder := 0, lastError := 0, errorLabel := .eNone,
          stateLabel := stateLabel s.cfg 0#3, csImage := 0, mpStatus := 0, drive := 0 } }))

/-- R141, R142: one pass of `C_WAITC` reads CS and nothing else; with `CRDY` set it records the value and answers
DeviceStatus, else it stays. -/
def Obligations.CWaitcPoll : Prop :=
  ∀ (s : State) (l : Locals) (rest : List Frame), s.cfg.standard = true →
    s.seq = .busy ⟨.request .cWaitc, 1, l⟩ rest →
    (csReady s.cfg (csValue s) = true →
      exec .cWaitc s = .next (answered (.status { s.ds with csImage := csValue s }) rest
        { s with ds := { s.ds with csImage := csValue s }, bus := s.bus ++ [.read s.cfg.addr.cs (csValue s)] }))
    ∧ (csReady s.cfg (csValue s) = false →
      exec .cWaitc s = .next { s with bus := s.bus ++ [.read s.cfg.addr.cs (csValue s)] })

/-- R143: the four steps of `C_WAITD`. Step 1 refreshes the status if asked; step 2 reads CS and ends the wait on `DRDY`,
whatever the error bits; step 3 calls get-status with reset on `CE` or `DE`; step 4 goes back to step 2. -/
def Obligations.CWaitdTransitions : Prop :=
  ∀ (s : State) (d : Drive) (refresh reset : Bool) (l : Locals) (rest : List Frame) (n : Nat),
    s.cfg.standard = true → s.seq = .busy ⟨.request (.cWaitd d refresh reset), n, l⟩ rest →
    (n = 1 → exec (.cWaitd d refresh reset) s =
      .next (if refresh then
          { s with seq := .busy ⟨.request (.cStat d reset), 1, ⟨0, 0, 0⟩⟩ (⟨.request (.cWaitd d refresh reset), 1, l⟩ :: rest) }
        else { s with seq := .busy ⟨.request (.cWaitd d refresh reset), 2, l⟩ rest }))
    ∧ (n = 2 → exec (.cWaitd d refresh reset) s =
      .next (if csDriveReady s.cfg (csValue s) then
          answered (.status s.ds) rest { s with bus := s.bus ++ [.read s.cfg.addr.cs (csValue s)] }
        else { s with
          seq := .busy ⟨.request (.cWaitd d refresh reset), 3, { l with c := csValue s }⟩ rest
          bus := s.bus ++ [.read s.cfg.addr.cs (csValue s)] }))
    ∧ (n = 3 → exec (.cWaitd d refresh reset) s =
      .next (if csCompositeError s.cfg l.c || csDriveError s.cfg l.c then
          { s with seq := .busy ⟨.request (.cStat d true), 1, ⟨0, 0, 0⟩⟩ (⟨.request (.cWaitd d refresh reset), 3, l⟩ :: rest) }
        else { s with seq := .busy ⟨.request (.cWaitd d refresh reset), 4, l⟩ rest }))
    ∧ (n = 4 → exec (.cWaitd d refresh reset) s =
      .next { s with seq := .busy ⟨.request (.cWaitd d refresh reset), 2, l⟩ rest })

/-- R145: the four steps of `C_CMD`: wait, write the command word and record the drive, wait, and record the `E` field of
the final CS value with its label and answer DeviceStatus. -/
def Obligations.CCmdTransitions : Prop :=
  ∀ (s : State) (d : Drive) (fn : Fn) (l : Locals) (rest : List Frame) (n : Nat), s.cfg.standard = true →
    s.seq = .busy ⟨.request (.cCmd d fn), n, l⟩ rest →
    (n = 1 ∨ n = 3 → exec (.cCmd d fn) s =
      .next { s with seq := .busy ⟨.request .cWaitc, 1, ⟨0, 0, 0⟩⟩ (⟨.request (.cCmd d fn), n, l⟩ :: rest) })
    ∧ (n = 2 → ∃ t, commandStarted d fn s t ∧ exec (.cCmd d fn) s =
      .next { t with ds := { s.ds with drive := d }, seq := .busy ⟨.request (.cCmd d fn), 3, l⟩ rest })
    ∧ (n = 4 → ∃ ds, ds = { s.ds with
          lastError := getField s.cfg.layout.csE 4 s.ds.csImage
          errorLabel := errLabel s.cfg (getField s.cfg.layout.csE 4 s.ds.csImage) }
        ∧ exec (.cCmd d fn) s = .next (answered (.status ds) rest { s with ds := ds }))

/-- R49 a, R108: each of the four command words written to CS starts its command on its drive, and changes nothing but
CS, the selected drive, the command in flight and the access record. R145 step 2, R146: on its step 2, `C_CMD` runs the
command word it writes, and then records the drive and advances.
Command words as instructions are the model's reading (assumption 18). -/
def Obligations.CommandWordsStartTheirCommand : Prop :=
  (∀ (s : State) (d : Drive), s.cfg.standard = true →
    (∃ t, exec (.getStatus d) s = .next t ∧ commandStarted d .getStatus s t)
    ∧ (∃ t, exec (.seek d) s = .next t ∧ commandStarted d .seek s t)
    ∧ (∃ t, exec (.readHeader d) s = .next t ∧ commandStarted d .readHeader s t)
    ∧ (∃ t, exec (.readData d) s = .next t ∧ commandStarted d .readData s t))
  ∧ (∀ (s : State) (d : Drive) (fn : Fn) (i : Instr) (l : Locals) (rest : List Frame), commandInstr d fn = some i →
    s.seq = .busy ⟨.request (.cCmd d fn), 2, l⟩ rest →
    ∃ t, exec i s = .next t ∧
      exec (.cCmd d fn) s =
        .next { t with ds := { s.ds with drive := d }, seq := .busy ⟨.request (.cCmd d fn), 3, l⟩ rest })

/-- R148: the three steps of `C_STAT`: write the get-status word to DA, run the command, read MP once and decode it. What
MP holds after it was read is open (R78) and left free (assumption 8). -/
def Obligations.CStatTransitions : Prop :=
  ∀ (s : State) (d : Drive) (reset : Bool) (l : Locals) (rest : List Frame) (n : Nat),
    s.cfg.standard = true → s.seq = .busy ⟨.request (.cStat d reset), n, l⟩ rest →
    (n = 1 → exec (.cStat d reset) s =
      .next { s with
        da := daGs s.cfg reset
        seq := .busy ⟨.request (.cStat d reset), 2, l⟩ rest
        bus := s.bus ++ [.write s.cfg.addr.da (daGs s.cfg reset)] })
    ∧ (n = 2 → exec (.cStat d reset) s =
      .next { s with
        seq := .busy ⟨.request (.cCmd d .getStatus), 1, ⟨0, 0, 0⟩⟩ (⟨.request (.cStat d reset), 2, l⟩ :: rest) })
    ∧ (n = 3 → ∃ ds w k, ds = { s.ds with
          mpStatus := s.mp
          driveType := if flagField s.cfg.layout.stDT s.mp then .large else .small
          stateLabel := stateLabel s.cfg (getField s.cfg.layout.stSTATE 3 s.mp) }
        ∧ exec (.cStat d reset) s = .next (answered (.status ds) rest
            { s with ds := ds, mp := w, free := k, bus := s.bus ++ [.read s.cfg.addr.mp s.mp] }))

/-- R151: the two steps of `RDHDR`: run the read-header command, read MP once, record the position and return the header
to the calling step. What MP holds after it was read is open (R78) and left free (assumption 8). -/
def Obligations.ReadHeaderTransitions : Prop :=
  ∀ (s : State) (d : Drive) (l : Locals) (rest : List Frame) (n : Nat),
    s.cfg.standard = true → s.seq = .busy ⟨.rdhdr d, n, l⟩ rest →
    (n = 1 → rdhdrStep d ⟨.rdhdr d, n, l⟩ s =
      .next { s with seq := .busy ⟨.request (.cCmd d .readHeader), 1, ⟨0, 0, 0⟩⟩ (⟨.rdhdr d, 1, l⟩ :: rest) })
    ∧ (n = 2 → ∃ w k, rdhdrStep d ⟨.rdhdr d, n, l⟩ s =
      .next (answered (.header s.mp) rest
        { s with
          ds := { s.ds with
            cylinder := getField s.cfg.layout.hdCYL 9 s.mp
            head := getField s.cfg.layout.hdHEAD 1 s.mp
            sector := getField s.cfg.layout.hdSEC 6 s.mp }
          mp := w
          free := k
          bus := s.bus ++ [.read s.cfg.addr.mp s.mp] }))

/-- R152: the seven steps of `C_SEEK`. The no-op test compares the cylinder only; the seek word carries magnitude,
direction and the head of the request. -/
def Obligations.CSeekTransitions : Prop :=
  ∀ (s : State) (d : Drive) (hd : BitVec 1) (cyl : BitVec 9) (l : Locals) (rest : List Frame) (n : Nat),
    s.cfg.standard = true → s.seq = .busy ⟨.request (.cSeek d hd cyl), n, l⟩ rest →
    (n = 1 ∨ n = 6 → exec (.cSeek d hd cyl) s =
      .next { s with seq := .busy ⟨.rdhdr d, 1, ⟨0, 0, 0⟩⟩ (⟨.request (.cSeek d hd cyl), n, l⟩ :: rest) })
    ∧ (n = 2 → exec (.cSeek d hd cyl) s =
      .next (if getField s.cfg.layout.hdCYL 9 l.h = cyl then answered (.status s.ds) rest s
        else { s with
          seq := .busy ⟨.request (.cSeek d hd cyl), 3, { l with cur := getField s.cfg.layout.hdCYL 9 l.h }⟩ rest }))
    ∧ (n = 3 → ∃ w, w = daSeek s.cfg (seekMag cyl l.cur) (seekDir cyl l.cur) hd ∧ exec (.cSeek d hd cyl) s =
      .next { s with
        da := w
        seq := .busy ⟨.request (.cSeek d hd cyl), 4, l⟩ rest
        bus := s.bus ++ [.write s.cfg.addr.da w] })
    ∧ (n = 4 → exec (.cSeek d hd cyl) s =
      .next { s with
        seq := .busy ⟨.request (.cCmd d .seek), 1, ⟨0, 0, 0⟩⟩ (⟨.request (.cSeek d hd cyl), 4, l⟩ :: rest) })
    ∧ (n = 5 → exec (.cSeek d hd cyl) s =
      .next { s with
        seq := .busy ⟨.request (.cWaitd d false false), 1, ⟨0, 0, 0⟩⟩ (⟨.request (.cSeek d hd cyl), 5, l⟩ :: rest) })
    ∧ (n = 7 → exec (.cSeek d hd cyl) s = .next (answered (.status s.ds) rest s))

/-- R155: `C_RDBLK` with a word count above `BLOCK_WORDS` answers `(BOUNDS, DS)` at its first step, with no lower-port
access and DeviceStatus unchanged; every other count, 0 among them, passes to step 2. -/
def Obligations.CRdblkBoundsCheck : Prop :=
  ∀ (s : State) (d : Drive) (sec : BitVec 6) (hd : BitVec 1) (cyl : BitVec 9) (wc ba : Word) (l : Locals)
    (rest : List Frame), s.seq = .busy ⟨.request (.cRdblk d sec hd cyl wc ba), 1, l⟩ rest →
    (s.cfg.blockSize / 2 < wc.toNat →
      exec (.cRdblk d sec hd cyl wc ba) s = .next (answered (.block .bounds s.ds) rest s))
    ∧ (wc.toNat ≤ s.cfg.blockSize / 2 → exec (.cRdblk d sec hd cyl wc ba) s =
      .next { s with seq := .busy ⟨.request (.cRdblk d sec hd cyl wc ba), 2, l⟩ rest })
    ∧ (wc = 0#16 → exec (.cRdblk d sec hd cyl wc ba) s =
      .next { s with seq := .busy ⟨.request (.cRdblk d sec hd cyl wc ba), 2, l⟩ rest })

/-- R156 to R160: steps 2 to 7 of `C_RDBLK`: the seek, then MP, BA and DA in this order, then the read-data command, then
the requested position recorded and `(OK, DS)` answered. That MP then holds the count is the model's choice of `RW` for it
(assumption 23). -/
def Obligations.CRdblkTransitions : Prop :=
  ∀ (s : State) (d : Drive) (sec : BitVec 6) (hd : BitVec 1) (cyl : BitVec 9) (wc ba : Word) (l : Locals)
    (rest : List Frame) (n : Nat), s.cfg.standard = true →
    s.seq = .busy ⟨.request (.cRdblk d sec hd cyl wc ba), n, l⟩ rest →
    (n = 2 → exec (.cRdblk d sec hd cyl wc ba) s =
      .next { s with
        seq := .busy ⟨.request (.cSeek d hd cyl), 1, ⟨0, 0, 0⟩⟩ (⟨.request (.cRdblk d sec hd cyl wc ba), 2, l⟩ :: rest) })
    ∧ (n = 3 → exec (.cRdblk d sec hd cyl wc ba) s =
      .next { s with
        mp := mpWc s.cfg wc
        seq := .busy ⟨.request (.cRdblk d sec hd cyl wc ba), 4, l⟩ rest
        bus := s.bus ++ [.write s.cfg.addr.mp (mpWc s.cfg wc)] })
    ∧ (n = 4 → exec (.cRdblk d sec hd cyl wc ba) s =
      .next { s with
        ba := ba
        seq := .busy ⟨.request (.cRdblk d sec hd cyl wc ba), 5, l⟩ rest
        bus := s.bus ++ [.write s.cfg.addr.ba ba] })
    ∧ (n = 5 → exec (.cRdblk d sec hd cyl wc ba) s =
      .next { s with
        da := daRd s.cfg cyl hd sec
        seq := .busy ⟨.request (.cRdblk d sec hd cyl wc ba), 6, l⟩ rest
        bus := s.bus ++ [.write s.cfg.addr.da (daRd s.cfg cyl hd sec)] })
    ∧ (n = 6 → exec (.cRdblk d sec hd cyl wc ba) s =
      .next { s with
        seq := .busy ⟨.request (.cCmd d .readData), 1, ⟨0, 0, 0⟩⟩ (⟨.request (.cRdblk d sec hd cyl wc ba), 6, l⟩ :: rest) })
    ∧ (n = 7 → exec (.cRdblk d sec hd cyl wc ba) s =
      .next (answered (.block .ok { s.ds with sector := sec, head := hd, cylinder := cyl }) rest
        { s with ds := { s.ds with sector := sec, head := hd, cylinder := cyl } }))

/-- R165: `C_DECERR w` answers the label of bits 13:10 (the E field) of its word, whatever its other bits, and changes
nothing and accesses no register; the example of the rule; and its encoding, `OP = 0xE` with the word in bits 47:32. -/
def Obligations.CDecerrAnswersTheLabel : Prop :=
  (∀ (s : State) (w : Word) (l : Locals) (rest : List Frame), s.seq = .busy ⟨.request (.cDecerr w), 1, l⟩ rest →
    exec (.cDecerr w) s = .next (answered (.errLabel (errLabel s.cfg (getField s.cfg.layout.csE 4 w))) rest s))
  ∧ (∀ w : Word, getField defaultCfg.layout.csE 4 w = w.extractLsb' 10 4)
  ∧ errLabel defaultCfg (getField defaultCfg.layout.csE 4 0x9480#16) = .eHnf
  ∧ (∀ (c : Cfg) (w : Word), decodeRequest c (0x000000000000000E#64 ||| w.setWidth 64 <<< 32) = .ok (.cDecerr w))

/-- R167: `C_DECST w` answers the label of bits 2:0 of its word, whatever its other bits, and changes nothing and accesses
no register; the example of the rule; and its encoding, `OP = 0xF` with the word in bits 47:32. -/
def Obligations.CDecstAnswersTheLabel : Prop :=
  (∀ (s : State) (w : Word) (l : Locals) (rest : List Frame), s.seq = .busy ⟨.request (.cDecst w), 1, l⟩ rest →
    exec (.cDecst w) s =
      .next (answered (.stateLabel (stateLabel s.cfg (getField s.cfg.layout.stSTATE 3 w))) rest s))
  ∧ (∀ w : Word, getField defaultCfg.layout.stSTATE 3 w = w.extractLsb' 0 3)
  ∧ stateLabel defaultCfg (getField defaultCfg.layout.stSTATE 3 0x008D#16) = .sLockOn
  ∧ (∀ (c : Cfg) (w : Word), decodeRequest c (0x000000000000000F#64 ||| w.setWidth 64 <<< 32) = .ok (.cDecst w))

/-- R161 with R155, R159: whenever `C_RDBLK` answers the host, it answers `(BOUNDS, DS)` with DeviceStatus unchanged, or
`(OK, DS)` with the requested sector, head and cylinder in DeviceStatus and its error fields as they were. That `BOUNDS`
changes nothing else and accesses no register is `CRdblkBoundsCheck`. -/
def Obligations.CRdblkRecordsTheRequestedPosition : Prop :=
  ∀ (s t : State) (d : Drive) (sec : BitVec 6) (hd : BitVec 1) (cyl : BitVec 9) (wc ba : Word) (f : Frame),
    s.seq = .busy f [] → f.op = .request (.cRdblk d sec hd cyl wc ba) →
    exec (.cRdblk d sec hd cyl wc ba) s = .next t → t.seq = .idle →
    (f.step = 1 ∧ blockWords s.cfg < wc.toNat ∧ t.resp = some (.block .bounds s.ds) ∧ t.ds = s.ds)
    ∨ (f.step = 7 ∧ t.resp = some (.block .ok t.ds) ∧ t.ds.sector = sec ∧ t.ds.head = hd ∧ t.ds.cylinder = cyl
        ∧ t.ds.lastError = s.ds.lastError ∧ t.ds.errorLabel = s.ds.errorLabel)

/-- R145 as a whole operation: from `IDLE` with the controller ready, `C_CMD d, fn` ends after eight steps when the
controller presents a value `v` with `CRDY` after the command write, with the drive, the CS image `v`, the `E` field of
`v` and its label recorded and answered, and with the rings untouched.
Eight steps count acceptance and the two calls as transitions of their own (assumption 12), and the script of the eight
moves is the model's form (assumption 9). -/
def Obligations.CCmdCompletes : Prop :=
  ∀ (s : State) (q : ReqWord) (d : Drive) (fn : Fn) (v : Word) (more : List Move), s.cfg.standard = true → s.seq = .idle →
    decodeRequest s.cfg q = .ok (.cCmd d fn) → csReady s.cfg (csValue s) = true → csReady s.cfg v = true →
    s.env = [.request q, .sequencer, .sequencer, .sequencer, .ctlStatus v, .sequencer, .sequencer, .sequencer] ++ more →
    ∃ t, Host.Core.run Sys2Proof.core 8 s = .next t ∧ t.seq = .idle ∧ t.env = more
      ∧ t.ds = { s.ds with
          drive := d
          csImage := v
          lastError := getField s.cfg.layout.csE 4 v
          errorLabel := errLabel s.cfg (getField s.cfg.layout.csE 4 v) }
      ∧ t.resp = some (.status t.ds) ∧ t.cmd = none ∧ t.sel = d ∧ t.rx = s.rx ∧ t.tx = s.tx ∧ t.da = s.da
      ∧ t.ba = s.ba ∧ t.mp = s.mp

/-- R169: both decode maps answer for every word without an access or a change; after the last step of `C_CMD` the error
label is that of the last error, and after the last step of `C_STAT` the state label is that of the MP status. -/
def Obligations.DecodeMapsTotalAndRecorded : Prop :=
  (∀ (s : State) (w : Word) (l : Locals) (rest : List Frame),
    (s.seq = .busy ⟨.request (.cDecerr w), 1, l⟩ rest → ∃ x, exec (.cDecerr w) s = .next (answered (.errLabel x) rest s))
    ∧ (s.seq = .busy ⟨.request (.cDecst w), 1, l⟩ rest →
        ∃ x, exec (.cDecst w) s = .next (answered (.stateLabel x) rest s)))
  ∧ (∀ (s t : State) (d : Drive) (fn : Fn) (l : Locals) (rest : List Frame),
    s.seq = .busy ⟨.request (.cCmd d fn), 4, l⟩ rest → exec (.cCmd d fn) s = .next t →
    t.ds.errorLabel = errLabel t.cfg t.ds.lastError)
  ∧ (∀ (s t : State) (d : Drive) (reset : Bool) (l : Locals) (rest : List Frame),
    s.seq = .busy ⟨.request (.cStat d reset), 3, l⟩ rest → exec (.cStat d reset) s = .next t →
    t.ds.stateLabel = stateLabel t.cfg (getField t.cfg.layout.stSTATE 3 t.ds.mpStatus))

/-- R49 c, R227: what CS shows as `DRDY` is the ready bit of the drive that the last CS write selected, and every other
field is the stored one. Of the instructions only `C_CMD` and the command words select a drive, of the moves only a turn
of the sequencer and RESET, so that a presented CS value selects none; and the poll inside `C_SEEK d` is that of drive `d`.
The drives' bits and the selection apart from CS are the model's form (assumption 13). -/
def Obligations.DriveReadyOfTheSelectedDrive : Prop :=
  (∀ s : State, s.cfg.wf = true →
    csDriveReady s.cfg (csValue s) = s.drives[s.sel.toNat]'(s.sel.isLt)
    ∧ csDrive s.cfg (csValue s) = csDrive s.cfg s.cs ∧ csFunction s.cfg (csValue s) = csFunction s.cfg s.cs
    ∧ csReady s.cfg (csValue s) = csReady s.cfg s.cs ∧ csError s.cfg (csValue s) = csError s.cfg s.cs
    ∧ csDriveError s.cfg (csValue s) = csDriveError s.cfg s.cs
    ∧ csCompositeError s.cfg (csValue s) = csCompositeError s.cfg s.cs)
  ∧ (∀ (i : Instr) (s t : State), exec i s = .next t → (∀ d fn, i ≠ .cCmd d fn) →
      (∀ d, i ≠ .getStatus d ∧ i ≠ .seek d ∧ i ≠ .readHeader d ∧ i ≠ .readData d) → t.sel = s.sel)
  ∧ (∀ (s t : State) (m : Move), (nextMove s).1 = m → m ≠ .sequencer → (∀ a b, m ≠ .reset a b) → step s = .next t →
      t.sel = s.sel)
  ∧ (∀ (s : State) (d : Drive) (hd : BitVec 1) (cyl : BitVec 9) (n : Nat) (l k : Locals) (below : List Frame), Inv s →
      s.cfg.standard = true →
      s.seq = .busy ⟨.request (.cWaitd d false false), n, l⟩ (⟨.request (.cSeek d hd cyl), 5, k⟩ :: below) → s.sel = d)

/-! ### Interrupts, reset, memory -/

/-- R182: the two interrupt requests, under the default layout bit 7 and bit 6 of RCSR and of XCSR; and every command word
that the block writes to CS has `IE = 0`. The default layout is the general knowledge of R43 and R45 (assumption 15). -/
def Obligations.InterruptRequests : Prop :=
  (∀ s : State,
    irqRx s = (flagField s.cfg.layout.rcsrDONE s.rcsr && flagField s.cfg.layout.rcsrRIE s.rcsr)
    ∧ irqTx s = (flagField s.cfg.layout.xcsrREADY s.xcsr && flagField s.cfg.layout.xcsrTIE s.xcsr))
  ∧ (∀ s : State, s.cfg = defaultCfg →
    irqRx s = (s.rcsr.getLsbD 7 && s.rcsr.getLsbD 6) ∧ irqTx s = (s.xcsr.getLsbD 7 && s.xcsr.getLsbD 6))
  ∧ (∀ (c : Cfg) (d : Drive) (fn : Fn), c.wf = true → getField c.layout.csIE 1 (csCmd c d fn) = 0#1)

/-- R210, R213: RESET in one transition: `IDLE` with no response, indices and counter 0, DeviceStatus at its reset values
(those of R28), slots kept; a device that it does not reach keeps its registers, and a host that had enabled the receive
interrupt there is as far in the boot order as before (R214).
The reach as part of the move is the model's form (assumption 16). -/
def Obligations.ResetOfTheBlock : Prop :=
  ∀ (s : State) (serial : Option SerialDraw) (storage : Option StorageDraw) (rest : List Move),
    s.cfg.addr.even = true → s.env = .reset serial storage :: rest →
    ∃ t, step s = .next t ∧ t.seq = .idle ∧ t.resp = none
      ∧ t.rx = { s.rx with inIdx := 0, outIdx := 0 } ∧ t.tx = { s.tx with inIdx := 0, outIdx := 0 } ∧ t.rxOvf = 0
      ∧ t.ds = {
          driveType := .small, sector := 0, head := 0, cylinder := 0, lastError := 0, errorLabel := .eNone,
          stateLabel := stateLabel s.cfg 0#3, csImage := 0, mpStatus := 0, drive := 0 }
      ∧ t.bus = [] ∧ t.env = rest ∧ t.cfg = s.cfg ∧ t.mem = s.mem ∧ t.hostXcsr = s.hostXcsr ∧ t.free = s.free
      ∧ (serial = none → t.rcsr = s.rcsr ∧ t.rbuf = s.rbuf ∧ t.xcsr = s.xcsr ∧ t.xbuf = s.xbuf
          ∧ t.boot = if s.boot = .initialised then .start else s.boot)
      ∧ (storage = none → t.cs = s.cs ∧ t.ba = s.ba ∧ t.da = s.da ∧ t.mp = s.mp ∧ t.drives = s.drives ∧ t.sel = s.sel
          ∧ t.cmd = s.cmd)

/-- R211: a RESET that reaches the serial device leaves RCSR 0, XCSR with `READY` and not `TIE`, its other registers at the
device's draw, and neither interrupt request asserted, whether it reaches the controller or not; one that reaches the
controller leaves `CS.CRDY` 1, no command in flight and every other value at the draw, whether it reaches the serial
device or not; and a device that is not reached keeps its registers. Under the default layout XCSR is 0x0080.
The reach carried by the move, the drives and the selected drive as part of the draw, and the end of the command in flight
are the model's form (assumption 16). -/
def Obligations.ResetOfTheDevices : Prop :=
  (∀ (s : State) (w : SerialDraw) (storage : Option StorageDraw) (rest : List Move), s.cfg.wf = true →
    s.env = .reset (some w) storage :: rest →
    ∃ t, step s = .next t ∧ t.rcsr = 0x0000#16
      ∧ flagField t.cfg.layout.xcsrREADY t.xcsr = true ∧ flagField t.cfg.layout.xcsrTIE t.xcsr = false
      ∧ (s.cfg = defaultCfg → t.xcsr = 0x0080#16) ∧ t.rbuf = w.rbuf ∧ t.xbuf = w.xbuf
      ∧ irqRx t = false ∧ irqTx t = false ∧ t.boot = .start)
  ∧ (∀ (s : State) (serial : Option SerialDraw) (w : StorageDraw) (rest : List Move), s.cfg.wf = true →
    s.env = .reset serial (some w) :: rest →
    ∃ t, step s = .next t ∧ csReady t.cfg (csValue t) = true ∧ t.cmd = none
      ∧ t.ba = w.ba ∧ t.da = w.da ∧ t.mp = w.mp ∧ t.drives = w.drives ∧ t.sel = csDrive s.cfg w.cs
      ∧ csDrive t.cfg t.cs = csDrive t.cfg w.cs ∧ csFunction t.cfg t.cs = csFunction t.cfg w.cs
      ∧ csError t.cfg t.cs = csError t.cfg w.cs ∧ csDriveError t.cfg t.cs = csDriveError t.cfg w.cs
      ∧ csCompositeError t.cfg t.cs = csCompositeError t.cfg w.cs)
  ∧ (∀ (s : State) (storage : Option StorageDraw) (rest : List Move), s.cfg.wf = true →
    s.env = .reset none storage :: rest →
    ∃ t, step s = .next t ∧ t.rcsr = s.rcsr ∧ t.rbuf = s.rbuf ∧ t.xcsr = s.xcsr ∧ t.xbuf = s.xbuf)
  ∧ (∀ (s : State) (serial : Option SerialDraw) (rest : List Move), s.cfg.wf = true →
    s.env = .reset serial none :: rest →
    ∃ t, step s = .next t ∧ t.cs = s.cs ∧ t.ba = s.ba ∧ t.da = s.da ∧ t.mp = s.mp ∧ t.drives = s.drives
      ∧ t.sel = s.sel ∧ t.cmd = s.cmd)

/-- R28, R51, R211: the reset state has the values that the spec gives: empty rings, counter 0, `IDLE`, every field of
DeviceStatus, `CRDY`, RCSR 0, and XCSR with `READY` alone.
`S_LOAD` as the label of state code 0 and the places of the bits are those of the default configuration (assumption
15). -/
def Obligations.ResetStateValues : Prop :=
  State.reset.seq = .idle ∧ State.reset.rx.inIdx = 0 ∧ State.reset.rx.outIdx = 0 ∧ State.reset.tx.inIdx = 0
  ∧ State.reset.tx.outIdx = 0 ∧ State.reset.rxOvf = 0
  ∧ State.reset.ds.driveType = .small ∧ State.reset.ds.sector = 0 ∧ State.reset.ds.head = 0
  ∧ State.reset.ds.cylinder = 0 ∧ State.reset.ds.lastError = 0 ∧ State.reset.ds.errorLabel = .eNone
  ∧ State.reset.ds.stateLabel = .sLoad ∧ State.reset.ds.csImage = 0 ∧ State.reset.ds.mpStatus = 0
  ∧ State.reset.ds.drive = 0 ∧ State.reset.rcsr = 0x0000#16 ∧ State.reset.xcsr = 0x0080#16
  ∧ csReady State.reset.cfg (csValue State.reset) = true ∧ irqRx State.reset = false ∧ irqTx State.reset = false

/-- R72, R74: only the controller's transfer changes host memory, byte `k` of the block at `BA + k` while a read-data
command is in flight, and no other byte and nothing else; no instruction changes it, and no other move, the default one of
an empty script among them. A transfer move with no read-data command in flight or beyond the block changes nothing.
A move for each byte, and up to 65536 words for a word count of 0, are the model's form (assumption 7). -/
def Obligations.HostMemoryChangesOnlyByTransfer : Prop :=
  (∀ (i : Instr) (s t : State), exec i s = .next t → t.mem = s.mem)
  ∧ (∀ (s t : State) (m : Move), (nextMove s).1 = m → (∀ k b, m ≠ .dma k b) → step s = .next t → t.mem = s.mem)
  ∧ (∀ (s : State) (k : Nat) (b : Byte) (more : List Move) (d : Drive) (n : Word), s.cfg.addr.even = true →
      s.env = .dma k b :: more → s.cmd = some ⟨fcode s.cfg .readData, d⟩ → n = wcOfMp s.cfg (mpOfWord s.cfg s.mp) →
      (k < 2 * n.toNat ∨ (n = 0#16 ∧ k < 131072)) →
      ∃ t, step s = .next t ∧ t = { s with env := more, bus := [], mem := t.mem }
        ∧ t.mem.read ((baOfWord s.cfg s.ba).toNat + k) = some b
        ∧ ∀ a, a ≠ (baOfWord s.cfg s.ba).toNat + k → t.mem.read a = s.mem.read a)
  ∧ (∀ (s : State) (k : Nat) (b : Byte) (more : List Move) (n : Word), s.cfg.addr.even = true →
      s.env = .dma k b :: more → n = wcOfMp s.cfg (mpOfWord s.cfg s.mp) →
      (s.cmd = none ∨ (∃ c, s.cmd = some c ∧ c.f ≠ fcode s.cfg .readData) ∨ (n ≠ 0#16 ∧ 2 * n.toNat ≤ k)
        ∨ (n = 0#16 ∧ 131072 ≤ k)) →
      step s = .next { s with env := more, bus := [] })

/-- R73: `MemRead` at a register's address is the value that its read returns, `MemWrite` there is the write that
reaches it, and each puts bits 7:0 at the even address and bits 15:8 at the next one: the two bytes of the port are those
of the word that the register holds, and after a write each bit of a byte is the written one, or the old one where the
device drives it (`DRDY` of CS aside, which the selected drive drives). Under the default layout the bytes at the even
addresses of RBUF and XBUF are their `DATA`. An odd address (R76) and one where no register sits (R70) reach nothing. -/
def Obligations.LowerPortByteOrder : Prop :=
  (∀ (s : State) (r : Reg) (v : Word), s.cfg.wf = true →
    memRead (regAddr s.cfg r) s = some (regValue r s)
    ∧ portByte (regAddr s.cfg r) s = some ((portWord r s).extractLsb' 0 8)
    ∧ portByte (regAddr s.cfg r + 1#16) s = some ((portWord r s).extractLsb' 8 8)
    ∧ memWrite (regAddr s.cfg r) (blockWord s.cfg r v) s = some (regWrite r v s)
    ∧ ∃ t lo hi, memWrite (regAddr s.cfg r) v s = some t
      ∧ t.bus = s.bus ++ [.write (regAddr s.cfg r) v]
      ∧ portByte (regAddr s.cfg r) t = some lo ∧ portByte (regAddr s.cfg r + 1#16) t = some hi
      ∧ ∀ i, i < 8 →
        ((r = .cs → (fieldMask s.cfg.layout.csDRDY).getLsbD i = false) →
          lo.getLsbD i = if (regRo s.cfg r).getLsbD i then (portWord r s).getLsbD i else v.getLsbD i)
        ∧ ((r = .cs → (fieldMask s.cfg.layout.csDRDY).getLsbD (8 + i) = false) →
          hi.getLsbD i = if (regRo s.cfg r).getLsbD (8 + i) then (portWord r s).getLsbD (8 + i) else v.getLsbD (8 + i)))
  ∧ (∀ s : State, s.cfg.wf = true → s.cfg.layout = defaultLayout →
    portByte s.cfg.addr.rbuf s = some (getField s.cfg.layout.rbufDATA 8 s.rbuf)
    ∧ portByte s.cfg.addr.xbuf s = some (getField s.cfg.layout.xbufDATA 8 s.xbuf))
  ∧ (∀ (s : State) (a : Addr) (v : Word), (a.getLsbD 0 = true ∨ ∀ r, regAddr s.cfg r ≠ a) →
    memRead a s = none ∧ memWrite a v s = none)

/-! ### The machine as a whole -/

/-- The invariant holds at reset.
The capacities and the slots are the model's choice (assumptions 2, 3). -/
def Obligations.InvariantAtReset : Prop := Inv State.reset

/-- Every step keeps the invariant: configuration, rings, counter, the shape of the stack, `TIE` with a non-empty transmit
ring (R124), `RIE` only by the boot order and both enables 0 during `SRT_INIT` (R183, R214), the selected drive (R227), the labels of DeviceStatus (R149, R169), host memory's canonical form; and no step changes the
configuration (R8). -/
def Obligations.InvariantKeptByStep : Prop := ∀ s t : State, Inv s → step s = .next t → Inv t ∧ t.cfg = s.cfg

/-- R180: from a good state a step answers a next state; it stops only when the host breaks its duty in that very step, by
offering `SRT_INIT` or writing RCSR out of the boot order (R197, R214): no trap, no missing step, no refusal.
The stop at a breach is the model's choice (assumption 11). -/
def Obligations.GoodStatesNeverStop : Prop :=
  ∀ s : State, Inv s → safeStep s

/-- R32: the deepest nesting is six frames, before and after every step from a good state. -/
def Obligations.NestingAtMostSix : Prop :=
  ∀ s t : State, Inv s → step s = .next t → s.seq.depth ≤ 6 ∧ t.seq.depth ≤ 6

/-- R13, R70, R75: a numbered step of a host operation, `RDHDR` among them, makes at most one lower-port access, and every
access of the block goes to one of the eight register addresses. -/
def Obligations.AtMostOneAccessPerStep : Prop :=
  (∀ (i : Instr) (s t : State), i.isRequest = true → exec i s = .next t →
    t.bus = s.bus ∨ ∃ r v, t.bus = s.bus ++ [.read (regAddr s.cfg r) v] ∨ t.bus = s.bus ++ [.write (regAddr s.cfg r) v])
  ∧ (∀ (d : Drive) (f : Frame) (s t : State), rdhdrStep d f s = .next t →
    t.bus = s.bus ∨ ∃ r v, t.bus = s.bus ++ [.read (regAddr s.cfg r) v])

/-- R146: among all accesses of the block, a write of CS is made by step 2 of `C_CMD` alone (and by the command word it
runs), it writes that command's word (with 0 in the `W0` fields), and the word has `IE = 0`; `RDHDR` makes none. -/
def Obligations.OnlyCCmdWritesCs : Prop :=
  (∀ (i : Instr) (s t : State), s.cfg.wf = true → (i.isRequest = true ∨ i = .svcRx ∨ i = .svcTx) → exec i s = .next t →
    ∃ l, t.bus = s.bus ++ l ∧ ∀ v, Access.write s.cfg.addr.cs v ∈ l →
      ∃ d fn f rest, i = .cCmd d fn ∧ s.seq = .busy f rest ∧ f.step = 2
        ∧ v = blockWord s.cfg .cs (csCmd s.cfg d fn) ∧ (s.cfg.standard = true → v = csCmd s.cfg d fn)
        ∧ getField s.cfg.layout.csIE 1 v = 0#1)
  ∧ (∀ (d : Drive) (f : Frame) (s t : State), rdhdrStep d f s = .next t →
    ∃ l, t.bus = s.bus ++ l ∧ ∀ v, Access.write s.cfg.addr.cs v ∉ l)

/-- R78: the block reads MP only at the last step of `C_STAT` and of `RDHDR`, and at most once in that step: a read of MP,
where there is one, is that one; no instruction but `C_STAT` reads it. That the read is made there is `CStatTransitions`
and `ReadHeaderTransitions`. -/
def Obligations.MpReadOnlyByStatusAndHeader : Prop :=
  (∀ (i : Instr) (s t : State), s.cfg.wf = true → exec i s = .next t →
    ∃ l, t.bus = s.bus ++ l ∧ ∀ v, Access.read s.cfg.addr.mp v ∈ l →
      ∃ d reset f rest, i = .cStat d reset ∧ s.seq = .busy f rest ∧ f.step = 3 ∧ v = regValue .mp s ∧ l = [.read s.cfg.addr.mp v])
  ∧ (∀ (d : Drive) (f : Frame) (s t : State), s.cfg.wf = true → rdhdrStep d f s = .next t →
    ∃ l, t.bus = s.bus ++ l ∧ ∀ v, Access.read s.cfg.addr.mp v ∈ l →
      f.step = 2 ∧ v = regValue .mp s ∧ l = [.read s.cfg.addr.mp v])

/-- R31, R34: the services leave `SEQ` and DeviceStatus as they are, and neither depends on them; and only a turn of the
sequencer (a host operation) and RESET write DeviceStatus. -/
def Obligations.DeviceStatusWriters : Prop :=
  (∀ (s t : State) (i : Instr) (q : Seq) (ds : DeviceStatus), i = .svcRx ∨ i = .svcTx → exec i s = .next t →
    t.seq = s.seq ∧ t.ds = s.ds ∧ exec i { s with seq := q, ds := ds } = .next { t with seq := q, ds := ds })
  ∧ (∀ (s t : State) (m : Move), (nextMove s).1 = m → m ≠ .sequencer → (∀ a b, m ≠ .reset a b) →
    step s = .next t → t.ds = s.ds)

/-- R25, R124: who writes the ring state. The receive ring's slots and `in` and the counter change by `SVC_RX` alone,
`RX.out` by `SVC_RX` and `SRX_RD`, the transmit ring's slots and `in` by `STX_WR` alone, `TX.out` by `SVC_TX` alone, but
for `SRT_INIT`, which sets the indices and the counter to 0 and no slot; and XCSR by `STX_WR` and `SVC_TX` alone. -/
def Obligations.RingAndTieWriters : Prop :=
  ∀ (i : Instr) (s t : State), exec i s = .next t →
    (i ≠ .svcRx → t.rx.buf = s.rx.buf)
    ∧ (i ≠ .svcRx → i ≠ .srtInit → t.rx.inIdx = s.rx.inIdx ∧ t.rxOvf = s.rxOvf)
    ∧ (i ≠ .svcRx → i ≠ .srxRd → i ≠ .srtInit → t.rx.outIdx = s.rx.outIdx)
    ∧ ((∀ b, i ≠ .stxWr b) → t.tx.buf = s.tx.buf)
    ∧ ((∀ b, i ≠ .stxWr b) → i ≠ .srtInit → t.tx.inIdx = s.tx.inIdx)
    ∧ (i ≠ .svcTx → i ≠ .srtInit → t.tx.outIdx = s.tx.outIdx)
    ∧ ((∀ b, i ≠ .stxWr b) → i ≠ .svcTx → t.xcsr = s.xcsr)

/-- R120, R140: the instructions of neither sub-block write the other's state: a storage operation or command word writes
no ring, no counter and no serial register, and a serial operation or service writes neither DeviceStatus nor a storage
register. What an instruction reads is not said here, and `RDHDR` is no instruction. -/
def Obligations.SubBlocksWriteOwnStateOnly : Prop :=
  ∀ (i : Instr) (s t : State), exec i s = .next t →
    ((i = .svcRx ∨ i = .svcTx ∨ i = .srxRd ∨ (∃ b, i = .stxWr b) ∨ i = .srxAvail ∨ i = .srtInit) →
      t.ds = s.ds ∧ t.cs = s.cs ∧ t.ba = s.ba ∧ t.da = s.da ∧ t.mp = s.mp ∧ t.cmd = s.cmd ∧ t.drives = s.drives
        ∧ t.sel = s.sel)
    ∧ (¬(i = .svcRx ∨ i = .svcTx ∨ i = .srxRd ∨ (∃ b, i = .stxWr b) ∨ i = .srxAvail ∨ i = .srtInit) →
      t.rx = s.rx ∧ t.rxOvf = s.rxOvf ∧ t.tx = s.tx ∧ t.rcsr = s.rcsr ∧ t.rbuf = s.rbuf ∧ t.xcsr = s.xcsr
      ∧ t.xbuf = s.xbuf)

/-- R187: the two services may run in either order; both orders complete and leave the same state but for the order of
the accesses on the port, because neither writes what the other reads or writes (R25, R121, R123). -/
def Obligations.ServiceOrderIsFree : Prop :=
  ∀ s : State, s.cfg.standard = true → ∃ a b c d, exec .svcRx s = .next a ∧ exec .svcTx a = .next b ∧ exec .svcTx s = .next c
    ∧ exec .svcRx c = .next d ∧ { b with bus := [] } = { d with bus := [] }
end

