-- ==== Sys2Proof/Laws/Fields.lean ====
section
/-! SUPPORT. Laws of register fields: what a field reads after it, or a field beside it, was written, and what the
checks of a well-formed configuration say of each field. -/

namespace Sys2Proof.Machine

theorem getLsbD_lowOnes (n i : Nat) : (lowOnes n).getLsbD i = (decide (i < 16) && decide (i < n)) := by
  simp [lowOnes, BitVec.getLsbD_ofNat, Nat.testBit_two_pow_sub_one]

theorem getLsbD_fieldMask (f : Field) (i : Nat) :
    (fieldMask f).getLsbD i = (decide (i < 16) && (decide (f.lo ≤ i) && decide (i < f.lo + f.width))) := by
  simp only [fieldMask, BitVec.getLsbD_shiftLeft, getLsbD_lowOnes]
  by_cases h : i < 16
  · by_cases h1 : f.lo ≤ i
    · have e : (i - f.lo < f.width) = (i < f.lo + f.width) := by apply propext; omega
      have e2 : i - f.lo < 16 := by omega
      simp [h, h1, e, e2, Nat.not_lt.mpr h1]
    · simp [h, h1, Nat.lt_of_not_le h1]
  · simp [h]

theorem getLsbD_putField (f : Field) {n : Nat} (v : BitVec n) (i : Nat) :
    (putField f v).getLsbD i =
      (decide (i < 16) && (decide (f.lo ≤ i) && (decide (i < f.lo + f.width) && v.getLsbD (i - f.lo)))) := by
  simp only [putField, BitVec.getLsbD_shiftLeft, BitVec.getLsbD_and, getLsbD_lowOnes, BitVec.getLsbD_setWidth]
  by_cases h : i < 16
  · by_cases h1 : f.lo ≤ i
    · have e : (i - f.lo < f.width) = (i < f.lo + f.width) := by apply propext; omega
      have e2 : i - f.lo < 16 := by omega
      simp [h, h1, e, e2, Nat.not_lt.mpr h1, Bool.and_comm]
    · simp [h, h1, Nat.lt_of_not_le h1]
  · simp [h]

theorem getLsbD_getField (f : Field) (n : Nat) (w : Word) (i : Nat) :
    (getField f n w).getLsbD i = (decide (i < n) && (decide (i < f.width) && w.getLsbD (f.lo + i))) := by
  simp only [getField, BitVec.getLsbD_setWidth, BitVec.getLsbD_and, BitVec.getLsbD_ushiftRight, getLsbD_lowOnes]
  by_cases h : i < 16
  · by_cases h1 : i < n <;> by_cases h2 : i < f.width <;> simp [h, h1, h2]
  · have : w.getLsbD (f.lo + i) = false := BitVec.getLsbD_of_ge _ _ (by omega)
    simp [h, this]

/-- What fits is read back from where it was put. -/
theorem getField_putField_same (f : Field) {n : Nat} (v : BitVec n) (hw : f.width = n) (hf : f.lo + f.width ≤ 16) :
    getField f n (putField f v) = v := by
  apply BitVec.eq_of_getLsbD_eq
  intro i hi
  rw [getLsbD_getField, getLsbD_putField]
  have h1 : i < f.width := by omega
  have h2 : f.lo + i < 16 := by omega
  simp [hi, h1, h2]

/-- A field beside the one that was put reads 0. -/
theorem getField_putField_other (f g : Field) (n : Nat) {m : Nat} (v : BitVec m) (h : f.disjoint g = true) :
    getField f n (putField g v) = 0#n := by
  apply BitVec.eq_of_getLsbD_eq
  intro i hi
  rw [getLsbD_getField, getLsbD_putField]
  simp [Field.disjoint] at h
  by_cases h1 : i < f.width <;> simp [h1]
  intros; omega

theorem getField_or (f : Field) (n : Nat) (a b : Word) : getField f n (a ||| b) = getField f n a ||| getField f n b := by
  apply BitVec.eq_of_getLsbD_eq
  intro i hi
  simp only [getLsbD_getField, BitVec.getLsbD_or]
  by_cases h : i < f.width <;> simp [h, hi]

/-- A field reads what was set. -/
theorem getField_setField_same (f : Field) {n : Nat} (v : BitVec n) (w : Word) (hw : f.width = n)
    (hf : f.lo + f.width ≤ 16) : getField f n (setField f v w) = v := by
  rw [setField, getField_or, getField_putField_same f v hw hf]
  have : getField f n (w &&& ~~~fieldMask f) = 0#n := by
    apply BitVec.eq_of_getLsbD_eq
    intro i hi
    rw [getLsbD_getField]
    simp only [BitVec.getLsbD_and, BitVec.getLsbD_not, getLsbD_fieldMask]
    by_cases h : i < f.width
    · have h2 : f.lo + i < 16 := by omega
      simp [h, h2]
    · simp [h]
  simp [this]

/-- A field beside the one that was set reads as before. -/
theorem getField_setField_other (f g : Field) (n : Nat) {m : Nat} (v : BitVec m) (w : Word)
    (h : f.disjoint g = true) : getField f n (setField g v w) = getField f n w := by
  rw [setField, getField_or, getField_putField_other f g n v h]
  apply BitVec.eq_of_getLsbD_eq
  intro i hi
  simp only [BitVec.or_zero, getLsbD_getField, BitVec.getLsbD_and, BitVec.getLsbD_not, getLsbD_fieldMask]
  simp [Field.disjoint] at h
  by_cases h1 : i < f.width
  · by_cases h2 : f.lo + i < 16
    · have : ¬(g.lo ≤ f.lo + i ∧ f.lo + i < g.lo + g.width) := by omega
      simp only [h2, h1, decide_true, Bool.true_and, hi]
      by_cases h3 : g.lo ≤ f.lo + i <;> by_cases h4 : f.lo + i < g.lo + g.width <;> simp [h3, h4]
      exact absurd ⟨h3, h4⟩ this
    · have : w.getLsbD (f.lo + i) = false := BitVec.getLsbD_of_ge _ _ (by omega)
      simp [this]
  · simp [h1]

/-- Setting a field to what it holds changes nothing. -/
theorem setField_getField (f : Field) (n : Nat) (w : Word) (hw : f.width = n) :
    setField f (getField f n w) w = w := by
  apply BitVec.eq_of_getLsbD_eq
  intro i hi
  simp only [setField, BitVec.getLsbD_or, BitVec.getLsbD_and, BitVec.getLsbD_not, getLsbD_fieldMask,
    getLsbD_putField, getLsbD_getField]
  by_cases h1 : f.lo ≤ i <;> by_cases h2 : i < f.lo + f.width <;> simp [hi, h1, h2]
  have h3 : i - f.lo < n := by omega
  have h4 : i - f.lo < f.width := by omega
  simp [h3, h4]

/-- A flag is the lowest bit of its field. -/
theorem flagField_eq (f : Field) (w : Word) (h1 : 1 ≤ f.width) : flagField f w = w.getLsbD f.lo := by
  have e : (getField f 1 w).getLsbD 0 = w.getLsbD f.lo := by
    rw [getLsbD_getField]
    simp [show 0 < f.width from h1]
  have k : ∀ x : BitVec 1, (x == 1#1) = x.getLsbD 0 := by decide
  rw [flagField, k, e]

theorem flagField_setField_same (f : Field) (b : Bool) (w : Word) (h1 : 1 ≤ f.width) (hf : f.lo + f.width ≤ 16) :
    flagField f (setField f (BitVec.ofBool b) w) = b := by
  have h16 : f.lo < 16 := by omega
  rw [flagField_eq f _ h1]
  simp only [setField, BitVec.getLsbD_or, BitVec.getLsbD_and, BitVec.getLsbD_not, getLsbD_fieldMask, getLsbD_putField]
  cases b <;> simp [h16, show 0 < f.width from h1]

theorem flagField_setField_other (f g : Field) {m : Nat} (v : BitVec m) (w : Word) (h : f.disjoint g = true) :
    flagField f (setField g v w) = flagField f w := by
  rw [flagField, flagField, getField_setField_other f g 1 v w h]

theorem flagField_putField_same (f : Field) (b : Bool) (h1 : 1 ≤ f.width) (hf : f.lo + f.width ≤ 16) :
    flagField f (putField f (BitVec.ofBool b)) = b := by
  have h16 : f.lo < 16 := by omega
  rw [flagField_eq f _ h1, getLsbD_putField]
  cases b <;> simp [h16, show 0 < f.width from h1]

/-- A field that is the whole word holds the word that is put there. -/
theorem putField_full (f : Field) (v : Word) (hw : f.width = 16) (hf : f.lo + f.width ≤ 16) : putField f v = v := by
  apply BitVec.eq_of_getLsbD_eq
  intro i hi
  have h0 : f.lo = 0 := by omega
  rw [getLsbD_putField]
  simp [hi, hw, h0]

/-- A field that is the whole word reads the word. -/
theorem getField_full (f : Field) (w : Word) (hw : f.width = 16) (hf : f.lo + f.width ≤ 16) : getField f 16 w = w := by
  apply BitVec.eq_of_getLsbD_eq
  intro i hi
  have h0 : f.lo = 0 := by omega
  rw [getLsbD_getField]
  simp [hi, hw, h0]

/-! ### What a well-formed configuration says -/

theorem allOk_mem {bs : List Bool} (h : allOk bs = true) {b : Bool} (hb : b ∈ bs) : b = true := by
  induction bs with
  | nil => cases hb
  | cons x xs ih =>
    simp only [allOk, Bool.and_eq_true] at h
    rcases List.mem_cons.mp hb with rfl | hb
    · exact h.1
    · exact ih h.2 hb

theorem fieldsOk_fits {fs : List Field} (h : fieldsOk fs = true) {f : Field} (hf : f ∈ fs) :
    1 ≤ f.width ∧ f.lo + f.width ≤ 16 := by
  induction fs with
  | nil => cases hf
  | cons x xs ih =>
    simp only [fieldsOk, Bool.and_eq_true] at h
    rcases List.mem_cons.mp hf with rfl | hf
    · have := h.1
      simpa [Field.fits] using this
    · exact ih h.2.2 hf

theorem Field.disjoint_comm (f g : Field) : f.disjoint g = g.disjoint f := by
  simp [Field.disjoint, Bool.or_comm]

theorem fieldsOk_disjoint {fs : List Field} (h : fieldsOk fs = true) :
    fs.Pairwise (fun f g => f.disjoint g = true) := by
  induction fs with
  | nil => exact List.Pairwise.nil
  | cons x xs ih =>
    simp only [fieldsOk, Bool.and_eq_true, List.all_eq_true] at h
    exact List.Pairwise.cons h.2.1 (ih h.2.2)

theorem Field.shaped_iff (f : Field) (n : Nat) (a : AccessRight) :
    f.shaped n a = true ↔ f.width = n ∧ f.access = a := by simp [Field.shaped]

/-- The numeric ranges of R8. -/
theorem Cfg.wf_ranges {c : Cfg} (h : c.wf = true) :
    2 ≤ c.rxCap ∧ 2 ≤ c.txCap ∧ c.ovfBits = 16 ∧ c.blockSize % 2 = 0 ∧ 2 ≤ c.blockSize ∧ c.blockSize ≤ 131070 :=
  ⟨of_decide_eq_true (allOk_mem h (by simp)), of_decide_eq_true (allOk_mem h (by simp)),
   of_decide_eq_true (allOk_mem h (by simp)), of_decide_eq_true (allOk_mem h (by simp)),
   of_decide_eq_true (allOk_mem h (by simp)), of_decide_eq_true (allOk_mem h (by simp))⟩

theorem Cfg.wf_layout {c : Cfg} (h : c.wf = true) : c.layout.wf = true := allOk_mem h (by simp)

theorem Cfg.wf_fcode {c : Cfg} (h : c.wf = true) : c.fcode.wf = true := allOk_mem h (by simp)

theorem Cfg.wf_even {c : Cfg} (h : c.wf = true) : c.addr.even = true := allOk_mem h (by simp)

theorem Cfg.wf_distinct {c : Cfg} (h : c.wf = true) : c.addr.distinct = true := allOk_mem h (by simp)

theorem Cfg.standard_wf {c : Cfg} (h : c.standard = true) : c.wf = true := (Bool.and_eq_true_iff.mp h).1

theorem Cfg.standard_layout {c : Cfg} (h : c.standard = true) : c.layout.wf = true := Cfg.wf_layout (Cfg.standard_wf h)

theorem Cfg.standard_shaped {c : Cfg} (h : c.standard = true) : c.layout.shaped = true :=
  (Bool.and_eq_true_iff.mp h).2

/-! One lemma for each word: its fields fit and do not overlap. -/

theorem Layout.wf_cs {l : Layout} (h : l.wf = true) :
    fieldsOk [l.csDRDY, l.csF, l.csBAX, l.csIE, l.csCRDY, l.csDS, l.csE, l.csDE, l.csCE] = true := allOk_mem h (by simp)

theorem Layout.wf_ba {l : Layout} (h : l.wf = true) :
    fieldsOk [l.baADDR] = true := allOk_mem h (by simp)

theorem Layout.wf_da {l : Layout} (h : l.wf = true) :
    fieldsOk [l.daWORD] = true := allOk_mem h (by simp)

theorem Layout.wf_mp {l : Layout} (h : l.wf = true) :
    fieldsOk [l.mpWORD] = true := allOk_mem h (by simp)

theorem Layout.wf_rcsr {l : Layout} (h : l.wf = true) :
    fieldsOk [l.rcsrDONE, l.rcsrRIE] = true := allOk_mem h (by simp)

theorem Layout.wf_rbuf {l : Layout} (h : l.wf = true) :
    fieldsOk [l.rbufDATA] = true := allOk_mem h (by simp)

theorem Layout.wf_xcsr {l : Layout} (h : l.wf = true) :
    fieldsOk [l.xcsrREADY, l.xcsrTIE] = true := allOk_mem h (by simp)

theorem Layout.wf_xbuf {l : Layout} (h : l.wf = true) :
    fieldsOk [l.xbufDATA] = true := allOk_mem h (by simp)

theorem Layout.wf_readWord {l : Layout} (h : l.wf = true) :
    fieldsOk [l.rdCYL, l.rdHEAD, l.rdSEC] = true := allOk_mem h (by simp)

theorem Layout.wf_seekWord {l : Layout} (h : l.wf = true) :
    fieldsOk [l.seekDIFF, l.seekHS, l.seekDIR, l.seekMARK] = true := allOk_mem h (by simp)

theorem Layout.wf_statusWord {l : Layout} (h : l.wf = true) :
    fieldsOk [l.gsMARK, l.gsRST] = true := allOk_mem h (by simp)

theorem Layout.wf_driveStatus {l : Layout} (h : l.wf = true) :
    fieldsOk [l.stSTATE, l.stDT] = true := allOk_mem h (by simp)

theorem Layout.wf_header {l : Layout} (h : l.wf = true) :
    fieldsOk [l.hdCYL, l.hdHEAD, l.hdSEC] = true := allOk_mem h (by simp)

/-! One lemma for each field: under a well-formed layout it is not empty and fits in its word (R37). -/

theorem Layout.fits_csDRDY {l : Layout} (h : l.wf = true) : 1 ≤ l.csDRDY.width ∧ l.csDRDY.lo + l.csDRDY.width ≤ 16 :=
  fieldsOk_fits (Layout.wf_cs h) (by simp)

theorem Layout.fits_csF {l : Layout} (h : l.wf = true) : 1 ≤ l.csF.width ∧ l.csF.lo + l.csF.width ≤ 16 :=
  fieldsOk_fits (Layout.wf_cs h) (by simp)

theorem Layout.fits_csBAX {l : Layout} (h : l.wf = true) : 1 ≤ l.csBAX.width ∧ l.csBAX.lo + l.csBAX.width ≤ 16 :=
  fieldsOk_fits (Layout.wf_cs h) (by simp)

theorem Layout.fits_csIE {l : Layout} (h : l.wf = true) : 1 ≤ l.csIE.width ∧ l.csIE.lo + l.csIE.width ≤ 16 :=
  fieldsOk_fits (Layout.wf_cs h) (by simp)

theorem Layout.fits_csCRDY {l : Layout} (h : l.wf = true) : 1 ≤ l.csCRDY.width ∧ l.csCRDY.lo + l.csCRDY.width ≤ 16 :=
  fieldsOk_fits (Layout.wf_cs h) (by simp)

theorem Layout.fits_csDS {l : Layout} (h : l.wf = true) : 1 ≤ l.csDS.width ∧ l.csDS.lo + l.csDS.width ≤ 16 :=
  fieldsOk_fits (Layout.wf_cs h) (by simp)

theorem Layout.fits_csE {l : Layout} (h : l.wf = true) : 1 ≤ l.csE.width ∧ l.csE.lo + l.csE.width ≤ 16 :=
  fieldsOk_fits (Layout.wf_cs h) (by simp)

theorem Layout.fits_csDE {l : Layout} (h : l.wf = true) : 1 ≤ l.csDE.width ∧ l.csDE.lo + l.csDE.width ≤ 16 :=
  fieldsOk_fits (Layout.wf_cs h) (by simp)

theorem Layout.fits_csCE {l : Layout} (h : l.wf = true) : 1 ≤ l.csCE.width ∧ l.csCE.lo + l.csCE.width ≤ 16 :=
  fieldsOk_fits (Layout.wf_cs h) (by simp)

theorem Layout.fits_baADDR {l : Layout} (h : l.wf = true) : 1 ≤ l.baADDR.width ∧ l.baADDR.lo + l.baADDR.width ≤ 16 :=
  fieldsOk_fits (Layout.wf_ba h) (by simp)

theorem Layout.fits_daWORD {l : Layout} (h : l.wf = true) : 1 ≤ l.daWORD.width ∧ l.daWORD.lo + l.daWORD.width ≤ 16 :=
  fieldsOk_fits (Layout.wf_da h) (by simp)

theorem Layout.fits_mpWORD {l : Layout} (h : l.wf = true) : 1 ≤ l.mpWORD.width ∧ l.mpWORD.lo + l.mpWORD.width ≤ 16 :=
  fieldsOk_fits (Layout.wf_mp h) (by simp)

theorem Layout.fits_rcsrDONE {l : Layout} (h : l.wf = true) : 1 ≤ l.rcsrDONE.width ∧ l.rcsrDONE.lo + l.rcsrDONE.width ≤ 16 :=
  fieldsOk_fits (Layout.wf_rcsr h) (by simp)

theorem Layout.fits_rcsrRIE {l : Layout} (h : l.wf = true) : 1 ≤ l.rcsrRIE.width ∧ l.rcsrRIE.lo + l.rcsrRIE.width ≤ 16 :=
  fieldsOk_fits (Layout.wf_rcsr h) (by simp)

theorem Layout.fits_rbufDATA {l : Layout} (h : l.wf = true) : 1 ≤ l.rbufDATA.width ∧ l.rbufDATA.lo + l.rbufDATA.width ≤ 16 :=
  fieldsOk_fits (Layout.wf_rbuf h) (by simp)

theorem Layout.fits_xcsrREADY {l : Layout} (h : l.wf = true) : 1 ≤ l.xcsrREADY.width ∧ l.xcsrREADY.lo + l.xcsrREADY.width ≤ 16 :=
  fieldsOk_fits (Layout.wf_xcsr h) (by simp)

theorem Layout.fits_xcsrTIE {l : Layout} (h : l.wf = true) : 1 ≤ l.xcsrTIE.width ∧ l.xcsrTIE.lo + l.xcsrTIE.width ≤ 16 :=
  fieldsOk_fits (Layout.wf_xcsr h) (by simp)

theorem Layout.fits_xbufDATA {l : Layout} (h : l.wf = true) : 1 ≤ l.xbufDATA.width ∧ l.xbufDATA.lo + l.xbufDATA.width ≤ 16 :=
  fieldsOk_fits (Layout.wf_xbuf h) (by simp)

theorem Layout.fits_rdCYL {l : Layout} (h : l.wf = true) : 1 ≤ l.rdCYL.width ∧ l.rdCYL.lo + l.rdCYL.width ≤ 16 :=
  fieldsOk_fits (Layout.wf_readWord h) (by simp)

theorem Layout.fits_rdHEAD {l : Layout} (h : l.wf = true) : 1 ≤ l.rdHEAD.width ∧ l.rdHEAD.lo + l.rdHEAD.width ≤ 16 :=
  fieldsOk_fits (Layout.wf_readWord h) (by simp)

theorem Layout.fits_rdSEC {l : Layout} (h : l.wf = true) : 1 ≤ l.rdSEC.width ∧ l.rdSEC.lo + l.rdSEC.width ≤ 16 :=
  fieldsOk_fits (Layout.wf_readWord h) (by simp)

theorem Layout.fits_seekDIFF {l : Layout} (h : l.wf = true) : 1 ≤ l.seekDIFF.width ∧ l.seekDIFF.lo + l.seekDIFF.width ≤ 16 :=
  fieldsOk_fits (Layout.wf_seekWord h) (by simp)

theorem Layout.fits_seekHS {l : Layout} (h : l.wf = true) : 1 ≤ l.seekHS.width ∧ l.seekHS.lo + l.seekHS.width ≤ 16 :=
  fieldsOk_fits (Layout.wf_seekWord h) (by simp)

theorem Layout.fits_seekDIR {l : Layout} (h : l.wf = true) : 1 ≤ l.seekDIR.width ∧ l.seekDIR.lo + l.seekDIR.width ≤ 16 :=
  fieldsOk_fits (Layout.wf_seekWord h) (by simp)

theorem Layout.fits_seekMARK {l : Layout} (h : l.wf = true) : 1 ≤ l.seekMARK.width ∧ l.seekMARK.lo + l.seekMARK.width ≤ 16 :=
  fieldsOk_fits (Layout.wf_seekWord h) (by simp)

theorem Layout.fits_gsMARK {l : Layout} (h : l.wf = true) : 1 ≤ l.gsMARK.width ∧ l.gsMARK.lo + l.gsMARK.width ≤ 16 :=
  fieldsOk_fits (Layout.wf_statusWord h) (by simp)

theorem Layout.fits_gsRST {l : Layout} (h : l.wf = true) : 1 ≤ l.gsRST.width ∧ l.gsRST.lo + l.gsRST.width ≤ 16 :=
  fieldsOk_fits (Layout.wf_statusWord h) (by simp)

theorem Layout.fits_stSTATE {l : Layout} (h : l.wf = true) : 1 ≤ l.stSTATE.width ∧ l.stSTATE.lo + l.stSTATE.width ≤ 16 :=
  fieldsOk_fits (Layout.wf_driveStatus h) (by simp)

theorem Layout.fits_stDT {l : Layout} (h : l.wf = true) : 1 ≤ l.stDT.width ∧ l.stDT.lo + l.stDT.width ≤ 16 :=
  fieldsOk_fits (Layout.wf_driveStatus h) (by simp)

theorem Layout.fits_hdCYL {l : Layout} (h : l.wf = true) : 1 ≤ l.hdCYL.width ∧ l.hdCYL.lo + l.hdCYL.width ≤ 16 :=
  fieldsOk_fits (Layout.wf_header h) (by simp)

theorem Layout.fits_hdHEAD {l : Layout} (h : l.wf = true) : 1 ≤ l.hdHEAD.width ∧ l.hdHEAD.lo + l.hdHEAD.width ≤ 16 :=
  fieldsOk_fits (Layout.wf_header h) (by simp)

theorem Layout.fits_hdSEC {l : Layout} (h : l.wf = true) : 1 ≤ l.hdSEC.width ∧ l.hdSEC.lo + l.hdSEC.width ≤ 16 :=
  fieldsOk_fits (Layout.wf_header h) (by simp)

/-! One lemma for each field: the default width and access right. -/

theorem Layout.shaped_csDRDY {l : Layout} (h : l.shaped = true) : l.csDRDY.width = 1 ∧ l.csDRDY.access = .ro :=
  (Field.shaped_iff l.csDRDY 1 .ro).mp (allOk_mem h (by simp))

theorem Layout.shaped_csF {l : Layout} (h : l.shaped = true) : l.csF.width = 3 ∧ l.csF.access = .rw :=
  (Field.shaped_iff l.csF 3 .rw).mp (allOk_mem h (by simp))

theorem Layout.shaped_csBAX {l : Layout} (h : l.shaped = true) : l.csBAX.width = 2 ∧ l.csBAX.access = .w0 :=
  (Field.shaped_iff l.csBAX 2 .w0).mp (allOk_mem h (by simp))

theorem Layout.shaped_csIE {l : Layout} (h : l.shaped = true) : l.csIE.width = 1 ∧ l.csIE.access = .w0 :=
  (Field.shaped_iff l.csIE 1 .w0).mp (allOk_mem h (by simp))

theorem Layout.shaped_csCRDY {l : Layout} (h : l.shaped = true) : l.csCRDY.width = 1 ∧ l.csCRDY.access = .rw :=
  (Field.shaped_iff l.csCRDY 1 .rw).mp (allOk_mem h (by simp))

theorem Layout.shaped_csDS {l : Layout} (h : l.shaped = true) : l.csDS.width = 2 ∧ l.csDS.access = .rw :=
  (Field.shaped_iff l.csDS 2 .rw).mp (allOk_mem h (by simp))

theorem Layout.shaped_csE {l : Layout} (h : l.shaped = true) : l.csE.width = 4 ∧ l.csE.access = .ro :=
  (Field.shaped_iff l.csE 4 .ro).mp (allOk_mem h (by simp))

theorem Layout.shaped_csDE {l : Layout} (h : l.shaped = true) : l.csDE.width = 1 ∧ l.csDE.access = .ro :=
  (Field.shaped_iff l.csDE 1 .ro).mp (allOk_mem h (by simp))

theorem Layout.shaped_csCE {l : Layout} (h : l.shaped = true) : l.csCE.width = 1 ∧ l.csCE.access = .ro :=
  (Field.shaped_iff l.csCE 1 .ro).mp (allOk_mem h (by simp))

theorem Layout.shaped_baADDR {l : Layout} (h : l.shaped = true) : l.baADDR.width = 16 ∧ l.baADDR.access = .rw :=
  (Field.shaped_iff l.baADDR 16 .rw).mp (allOk_mem h (by simp))

theorem Layout.shaped_daWORD {l : Layout} (h : l.shaped = true) : l.daWORD.width = 16 ∧ l.daWORD.access = .rw :=
  (Field.shaped_iff l.daWORD 16 .rw).mp (allOk_mem h (by simp))

theorem Layout.shaped_mpWORD {l : Layout} (h : l.shaped = true) : l.mpWORD.width = 16 ∧ l.mpWORD.access = .rw :=
  (Field.shaped_iff l.mpWORD 16 .rw).mp (allOk_mem h (by simp))

theorem Layout.shaped_rcsrDONE {l : Layout} (h : l.shaped = true) : l.rcsrDONE.width = 1 ∧ l.rcsrDONE.access = .ro :=
  (Field.shaped_iff l.rcsrDONE 1 .ro).mp (allOk_mem h (by simp))

theorem Layout.shaped_rcsrRIE {l : Layout} (h : l.shaped = true) : l.rcsrRIE.width = 1 ∧ l.rcsrRIE.access = .rw :=
  (Field.shaped_iff l.rcsrRIE 1 .rw).mp (allOk_mem h (by simp))

theorem Layout.shaped_rbufDATA {l : Layout} (h : l.shaped = true) : l.rbufDATA.width = 8 ∧ l.rbufDATA.access = .ro :=
  (Field.shaped_iff l.rbufDATA 8 .ro).mp (allOk_mem h (by simp))

theorem Layout.shaped_xcsrREADY {l : Layout} (h : l.shaped = true) : l.xcsrREADY.width = 1 ∧ l.xcsrREADY.access = .ro :=
  (Field.shaped_iff l.xcsrREADY 1 .ro).mp (allOk_mem h (by simp))

theorem Layout.shaped_xcsrTIE {l : Layout} (h : l.shaped = true) : l.xcsrTIE.width = 1 ∧ l.xcsrTIE.access = .rw :=
  (Field.shaped_iff l.xcsrTIE 1 .rw).mp (allOk_mem h (by simp))

theorem Layout.shaped_xbufDATA {l : Layout} (h : l.shaped = true) : l.xbufDATA.width = 8 ∧ l.xbufDATA.access = .wo :=
  (Field.shaped_iff l.xbufDATA 8 .wo).mp (allOk_mem h (by simp))

theorem Layout.shaped_rdCYL {l : Layout} (h : l.shaped = true) : l.rdCYL.width = 9 ∧ l.rdCYL.access = .rw :=
  (Field.shaped_iff l.rdCYL 9 .rw).mp (allOk_mem h (by simp))

theorem Layout.shaped_rdHEAD {l : Layout} (h : l.shaped = true) : l.rdHEAD.width = 1 ∧ l.rdHEAD.access = .rw :=
  (Field.shaped_iff l.rdHEAD 1 .rw).mp (allOk_mem h (by simp))

theorem Layout.shaped_rdSEC {l : Layout} (h : l.shaped = true) : l.rdSEC.width = 6 ∧ l.rdSEC.access = .rw :=
  (Field.shaped_iff l.rdSEC 6 .rw).mp (allOk_mem h (by simp))

theorem Layout.shaped_seekDIFF {l : Layout} (h : l.shaped = true) : l.seekDIFF.width = 9 ∧ l.seekDIFF.access = .rw :=
  (Field.shaped_iff l.seekDIFF 9 .rw).mp (allOk_mem h (by simp))

theorem Layout.shaped_seekHS {l : Layout} (h : l.shaped = true) : l.seekHS.width = 1 ∧ l.seekHS.access = .rw :=
  (Field.shaped_iff l.seekHS 1 .rw).mp (allOk_mem h (by simp))

theorem Layout.shaped_seekDIR {l : Layout} (h : l.shaped = true) : l.seekDIR.width = 1 ∧ l.seekDIR.access = .rw :=
  (Field.shaped_iff l.seekDIR 1 .rw).mp (allOk_mem h (by simp))

theorem Layout.shaped_seekMARK {l : Layout} (h : l.shaped = true) : l.seekMARK.width = 1 ∧ l.seekMARK.access = .rw :=
  (Field.shaped_iff l.seekMARK 1 .rw).mp (allOk_mem h (by simp))

theorem Layout.shaped_gsMARK {l : Layout} (h : l.shaped = true) : l.gsMARK.width = 2 ∧ l.gsMARK.access = .rw :=
  (Field.shaped_iff l.gsMARK 2 .rw).mp (allOk_mem h (by simp))

theorem Layout.shaped_gsRST {l : Layout} (h : l.shaped = true) : l.gsRST.width = 1 ∧ l.gsRST.access = .rw :=
  (Field.shaped_iff l.gsRST 1 .rw).mp (allOk_mem h (by simp))

theorem Layout.shaped_stSTATE {l : Layout} (h : l.shaped = true) : l.stSTATE.width = 3 ∧ l.stSTATE.access = .rw :=
  (Field.shaped_iff l.stSTATE 3 .rw).mp (allOk_mem h (by simp))

theorem Layout.shaped_stDT {l : Layout} (h : l.shaped = true) : l.stDT.width = 1 ∧ l.stDT.access = .rw :=
  (Field.shaped_iff l.stDT 1 .rw).mp (allOk_mem h (by simp))

theorem Layout.shaped_hdCYL {l : Layout} (h : l.shaped = true) : l.hdCYL.width = 9 ∧ l.hdCYL.access = .rw :=
  (Field.shaped_iff l.hdCYL 9 .rw).mp (allOk_mem h (by simp))

theorem Layout.shaped_hdHEAD {l : Layout} (h : l.shaped = true) : l.hdHEAD.width = 1 ∧ l.hdHEAD.access = .rw :=
  (Field.shaped_iff l.hdHEAD 1 .rw).mp (allOk_mem h (by simp))

theorem Layout.shaped_hdSEC {l : Layout} (h : l.shaped = true) : l.hdSEC.width = 6 ∧ l.hdSEC.access = .rw :=
  (Field.shaped_iff l.hdSEC 6 .rw).mp (allOk_mem h (by simp))

end Sys2Proof.Machine
end

