-- ==== Sys2Proof/Laws/State.lean ====
section
/-! SUPPORT. One lemma for each field that each named update of the state leaves as it was, so that no later proof
unfolds a record update. -/

namespace Sys2Proof.Machine

/-! ### `onTop` changes only: seq -/
@[simp] theorem onTop_cfg (g : Frame → Frame) (s : State) : (onTop g s).cfg = s.cfg := by unfold onTop; split <;> rfl
@[simp] theorem onTop_rx (g : Frame → Frame) (s : State) : (onTop g s).rx = s.rx := by unfold onTop; split <;> rfl
@[simp] theorem onTop_rxOvf (g : Frame → Frame) (s : State) : (onTop g s).rxOvf = s.rxOvf := by unfold onTop; split <;> rfl
@[simp] theorem onTop_tx (g : Frame → Frame) (s : State) : (onTop g s).tx = s.tx := by unfold onTop; split <;> rfl
@[simp] theorem onTop_ds (g : Frame → Frame) (s : State) : (onTop g s).ds = s.ds := by unfold onTop; split <;> rfl
@[simp] theorem onTop_cs (g : Frame → Frame) (s : State) : (onTop g s).cs = s.cs := by unfold onTop; split <;> rfl
@[simp] theorem onTop_ba (g : Frame → Frame) (s : State) : (onTop g s).ba = s.ba := by unfold onTop; split <;> rfl
@[simp] theorem onTop_da (g : Frame → Frame) (s : State) : (onTop g s).da = s.da := by unfold onTop; split <;> rfl
@[simp] theorem onTop_mp (g : Frame → Frame) (s : State) : (onTop g s).mp = s.mp := by unfold onTop; split <;> rfl
@[simp] theorem onTop_rcsr (g : Frame → Frame) (s : State) : (onTop g s).rcsr = s.rcsr := by unfold onTop; split <;> rfl
@[simp] theorem onTop_rbuf (g : Frame → Frame) (s : State) : (onTop g s).rbuf = s.rbuf := by unfold onTop; split <;> rfl
@[simp] theorem onTop_xcsr (g : Frame → Frame) (s : State) : (onTop g s).xcsr = s.xcsr := by unfold onTop; split <;> rfl
@[simp] theorem onTop_xbuf (g : Frame → Frame) (s : State) : (onTop g s).xbuf = s.xbuf := by unfold onTop; split <;> rfl
@[simp] theorem onTop_drives (g : Frame → Frame) (s : State) : (onTop g s).drives = s.drives := by unfold onTop; split <;> rfl
@[simp] theorem onTop_sel (g : Frame → Frame) (s : State) : (onTop g s).sel = s.sel := by unfold onTop; split <;> rfl
@[simp] theorem onTop_cmd (g : Frame → Frame) (s : State) : (onTop g s).cmd = s.cmd := by unfold onTop; split <;> rfl
@[simp] theorem onTop_mem (g : Frame → Frame) (s : State) : (onTop g s).mem = s.mem := by unfold onTop; split <;> rfl
@[simp] theorem onTop_resp (g : Frame → Frame) (s : State) : (onTop g s).resp = s.resp := by unfold onTop; split <;> rfl
@[simp] theorem onTop_hostXcsr (g : Frame → Frame) (s : State) : (onTop g s).hostXcsr = s.hostXcsr := by unfold onTop; split <;> rfl
@[simp] theorem onTop_boot (g : Frame → Frame) (s : State) : (onTop g s).boot = s.boot := by unfold onTop; split <;> rfl
@[simp] theorem onTop_bus (g : Frame → Frame) (s : State) : (onTop g s).bus = s.bus := by unfold onTop; split <;> rfl
@[simp] theorem onTop_env (g : Frame → Frame) (s : State) : (onTop g s).env = s.env := by unfold onTop; split <;> rfl
@[simp] theorem onTop_free (g : Frame → Frame) (s : State) : (onTop g s).free = s.free := by unfold onTop; split <;> rfl

/-! ### `advance` changes only: seq -/
@[simp] theorem advance_cfg (s : State) : (advance s).cfg = s.cfg := onTop_cfg _ s
@[simp] theorem advance_rx (s : State) : (advance s).rx = s.rx := onTop_rx _ s
@[simp] theorem advance_rxOvf (s : State) : (advance s).rxOvf = s.rxOvf := onTop_rxOvf _ s
@[simp] theorem advance_tx (s : State) : (advance s).tx = s.tx := onTop_tx _ s
@[simp] theorem advance_ds (s : State) : (advance s).ds = s.ds := onTop_ds _ s
@[simp] theorem advance_cs (s : State) : (advance s).cs = s.cs := onTop_cs _ s
@[simp] theorem advance_ba (s : State) : (advance s).ba = s.ba := onTop_ba _ s
@[simp] theorem advance_da (s : State) : (advance s).da = s.da := onTop_da _ s
@[simp] theorem advance_mp (s : State) : (advance s).mp = s.mp := onTop_mp _ s
@[simp] theorem advance_rcsr (s : State) : (advance s).rcsr = s.rcsr := onTop_rcsr _ s
@[simp] theorem advance_rbuf (s : State) : (advance s).rbuf = s.rbuf := onTop_rbuf _ s
@[simp] theorem advance_xcsr (s : State) : (advance s).xcsr = s.xcsr := onTop_xcsr _ s
@[simp] theorem advance_xbuf (s : State) : (advance s).xbuf = s.xbuf := onTop_xbuf _ s
@[simp] theorem advance_drives (s : State) : (advance s).drives = s.drives := onTop_drives _ s
@[simp] theorem advance_sel (s : State) : (advance s).sel = s.sel := onTop_sel _ s
@[simp] theorem advance_cmd (s : State) : (advance s).cmd = s.cmd := onTop_cmd _ s
@[simp] theorem advance_mem (s : State) : (advance s).mem = s.mem := onTop_mem _ s
@[simp] theorem advance_resp (s : State) : (advance s).resp = s.resp := onTop_resp _ s
@[simp] theorem advance_hostXcsr (s : State) : (advance s).hostXcsr = s.hostXcsr := onTop_hostXcsr _ s
@[simp] theorem advance_boot (s : State) : (advance s).boot = s.boot := onTop_boot _ s
@[simp] theorem advance_bus (s : State) : (advance s).bus = s.bus := onTop_bus _ s
@[simp] theorem advance_env (s : State) : (advance s).env = s.env := onTop_env _ s
@[simp] theorem advance_free (s : State) : (advance s).free = s.free := onTop_free _ s

/-! ### `jump` changes only: seq -/
@[simp] theorem jump_cfg (n : Nat) (s : State) : (jump n s).cfg = s.cfg := onTop_cfg _ s
@[simp] theorem jump_rx (n : Nat) (s : State) : (jump n s).rx = s.rx := onTop_rx _ s
@[simp] theorem jump_rxOvf (n : Nat) (s : State) : (jump n s).rxOvf = s.rxOvf := onTop_rxOvf _ s
@[simp] theorem jump_tx (n : Nat) (s : State) : (jump n s).tx = s.tx := onTop_tx _ s
@[simp] theorem jump_ds (n : Nat) (s : State) : (jump n s).ds = s.ds := onTop_ds _ s
@[simp] theorem jump_cs (n : Nat) (s : State) : (jump n s).cs = s.cs := onTop_cs _ s
@[simp] theorem jump_ba (n : Nat) (s : State) : (jump n s).ba = s.ba := onTop_ba _ s
@[simp] theorem jump_da (n : Nat) (s : State) : (jump n s).da = s.da := onTop_da _ s
@[simp] theorem jump_mp (n : Nat) (s : State) : (jump n s).mp = s.mp := onTop_mp _ s
@[simp] theorem jump_rcsr (n : Nat) (s : State) : (jump n s).rcsr = s.rcsr := onTop_rcsr _ s
@[simp] theorem jump_rbuf (n : Nat) (s : State) : (jump n s).rbuf = s.rbuf := onTop_rbuf _ s
@[simp] theorem jump_xcsr (n : Nat) (s : State) : (jump n s).xcsr = s.xcsr := onTop_xcsr _ s
@[simp] theorem jump_xbuf (n : Nat) (s : State) : (jump n s).xbuf = s.xbuf := onTop_xbuf _ s
@[simp] theorem jump_drives (n : Nat) (s : State) : (jump n s).drives = s.drives := onTop_drives _ s
@[simp] theorem jump_sel (n : Nat) (s : State) : (jump n s).sel = s.sel := onTop_sel _ s
@[simp] theorem jump_cmd (n : Nat) (s : State) : (jump n s).cmd = s.cmd := onTop_cmd _ s
@[simp] theorem jump_mem (n : Nat) (s : State) : (jump n s).mem = s.mem := onTop_mem _ s
@[simp] theorem jump_resp (n : Nat) (s : State) : (jump n s).resp = s.resp := onTop_resp _ s
@[simp] theorem jump_hostXcsr (n : Nat) (s : State) : (jump n s).hostXcsr = s.hostXcsr := onTop_hostXcsr _ s
@[simp] theorem jump_boot (n : Nat) (s : State) : (jump n s).boot = s.boot := onTop_boot _ s
@[simp] theorem jump_bus (n : Nat) (s : State) : (jump n s).bus = s.bus := onTop_bus _ s
@[simp] theorem jump_env (n : Nat) (s : State) : (jump n s).env = s.env := onTop_env _ s
@[simp] theorem jump_free (n : Nat) (s : State) : (jump n s).free = s.free := onTop_free _ s

/-! ### `call` changes only: seq -/
@[simp] theorem call_cfg (op : Op) (s : State) : (call op s).cfg = s.cfg := by unfold call; split <;> rfl
@[simp] theorem call_rx (op : Op) (s : State) : (call op s).rx = s.rx := by unfold call; split <;> rfl
@[simp] theorem call_rxOvf (op : Op) (s : State) : (call op s).rxOvf = s.rxOvf := by unfold call; split <;> rfl
@[simp] theorem call_tx (op : Op) (s : State) : (call op s).tx = s.tx := by unfold call; split <;> rfl
@[simp] theorem call_ds (op : Op) (s : State) : (call op s).ds = s.ds := by unfold call; split <;> rfl
@[simp] theorem call_cs (op : Op) (s : State) : (call op s).cs = s.cs := by unfold call; split <;> rfl
@[simp] theorem call_ba (op : Op) (s : State) : (call op s).ba = s.ba := by unfold call; split <;> rfl
@[simp] theorem call_da (op : Op) (s : State) : (call op s).da = s.da := by unfold call; split <;> rfl
@[simp] theorem call_mp (op : Op) (s : State) : (call op s).mp = s.mp := by unfold call; split <;> rfl
@[simp] theorem call_rcsr (op : Op) (s : State) : (call op s).rcsr = s.rcsr := by unfold call; split <;> rfl
@[simp] theorem call_rbuf (op : Op) (s : State) : (call op s).rbuf = s.rbuf := by unfold call; split <;> rfl
@[simp] theorem call_xcsr (op : Op) (s : State) : (call op s).xcsr = s.xcsr := by unfold call; split <;> rfl
@[simp] theorem call_xbuf (op : Op) (s : State) : (call op s).xbuf = s.xbuf := by unfold call; split <;> rfl
@[simp] theorem call_drives (op : Op) (s : State) : (call op s).drives = s.drives := by unfold call; split <;> rfl
@[simp] theorem call_sel (op : Op) (s : State) : (call op s).sel = s.sel := by unfold call; split <;> rfl
@[simp] theorem call_cmd (op : Op) (s : State) : (call op s).cmd = s.cmd := by unfold call; split <;> rfl
@[simp] theorem call_mem (op : Op) (s : State) : (call op s).mem = s.mem := by unfold call; split <;> rfl
@[simp] theorem call_resp (op : Op) (s : State) : (call op s).resp = s.resp := by unfold call; split <;> rfl
@[simp] theorem call_hostXcsr (op : Op) (s : State) : (call op s).hostXcsr = s.hostXcsr := by unfold call; split <;> rfl
@[simp] theorem call_boot (op : Op) (s : State) : (call op s).boot = s.boot := by unfold call; split <;> rfl
@[simp] theorem call_bus (op : Op) (s : State) : (call op s).bus = s.bus := by unfold call; split <;> rfl
@[simp] theorem call_env (op : Op) (s : State) : (call op s).env = s.env := by unfold call; split <;> rfl
@[simp] theorem call_free (op : Op) (s : State) : (call op s).free = s.free := by unfold call; split <;> rfl

/-! ### `respond` changes only: seq, resp -/
@[simp] theorem respond_cfg (v : Response) (s : State) : (respond v s).cfg = s.cfg := by unfold respond; split <;> rfl
@[simp] theorem respond_rx (v : Response) (s : State) : (respond v s).rx = s.rx := by unfold respond; split <;> rfl
@[simp] theorem respond_rxOvf (v : Response) (s : State) : (respond v s).rxOvf = s.rxOvf := by unfold respond; split <;> rfl
@[simp] theorem respond_tx (v : Response) (s : State) : (respond v s).tx = s.tx := by unfold respond; split <;> rfl
@[simp] theorem respond_ds (v : Response) (s : State) : (respond v s).ds = s.ds := by unfold respond; split <;> rfl
@[simp] theorem respond_cs (v : Response) (s : State) : (respond v s).cs = s.cs := by unfold respond; split <;> rfl
@[simp] theorem respond_ba (v : Response) (s : State) : (respond v s).ba = s.ba := by unfold respond; split <;> rfl
@[simp] theorem respond_da (v : Response) (s : State) : (respond v s).da = s.da := by unfold respond; split <;> rfl
@[simp] theorem respond_mp (v : Response) (s : State) : (respond v s).mp = s.mp := by unfold respond; split <;> rfl
@[simp] theorem respond_rcsr (v : Response) (s : State) : (respond v s).rcsr = s.rcsr := by unfold respond; split <;> rfl
@[simp] theorem respond_rbuf (v : Response) (s : State) : (respond v s).rbuf = s.rbuf := by unfold respond; split <;> rfl
@[simp] theorem respond_xcsr (v : Response) (s : State) : (respond v s).xcsr = s.xcsr := by unfold respond; split <;> rfl
@[simp] theorem respond_xbuf (v : Response) (s : State) : (respond v s).xbuf = s.xbuf := by unfold respond; split <;> rfl
@[simp] theorem respond_drives (v : Response) (s : State) : (respond v s).drives = s.drives := by unfold respond; split <;> rfl
@[simp] theorem respond_sel (v : Response) (s : State) : (respond v s).sel = s.sel := by unfold respond; split <;> rfl
@[simp] theorem respond_cmd (v : Response) (s : State) : (respond v s).cmd = s.cmd := by unfold respond; split <;> rfl
@[simp] theorem respond_mem (v : Response) (s : State) : (respond v s).mem = s.mem := by unfold respond; split <;> rfl
@[simp] theorem respond_hostXcsr (v : Response) (s : State) : (respond v s).hostXcsr = s.hostXcsr := by unfold respond; split <;> rfl
@[simp] theorem respond_boot (v : Response) (s : State) : (respond v s).boot = s.boot := by unfold respond; split <;> rfl
@[simp] theorem respond_bus (v : Response) (s : State) : (respond v s).bus = s.bus := by unfold respond; split <;> rfl
@[simp] theorem respond_env (v : Response) (s : State) : (respond v s).env = s.env := by unfold respond; split <;> rfl
@[simp] theorem respond_free (v : Response) (s : State) : (respond v s).free = s.free := by unfold respond; split <;> rfl

/-! ### `refuse` changes only: resp -/
@[simp] theorem refuse_cfg (s : State) : (refuse s).cfg = s.cfg := rfl
@[simp] theorem refuse_rx (s : State) : (refuse s).rx = s.rx := rfl
@[simp] theorem refuse_rxOvf (s : State) : (refuse s).rxOvf = s.rxOvf := rfl
@[simp] theorem refuse_tx (s : State) : (refuse s).tx = s.tx := rfl
@[simp] theorem refuse_ds (s : State) : (refuse s).ds = s.ds := rfl
@[simp] theorem refuse_seq (s : State) : (refuse s).seq = s.seq := rfl
@[simp] theorem refuse_cs (s : State) : (refuse s).cs = s.cs := rfl
@[simp] theorem refuse_ba (s : State) : (refuse s).ba = s.ba := rfl
@[simp] theorem refuse_da (s : State) : (refuse s).da = s.da := rfl
@[simp] theorem refuse_mp (s : State) : (refuse s).mp = s.mp := rfl
@[simp] theorem refuse_rcsr (s : State) : (refuse s).rcsr = s.rcsr := rfl
@[simp] theorem refuse_rbuf (s : State) : (refuse s).rbuf = s.rbuf := rfl
@[simp] theorem refuse_xcsr (s : State) : (refuse s).xcsr = s.xcsr := rfl
@[simp] theorem refuse_xbuf (s : State) : (refuse s).xbuf = s.xbuf := rfl
@[simp] theorem refuse_drives (s : State) : (refuse s).drives = s.drives := rfl
@[simp] theorem refuse_sel (s : State) : (refuse s).sel = s.sel := rfl
@[simp] theorem refuse_cmd (s : State) : (refuse s).cmd = s.cmd := rfl
@[simp] theorem refuse_mem (s : State) : (refuse s).mem = s.mem := rfl
@[simp] theorem refuse_hostXcsr (s : State) : (refuse s).hostXcsr = s.hostXcsr := rfl
@[simp] theorem refuse_boot (s : State) : (refuse s).boot = s.boot := rfl
@[simp] theorem refuse_bus (s : State) : (refuse s).bus = s.bus := rfl
@[simp] theorem refuse_env (s : State) : (refuse s).env = s.env := rfl
@[simp] theorem refuse_free (s : State) : (refuse s).free = s.free := rfl

/-! ### `accept` changes only: seq, resp -/
@[simp] theorem accept_cfg (i : Instr) (s : State) : (accept i s).cfg = s.cfg := by unfold accept; split <;> rfl
@[simp] theorem accept_rx (i : Instr) (s : State) : (accept i s).rx = s.rx := by unfold accept; split <;> rfl
@[simp] theorem accept_rxOvf (i : Instr) (s : State) : (accept i s).rxOvf = s.rxOvf := by unfold accept; split <;> rfl
@[simp] theorem accept_tx (i : Instr) (s : State) : (accept i s).tx = s.tx := by unfold accept; split <;> rfl
@[simp] theorem accept_ds (i : Instr) (s : State) : (accept i s).ds = s.ds := by unfold accept; split <;> rfl
@[simp] theorem accept_cs (i : Instr) (s : State) : (accept i s).cs = s.cs := by unfold accept; split <;> rfl
@[simp] theorem accept_ba (i : Instr) (s : State) : (accept i s).ba = s.ba := by unfold accept; split <;> rfl
@[simp] theorem accept_da (i : Instr) (s : State) : (accept i s).da = s.da := by unfold accept; split <;> rfl
@[simp] theorem accept_mp (i : Instr) (s : State) : (accept i s).mp = s.mp := by unfold accept; split <;> rfl
@[simp] theorem accept_rcsr (i : Instr) (s : State) : (accept i s).rcsr = s.rcsr := by unfold accept; split <;> rfl
@[simp] theorem accept_rbuf (i : Instr) (s : State) : (accept i s).rbuf = s.rbuf := by unfold accept; split <;> rfl
@[simp] theorem accept_xcsr (i : Instr) (s : State) : (accept i s).xcsr = s.xcsr := by unfold accept; split <;> rfl
@[simp] theorem accept_xbuf (i : Instr) (s : State) : (accept i s).xbuf = s.xbuf := by unfold accept; split <;> rfl
@[simp] theorem accept_drives (i : Instr) (s : State) : (accept i s).drives = s.drives := by unfold accept; split <;> rfl
@[simp] theorem accept_sel (i : Instr) (s : State) : (accept i s).sel = s.sel := by unfold accept; split <;> rfl
@[simp] theorem accept_cmd (i : Instr) (s : State) : (accept i s).cmd = s.cmd := by unfold accept; split <;> rfl
@[simp] theorem accept_mem (i : Instr) (s : State) : (accept i s).mem = s.mem := by unfold accept; split <;> rfl
@[simp] theorem accept_hostXcsr (i : Instr) (s : State) : (accept i s).hostXcsr = s.hostXcsr := by unfold accept; split <;> rfl
@[simp] theorem accept_boot (i : Instr) (s : State) : (accept i s).boot = s.boot := by unfold accept; split <;> rfl
@[simp] theorem accept_bus (i : Instr) (s : State) : (accept i s).bus = s.bus := by unfold accept; split <;> rfl
@[simp] theorem accept_env (i : Instr) (s : State) : (accept i s).env = s.env := by unfold accept; split <;> rfl
@[simp] theorem accept_free (i : Instr) (s : State) : (accept i s).free = s.free := by unfold accept; split <;> rfl

/-! ### `openTurn` changes only: bus, env -/
@[simp] theorem openTurn_cfg (s : State) : (openTurn s).cfg = s.cfg := rfl
@[simp] theorem openTurn_rx (s : State) : (openTurn s).rx = s.rx := rfl
@[simp] theorem openTurn_rxOvf (s : State) : (openTurn s).rxOvf = s.rxOvf := rfl
@[simp] theorem openTurn_tx (s : State) : (openTurn s).tx = s.tx := rfl
@[simp] theorem openTurn_ds (s : State) : (openTurn s).ds = s.ds := rfl
@[simp] theorem openTurn_seq (s : State) : (openTurn s).seq = s.seq := rfl
@[simp] theorem openTurn_cs (s : State) : (openTurn s).cs = s.cs := rfl
@[simp] theorem openTurn_ba (s : State) : (openTurn s).ba = s.ba := rfl
@[simp] theorem openTurn_da (s : State) : (openTurn s).da = s.da := rfl
@[simp] theorem openTurn_mp (s : State) : (openTurn s).mp = s.mp := rfl
@[simp] theorem openTurn_rcsr (s : State) : (openTurn s).rcsr = s.rcsr := rfl
@[simp] theorem openTurn_rbuf (s : State) : (openTurn s).rbuf = s.rbuf := rfl
@[simp] theorem openTurn_xcsr (s : State) : (openTurn s).xcsr = s.xcsr := rfl
@[simp] theorem openTurn_xbuf (s : State) : (openTurn s).xbuf = s.xbuf := rfl
@[simp] theorem openTurn_drives (s : State) : (openTurn s).drives = s.drives := rfl
@[simp] theorem openTurn_sel (s : State) : (openTurn s).sel = s.sel := rfl
@[simp] theorem openTurn_cmd (s : State) : (openTurn s).cmd = s.cmd := rfl
@[simp] theorem openTurn_mem (s : State) : (openTurn s).mem = s.mem := rfl
@[simp] theorem openTurn_resp (s : State) : (openTurn s).resp = s.resp := rfl
@[simp] theorem openTurn_hostXcsr (s : State) : (openTurn s).hostXcsr = s.hostXcsr := rfl
@[simp] theorem openTurn_boot (s : State) : (openTurn s).boot = s.boot := rfl
@[simp] theorem openTurn_free (s : State) : (openTurn s).free = s.free := rfl

/-! ### `receiveByte` changes only: rx, rxOvf -/
@[simp] theorem receiveByte_cfg (b : Byte) (s : State) : (receiveByte b s).cfg = s.cfg := by unfold receiveByte; dsimp only; split <;> rfl
@[simp] theorem receiveByte_tx (b : Byte) (s : State) : (receiveByte b s).tx = s.tx := by unfold receiveByte; dsimp only; split <;> rfl
@[simp] theorem receiveByte_ds (b : Byte) (s : State) : (receiveByte b s).ds = s.ds := by unfold receiveByte; dsimp only; split <;> rfl
@[simp] theorem receiveByte_seq (b : Byte) (s : State) : (receiveByte b s).seq = s.seq := by unfold receiveByte; dsimp only; split <;> rfl
@[simp] theorem receiveByte_cs (b : Byte) (s : State) : (receiveByte b s).cs = s.cs := by unfold receiveByte; dsimp only; split <;> rfl
@[simp] theorem receiveByte_ba (b : Byte) (s : State) : (receiveByte b s).ba = s.ba := by unfold receiveByte; dsimp only; split <;> rfl
@[simp] theorem receiveByte_da (b : Byte) (s : State) : (receiveByte b s).da = s.da := by unfold receiveByte; dsimp only; split <;> rfl
@[simp] theorem receiveByte_mp (b : Byte) (s : State) : (receiveByte b s).mp = s.mp := by unfold receiveByte; dsimp only; split <;> rfl
@[simp] theorem receiveByte_rcsr (b : Byte) (s : State) : (receiveByte b s).rcsr = s.rcsr := by unfold receiveByte; dsimp only; split <;> rfl
@[simp] theorem receiveByte_rbuf (b : Byte) (s : State) : (receiveByte b s).rbuf = s.rbuf := by unfold receiveByte; dsimp only; split <;> rfl
@[simp] theorem receiveByte_xcsr (b : Byte) (s : State) : (receiveByte b s).xcsr = s.xcsr := by unfold receiveByte; dsimp only; split <;> rfl
@[simp] theorem receiveByte_xbuf (b : Byte) (s : State) : (receiveByte b s).xbuf = s.xbuf := by unfold receiveByte; dsimp only; split <;> rfl
@[simp] theorem receiveByte_drives (b : Byte) (s : State) : (receiveByte b s).drives = s.drives := by unfold receiveByte; dsimp only; split <;> rfl
@[simp] theorem receiveByte_sel (b : Byte) (s : State) : (receiveByte b s).sel = s.sel := by unfold receiveByte; dsimp only; split <;> rfl
@[simp] theorem receiveByte_cmd (b : Byte) (s : State) : (receiveByte b s).cmd = s.cmd := by unfold receiveByte; dsimp only; split <;> rfl
@[simp] theorem receiveByte_mem (b : Byte) (s : State) : (receiveByte b s).mem = s.mem := by unfold receiveByte; dsimp only; split <;> rfl
@[simp] theorem receiveByte_resp (b : Byte) (s : State) : (receiveByte b s).resp = s.resp := by unfold receiveByte; dsimp only; split <;> rfl
@[simp] theorem receiveByte_hostXcsr (b : Byte) (s : State) : (receiveByte b s).hostXcsr = s.hostXcsr := by unfold receiveByte; dsimp only; split <;> rfl
@[simp] theorem receiveByte_boot (b : Byte) (s : State) : (receiveByte b s).boot = s.boot := by unfold receiveByte; dsimp only; split <;> rfl
@[simp] theorem receiveByte_bus (b : Byte) (s : State) : (receiveByte b s).bus = s.bus := by unfold receiveByte; dsimp only; split <;> rfl
@[simp] theorem receiveByte_env (b : Byte) (s : State) : (receiveByte b s).env = s.env := by unfold receiveByte; dsimp only; split <;> rfl
@[simp] theorem receiveByte_free (b : Byte) (s : State) : (receiveByte b s).free = s.free := by unfold receiveByte; dsimp only; split <;> rfl

/-! ### `writeRcsr` changes only: rcsr, boot -/
@[simp] theorem writeRcsr_cfg (t : Bool) (s : State) : (writeRcsr t s).cfg = s.cfg := rfl
@[simp] theorem writeRcsr_rx (t : Bool) (s : State) : (writeRcsr t s).rx = s.rx := rfl
@[simp] theorem writeRcsr_rxOvf (t : Bool) (s : State) : (writeRcsr t s).rxOvf = s.rxOvf := rfl
@[simp] theorem writeRcsr_tx (t : Bool) (s : State) : (writeRcsr t s).tx = s.tx := rfl
@[simp] theorem writeRcsr_ds (t : Bool) (s : State) : (writeRcsr t s).ds = s.ds := rfl
@[simp] theorem writeRcsr_seq (t : Bool) (s : State) : (writeRcsr t s).seq = s.seq := rfl
@[simp] theorem writeRcsr_cs (t : Bool) (s : State) : (writeRcsr t s).cs = s.cs := rfl
@[simp] theorem writeRcsr_ba (t : Bool) (s : State) : (writeRcsr t s).ba = s.ba := rfl
@[simp] theorem writeRcsr_da (t : Bool) (s : State) : (writeRcsr t s).da = s.da := rfl
@[simp] theorem writeRcsr_mp (t : Bool) (s : State) : (writeRcsr t s).mp = s.mp := rfl
@[simp] theorem writeRcsr_rbuf (t : Bool) (s : State) : (writeRcsr t s).rbuf = s.rbuf := rfl
@[simp] theorem writeRcsr_xcsr (t : Bool) (s : State) : (writeRcsr t s).xcsr = s.xcsr := rfl
@[simp] theorem writeRcsr_xbuf (t : Bool) (s : State) : (writeRcsr t s).xbuf = s.xbuf := rfl
@[simp] theorem writeRcsr_drives (t : Bool) (s : State) : (writeRcsr t s).drives = s.drives := rfl
@[simp] theorem writeRcsr_sel (t : Bool) (s : State) : (writeRcsr t s).sel = s.sel := rfl
@[simp] theorem writeRcsr_cmd (t : Bool) (s : State) : (writeRcsr t s).cmd = s.cmd := rfl
@[simp] theorem writeRcsr_mem (t : Bool) (s : State) : (writeRcsr t s).mem = s.mem := rfl
@[simp] theorem writeRcsr_resp (t : Bool) (s : State) : (writeRcsr t s).resp = s.resp := rfl
@[simp] theorem writeRcsr_hostXcsr (t : Bool) (s : State) : (writeRcsr t s).hostXcsr = s.hostXcsr := rfl
@[simp] theorem writeRcsr_bus (t : Bool) (s : State) : (writeRcsr t s).bus = s.bus := rfl
@[simp] theorem writeRcsr_env (t : Bool) (s : State) : (writeRcsr t s).env = s.env := rfl
@[simp] theorem writeRcsr_free (t : Bool) (s : State) : (writeRcsr t s).free = s.free := rfl

/-! ### `noteRequest` changes only: boot -/
@[simp] theorem noteRequest_cfg (i : Instr) (s : State) : (noteRequest i s).cfg = s.cfg := rfl
@[simp] theorem noteRequest_rx (i : Instr) (s : State) : (noteRequest i s).rx = s.rx := rfl
@[simp] theorem noteRequest_rxOvf (i : Instr) (s : State) : (noteRequest i s).rxOvf = s.rxOvf := rfl
@[simp] theorem noteRequest_tx (i : Instr) (s : State) : (noteRequest i s).tx = s.tx := rfl
@[simp] theorem noteRequest_ds (i : Instr) (s : State) : (noteRequest i s).ds = s.ds := rfl
@[simp] theorem noteRequest_seq (i : Instr) (s : State) : (noteRequest i s).seq = s.seq := rfl
@[simp] theorem noteRequest_cs (i : Instr) (s : State) : (noteRequest i s).cs = s.cs := rfl
@[simp] theorem noteRequest_ba (i : Instr) (s : State) : (noteRequest i s).ba = s.ba := rfl
@[simp] theorem noteRequest_da (i : Instr) (s : State) : (noteRequest i s).da = s.da := rfl
@[simp] theorem noteRequest_mp (i : Instr) (s : State) : (noteRequest i s).mp = s.mp := rfl
@[simp] theorem noteRequest_rcsr (i : Instr) (s : State) : (noteRequest i s).rcsr = s.rcsr := rfl
@[simp] theorem noteRequest_rbuf (i : Instr) (s : State) : (noteRequest i s).rbuf = s.rbuf := rfl
@[simp] theorem noteRequest_xcsr (i : Instr) (s : State) : (noteRequest i s).xcsr = s.xcsr := rfl
@[simp] theorem noteRequest_xbuf (i : Instr) (s : State) : (noteRequest i s).xbuf = s.xbuf := rfl
@[simp] theorem noteRequest_drives (i : Instr) (s : State) : (noteRequest i s).drives = s.drives := rfl
@[simp] theorem noteRequest_sel (i : Instr) (s : State) : (noteRequest i s).sel = s.sel := rfl
@[simp] theorem noteRequest_cmd (i : Instr) (s : State) : (noteRequest i s).cmd = s.cmd := rfl
@[simp] theorem noteRequest_mem (i : Instr) (s : State) : (noteRequest i s).mem = s.mem := rfl
@[simp] theorem noteRequest_resp (i : Instr) (s : State) : (noteRequest i s).resp = s.resp := rfl
@[simp] theorem noteRequest_hostXcsr (i : Instr) (s : State) : (noteRequest i s).hostXcsr = s.hostXcsr := rfl
@[simp] theorem noteRequest_bus (i : Instr) (s : State) : (noteRequest i s).bus = s.bus := rfl
@[simp] theorem noteRequest_env (i : Instr) (s : State) : (noteRequest i s).env = s.env := rfl
@[simp] theorem noteRequest_free (i : Instr) (s : State) : (noteRequest i s).free = s.free := rfl

/-! ### `receiveAtDevice` changes only: rbuf, rcsr -/
@[simp] theorem receiveAtDevice_cfg (w : Word) (s : State) : (receiveAtDevice w s).cfg = s.cfg := rfl
@[simp] theorem receiveAtDevice_rx (w : Word) (s : State) : (receiveAtDevice w s).rx = s.rx := rfl
@[simp] theorem receiveAtDevice_rxOvf (w : Word) (s : State) : (receiveAtDevice w s).rxOvf = s.rxOvf := rfl
@[simp] theorem receiveAtDevice_tx (w : Word) (s : State) : (receiveAtDevice w s).tx = s.tx := rfl
@[simp] theorem receiveAtDevice_ds (w : Word) (s : State) : (receiveAtDevice w s).ds = s.ds := rfl
@[simp] theorem receiveAtDevice_seq (w : Word) (s : State) : (receiveAtDevice w s).seq = s.seq := rfl
@[simp] theorem receiveAtDevice_cs (w : Word) (s : State) : (receiveAtDevice w s).cs = s.cs := rfl
@[simp] theorem receiveAtDevice_ba (w : Word) (s : State) : (receiveAtDevice w s).ba = s.ba := rfl
@[simp] theorem receiveAtDevice_da (w : Word) (s : State) : (receiveAtDevice w s).da = s.da := rfl
@[simp] theorem receiveAtDevice_mp (w : Word) (s : State) : (receiveAtDevice w s).mp = s.mp := rfl
@[simp] theorem receiveAtDevice_xcsr (w : Word) (s : State) : (receiveAtDevice w s).xcsr = s.xcsr := rfl
@[simp] theorem receiveAtDevice_xbuf (w : Word) (s : State) : (receiveAtDevice w s).xbuf = s.xbuf := rfl
@[simp] theorem receiveAtDevice_drives (w : Word) (s : State) : (receiveAtDevice w s).drives = s.drives := rfl
@[simp] theorem receiveAtDevice_sel (w : Word) (s : State) : (receiveAtDevice w s).sel = s.sel := rfl
@[simp] theorem receiveAtDevice_cmd (w : Word) (s : State) : (receiveAtDevice w s).cmd = s.cmd := rfl
@[simp] theorem receiveAtDevice_mem (w : Word) (s : State) : (receiveAtDevice w s).mem = s.mem := rfl
@[simp] theorem receiveAtDevice_resp (w : Word) (s : State) : (receiveAtDevice w s).resp = s.resp := rfl
@[simp] theorem receiveAtDevice_hostXcsr (w : Word) (s : State) : (receiveAtDevice w s).hostXcsr = s.hostXcsr := rfl
@[simp] theorem receiveAtDevice_boot (w : Word) (s : State) : (receiveAtDevice w s).boot = s.boot := rfl
@[simp] theorem receiveAtDevice_bus (w : Word) (s : State) : (receiveAtDevice w s).bus = s.bus := rfl
@[simp] theorem receiveAtDevice_env (w : Word) (s : State) : (receiveAtDevice w s).env = s.env := rfl
@[simp] theorem receiveAtDevice_free (w : Word) (s : State) : (receiveAtDevice w s).free = s.free := rfl

/-! ### `sentAtDevice` changes only: xcsr -/
@[simp] theorem sentAtDevice_cfg (s : State) : (sentAtDevice s).cfg = s.cfg := rfl
@[simp] theorem sentAtDevice_rx (s : State) : (sentAtDevice s).rx = s.rx := rfl
@[simp] theorem sentAtDevice_rxOvf (s : State) : (sentAtDevice s).rxOvf = s.rxOvf := rfl
@[simp] theorem sentAtDevice_tx (s : State) : (sentAtDevice s).tx = s.tx := rfl
@[simp] theorem sentAtDevice_ds (s : State) : (sentAtDevice s).ds = s.ds := rfl
@[simp] theorem sentAtDevice_seq (s : State) : (sentAtDevice s).seq = s.seq := rfl
@[simp] theorem sentAtDevice_cs (s : State) : (sentAtDevice s).cs = s.cs := rfl
@[simp] theorem sentAtDevice_ba (s : State) : (sentAtDevice s).ba = s.ba := rfl
@[simp] theorem sentAtDevice_da (s : State) : (sentAtDevice s).da = s.da := rfl
@[simp] theorem sentAtDevice_mp (s : State) : (sentAtDevice s).mp = s.mp := rfl
@[simp] theorem sentAtDevice_rcsr (s : State) : (sentAtDevice s).rcsr = s.rcsr := rfl
@[simp] theorem sentAtDevice_rbuf (s : State) : (sentAtDevice s).rbuf = s.rbuf := rfl
@[simp] theorem sentAtDevice_xbuf (s : State) : (sentAtDevice s).xbuf = s.xbuf := rfl
@[simp] theorem sentAtDevice_drives (s : State) : (sentAtDevice s).drives = s.drives := rfl
@[simp] theorem sentAtDevice_sel (s : State) : (sentAtDevice s).sel = s.sel := rfl
@[simp] theorem sentAtDevice_cmd (s : State) : (sentAtDevice s).cmd = s.cmd := rfl
@[simp] theorem sentAtDevice_mem (s : State) : (sentAtDevice s).mem = s.mem := rfl
@[simp] theorem sentAtDevice_resp (s : State) : (sentAtDevice s).resp = s.resp := rfl
@[simp] theorem sentAtDevice_hostXcsr (s : State) : (sentAtDevice s).hostXcsr = s.hostXcsr := rfl
@[simp] theorem sentAtDevice_boot (s : State) : (sentAtDevice s).boot = s.boot := rfl
@[simp] theorem sentAtDevice_bus (s : State) : (sentAtDevice s).bus = s.bus := rfl
@[simp] theorem sentAtDevice_env (s : State) : (sentAtDevice s).env = s.env := rfl
@[simp] theorem sentAtDevice_free (s : State) : (sentAtDevice s).free = s.free := rfl

/-! ### `setDrive` changes only: drives -/
@[simp] theorem setDrive_cfg (d : Drive) (r : Bool) (s : State) : (setDrive d r s).cfg = s.cfg := rfl
@[simp] theorem setDrive_rx (d : Drive) (r : Bool) (s : State) : (setDrive d r s).rx = s.rx := rfl
@[simp] theorem setDrive_rxOvf (d : Drive) (r : Bool) (s : State) : (setDrive d r s).rxOvf = s.rxOvf := rfl
@[simp] theorem setDrive_tx (d : Drive) (r : Bool) (s : State) : (setDrive d r s).tx = s.tx := rfl
@[simp] theorem setDrive_ds (d : Drive) (r : Bool) (s : State) : (setDrive d r s).ds = s.ds := rfl
@[simp] theorem setDrive_seq (d : Drive) (r : Bool) (s : State) : (setDrive d r s).seq = s.seq := rfl
@[simp] theorem setDrive_cs (d : Drive) (r : Bool) (s : State) : (setDrive d r s).cs = s.cs := rfl
@[simp] theorem setDrive_ba (d : Drive) (r : Bool) (s : State) : (setDrive d r s).ba = s.ba := rfl
@[simp] theorem setDrive_da (d : Drive) (r : Bool) (s : State) : (setDrive d r s).da = s.da := rfl
@[simp] theorem setDrive_mp (d : Drive) (r : Bool) (s : State) : (setDrive d r s).mp = s.mp := rfl
@[simp] theorem setDrive_rcsr (d : Drive) (r : Bool) (s : State) : (setDrive d r s).rcsr = s.rcsr := rfl
@[simp] theorem setDrive_rbuf (d : Drive) (r : Bool) (s : State) : (setDrive d r s).rbuf = s.rbuf := rfl
@[simp] theorem setDrive_xcsr (d : Drive) (r : Bool) (s : State) : (setDrive d r s).xcsr = s.xcsr := rfl
@[simp] theorem setDrive_xbuf (d : Drive) (r : Bool) (s : State) : (setDrive d r s).xbuf = s.xbuf := rfl
@[simp] theorem setDrive_sel (d : Drive) (r : Bool) (s : State) : (setDrive d r s).sel = s.sel := rfl
@[simp] theorem setDrive_cmd (d : Drive) (r : Bool) (s : State) : (setDrive d r s).cmd = s.cmd := rfl
@[simp] theorem setDrive_mem (d : Drive) (r : Bool) (s : State) : (setDrive d r s).mem = s.mem := rfl
@[simp] theorem setDrive_resp (d : Drive) (r : Bool) (s : State) : (setDrive d r s).resp = s.resp := rfl
@[simp] theorem setDrive_hostXcsr (d : Drive) (r : Bool) (s : State) : (setDrive d r s).hostXcsr = s.hostXcsr := rfl
@[simp] theorem setDrive_boot (d : Drive) (r : Bool) (s : State) : (setDrive d r s).boot = s.boot := rfl
@[simp] theorem setDrive_bus (d : Drive) (r : Bool) (s : State) : (setDrive d r s).bus = s.bus := rfl
@[simp] theorem setDrive_env (d : Drive) (r : Bool) (s : State) : (setDrive d r s).env = s.env := rfl
@[simp] theorem setDrive_free (d : Drive) (r : Bool) (s : State) : (setDrive d r s).free = s.free := rfl

/-! ### `presentCs` changes only: cs, cmd, drives -/
@[simp] theorem presentCs_cfg (v : Word) (s : State) : (presentCs v s).cfg = s.cfg := rfl
@[simp] theorem presentCs_rx (v : Word) (s : State) : (presentCs v s).rx = s.rx := rfl
@[simp] theorem presentCs_rxOvf (v : Word) (s : State) : (presentCs v s).rxOvf = s.rxOvf := rfl
@[simp] theorem presentCs_tx (v : Word) (s : State) : (presentCs v s).tx = s.tx := rfl
@[simp] theorem presentCs_ds (v : Word) (s : State) : (presentCs v s).ds = s.ds := rfl
@[simp] theorem presentCs_seq (v : Word) (s : State) : (presentCs v s).seq = s.seq := rfl
@[simp] theorem presentCs_ba (v : Word) (s : State) : (presentCs v s).ba = s.ba := rfl
@[simp] theorem presentCs_da (v : Word) (s : State) : (presentCs v s).da = s.da := rfl
@[simp] theorem presentCs_mp (v : Word) (s : State) : (presentCs v s).mp = s.mp := rfl
@[simp] theorem presentCs_rcsr (v : Word) (s : State) : (presentCs v s).rcsr = s.rcsr := rfl
@[simp] theorem presentCs_rbuf (v : Word) (s : State) : (presentCs v s).rbuf = s.rbuf := rfl
@[simp] theorem presentCs_xcsr (v : Word) (s : State) : (presentCs v s).xcsr = s.xcsr := rfl
@[simp] theorem presentCs_xbuf (v : Word) (s : State) : (presentCs v s).xbuf = s.xbuf := rfl
@[simp] theorem presentCs_sel (v : Word) (s : State) : (presentCs v s).sel = s.sel := rfl
@[simp] theorem presentCs_mem (v : Word) (s : State) : (presentCs v s).mem = s.mem := rfl
@[simp] theorem presentCs_resp (v : Word) (s : State) : (presentCs v s).resp = s.resp := rfl
@[simp] theorem presentCs_hostXcsr (v : Word) (s : State) : (presentCs v s).hostXcsr = s.hostXcsr := rfl
@[simp] theorem presentCs_boot (v : Word) (s : State) : (presentCs v s).boot = s.boot := rfl
@[simp] theorem presentCs_bus (v : Word) (s : State) : (presentCs v s).bus = s.bus := rfl
@[simp] theorem presentCs_env (v : Word) (s : State) : (presentCs v s).env = s.env := rfl
@[simp] theorem presentCs_free (v : Word) (s : State) : (presentCs v s).free = s.free := rfl

/-! ### `dmaByte` changes only: mem -/
@[simp] theorem dmaByte_cfg (k : Nat) (b : Byte) (s : State) : (dmaByte k b s).cfg = s.cfg := by unfold dmaByte; split <;> (try split) <;> rfl
@[simp] theorem dmaByte_rx (k : Nat) (b : Byte) (s : State) : (dmaByte k b s).rx = s.rx := by unfold dmaByte; split <;> (try split) <;> rfl
@[simp] theorem dmaByte_rxOvf (k : Nat) (b : Byte) (s : State) : (dmaByte k b s).rxOvf = s.rxOvf := by unfold dmaByte; split <;> (try split) <;> rfl
@[simp] theorem dmaByte_tx (k : Nat) (b : Byte) (s : State) : (dmaByte k b s).tx = s.tx := by unfold dmaByte; split <;> (try split) <;> rfl
@[simp] theorem dmaByte_ds (k : Nat) (b : Byte) (s : State) : (dmaByte k b s).ds = s.ds := by unfold dmaByte; split <;> (try split) <;> rfl
@[simp] theorem dmaByte_seq (k : Nat) (b : Byte) (s : State) : (dmaByte k b s).seq = s.seq := by unfold dmaByte; split <;> (try split) <;> rfl
@[simp] theorem dmaByte_cs (k : Nat) (b : Byte) (s : State) : (dmaByte k b s).cs = s.cs := by unfold dmaByte; split <;> (try split) <;> rfl
@[simp] theorem dmaByte_ba (k : Nat) (b : Byte) (s : State) : (dmaByte k b s).ba = s.ba := by unfold dmaByte; split <;> (try split) <;> rfl
@[simp] theorem dmaByte_da (k : Nat) (b : Byte) (s : State) : (dmaByte k b s).da = s.da := by unfold dmaByte; split <;> (try split) <;> rfl
@[simp] theorem dmaByte_mp (k : Nat) (b : Byte) (s : State) : (dmaByte k b s).mp = s.mp := by unfold dmaByte; split <;> (try split) <;> rfl
@[simp] theorem dmaByte_rcsr (k : Nat) (b : Byte) (s : State) : (dmaByte k b s).rcsr = s.rcsr := by unfold dmaByte; split <;> (try split) <;> rfl
@[simp] theorem dmaByte_rbuf (k : Nat) (b : Byte) (s : State) : (dmaByte k b s).rbuf = s.rbuf := by unfold dmaByte; split <;> (try split) <;> rfl
@[simp] theorem dmaByte_xcsr (k : Nat) (b : Byte) (s : State) : (dmaByte k b s).xcsr = s.xcsr := by unfold dmaByte; split <;> (try split) <;> rfl
@[simp] theorem dmaByte_xbuf (k : Nat) (b : Byte) (s : State) : (dmaByte k b s).xbuf = s.xbuf := by unfold dmaByte; split <;> (try split) <;> rfl
@[simp] theorem dmaByte_drives (k : Nat) (b : Byte) (s : State) : (dmaByte k b s).drives = s.drives := by unfold dmaByte; split <;> (try split) <;> rfl
@[simp] theorem dmaByte_sel (k : Nat) (b : Byte) (s : State) : (dmaByte k b s).sel = s.sel := by unfold dmaByte; split <;> (try split) <;> rfl
@[simp] theorem dmaByte_cmd (k : Nat) (b : Byte) (s : State) : (dmaByte k b s).cmd = s.cmd := by unfold dmaByte; split <;> (try split) <;> rfl
@[simp] theorem dmaByte_resp (k : Nat) (b : Byte) (s : State) : (dmaByte k b s).resp = s.resp := by unfold dmaByte; split <;> (try split) <;> rfl
@[simp] theorem dmaByte_hostXcsr (k : Nat) (b : Byte) (s : State) : (dmaByte k b s).hostXcsr = s.hostXcsr := by unfold dmaByte; split <;> (try split) <;> rfl
@[simp] theorem dmaByte_boot (k : Nat) (b : Byte) (s : State) : (dmaByte k b s).boot = s.boot := by unfold dmaByte; split <;> (try split) <;> rfl
@[simp] theorem dmaByte_bus (k : Nat) (b : Byte) (s : State) : (dmaByte k b s).bus = s.bus := by unfold dmaByte; split <;> (try split) <;> rfl
@[simp] theorem dmaByte_env (k : Nat) (b : Byte) (s : State) : (dmaByte k b s).env = s.env := by unfold dmaByte; split <;> (try split) <;> rfl
@[simp] theorem dmaByte_free (k : Nat) (b : Byte) (s : State) : (dmaByte k b s).free = s.free := by unfold dmaByte; split <;> (try split) <;> rfl

/-! ### `resetBlock` changes only: seq, rx, rxOvf, tx, ds, resp -/
@[simp] theorem resetBlock_cfg (s : State) : (resetBlock s).cfg = s.cfg := rfl
@[simp] theorem resetBlock_cs (s : State) : (resetBlock s).cs = s.cs := rfl
@[simp] theorem resetBlock_ba (s : State) : (resetBlock s).ba = s.ba := rfl
@[simp] theorem resetBlock_da (s : State) : (resetBlock s).da = s.da := rfl
@[simp] theorem resetBlock_mp (s : State) : (resetBlock s).mp = s.mp := rfl
@[simp] theorem resetBlock_rcsr (s : State) : (resetBlock s).rcsr = s.rcsr := rfl
@[simp] theorem resetBlock_rbuf (s : State) : (resetBlock s).rbuf = s.rbuf := rfl
@[simp] theorem resetBlock_xcsr (s : State) : (resetBlock s).xcsr = s.xcsr := rfl
@[simp] theorem resetBlock_xbuf (s : State) : (resetBlock s).xbuf = s.xbuf := rfl
@[simp] theorem resetBlock_drives (s : State) : (resetBlock s).drives = s.drives := rfl
@[simp] theorem resetBlock_sel (s : State) : (resetBlock s).sel = s.sel := rfl
@[simp] theorem resetBlock_cmd (s : State) : (resetBlock s).cmd = s.cmd := rfl
@[simp] theorem resetBlock_mem (s : State) : (resetBlock s).mem = s.mem := rfl
@[simp] theorem resetBlock_hostXcsr (s : State) : (resetBlock s).hostXcsr = s.hostXcsr := rfl
@[simp] theorem resetBlock_boot (s : State) : (resetBlock s).boot = s.boot := rfl
@[simp] theorem resetBlock_bus (s : State) : (resetBlock s).bus = s.bus := rfl
@[simp] theorem resetBlock_env (s : State) : (resetBlock s).env = s.env := rfl
@[simp] theorem resetBlock_free (s : State) : (resetBlock s).free = s.free := rfl

/-! ### `resetSerial` changes only: rcsr, rbuf, xcsr, xbuf -/
@[simp] theorem resetSerial_cfg (w : SerialDraw) (s : State) : (resetSerial w s).cfg = s.cfg := rfl
@[simp] theorem resetSerial_rx (w : SerialDraw) (s : State) : (resetSerial w s).rx = s.rx := rfl
@[simp] theorem resetSerial_rxOvf (w : SerialDraw) (s : State) : (resetSerial w s).rxOvf = s.rxOvf := rfl
@[simp] theorem resetSerial_tx (w : SerialDraw) (s : State) : (resetSerial w s).tx = s.tx := rfl
@[simp] theorem resetSerial_ds (w : SerialDraw) (s : State) : (resetSerial w s).ds = s.ds := rfl
@[simp] theorem resetSerial_seq (w : SerialDraw) (s : State) : (resetSerial w s).seq = s.seq := rfl
@[simp] theorem resetSerial_cs (w : SerialDraw) (s : State) : (resetSerial w s).cs = s.cs := rfl
@[simp] theorem resetSerial_ba (w : SerialDraw) (s : State) : (resetSerial w s).ba = s.ba := rfl
@[simp] theorem resetSerial_da (w : SerialDraw) (s : State) : (resetSerial w s).da = s.da := rfl
@[simp] theorem resetSerial_mp (w : SerialDraw) (s : State) : (resetSerial w s).mp = s.mp := rfl
@[simp] theorem resetSerial_drives (w : SerialDraw) (s : State) : (resetSerial w s).drives = s.drives := rfl
@[simp] theorem resetSerial_sel (w : SerialDraw) (s : State) : (resetSerial w s).sel = s.sel := rfl
@[simp] theorem resetSerial_cmd (w : SerialDraw) (s : State) : (resetSerial w s).cmd = s.cmd := rfl
@[simp] theorem resetSerial_mem (w : SerialDraw) (s : State) : (resetSerial w s).mem = s.mem := rfl
@[simp] theorem resetSerial_resp (w : SerialDraw) (s : State) : (resetSerial w s).resp = s.resp := rfl
@[simp] theorem resetSerial_hostXcsr (w : SerialDraw) (s : State) : (resetSerial w s).hostXcsr = s.hostXcsr := rfl
@[simp] theorem resetSerial_boot (w : SerialDraw) (s : State) : (resetSerial w s).boot = s.boot := rfl
@[simp] theorem resetSerial_bus (w : SerialDraw) (s : State) : (resetSerial w s).bus = s.bus := rfl
@[simp] theorem resetSerial_env (w : SerialDraw) (s : State) : (resetSerial w s).env = s.env := rfl
@[simp] theorem resetSerial_free (w : SerialDraw) (s : State) : (resetSerial w s).free = s.free := rfl

/-! ### `resetSerialIf` changes only: rcsr, rbuf, xcsr, xbuf -/
@[simp] theorem resetSerialIf_cfg (w : Option SerialDraw) (s : State) : (resetSerialIf w s).cfg = s.cfg := by cases w <;> rfl
@[simp] theorem resetSerialIf_rx (w : Option SerialDraw) (s : State) : (resetSerialIf w s).rx = s.rx := by cases w <;> rfl
@[simp] theorem resetSerialIf_rxOvf (w : Option SerialDraw) (s : State) : (resetSerialIf w s).rxOvf = s.rxOvf := by cases w <;> rfl
@[simp] theorem resetSerialIf_tx (w : Option SerialDraw) (s : State) : (resetSerialIf w s).tx = s.tx := by cases w <;> rfl
@[simp] theorem resetSerialIf_ds (w : Option SerialDraw) (s : State) : (resetSerialIf w s).ds = s.ds := by cases w <;> rfl
@[simp] theorem resetSerialIf_seq (w : Option SerialDraw) (s : State) : (resetSerialIf w s).seq = s.seq := by cases w <;> rfl
@[simp] theorem resetSerialIf_cs (w : Option SerialDraw) (s : State) : (resetSerialIf w s).cs = s.cs := by cases w <;> rfl
@[simp] theorem resetSerialIf_ba (w : Option SerialDraw) (s : State) : (resetSerialIf w s).ba = s.ba := by cases w <;> rfl
@[simp] theorem resetSerialIf_da (w : Option SerialDraw) (s : State) : (resetSerialIf w s).da = s.da := by cases w <;> rfl
@[simp] theorem resetSerialIf_mp (w : Option SerialDraw) (s : State) : (resetSerialIf w s).mp = s.mp := by cases w <;> rfl
@[simp] theorem resetSerialIf_drives (w : Option SerialDraw) (s : State) : (resetSerialIf w s).drives = s.drives := by cases w <;> rfl
@[simp] theorem resetSerialIf_sel (w : Option SerialDraw) (s : State) : (resetSerialIf w s).sel = s.sel := by cases w <;> rfl
@[simp] theorem resetSerialIf_cmd (w : Option SerialDraw) (s : State) : (resetSerialIf w s).cmd = s.cmd := by cases w <;> rfl
@[simp] theorem resetSerialIf_mem (w : Option SerialDraw) (s : State) : (resetSerialIf w s).mem = s.mem := by cases w <;> rfl
@[simp] theorem resetSerialIf_resp (w : Option SerialDraw) (s : State) : (resetSerialIf w s).resp = s.resp := by cases w <;> rfl
@[simp] theorem resetSerialIf_hostXcsr (w : Option SerialDraw) (s : State) : (resetSerialIf w s).hostXcsr = s.hostXcsr := by cases w <;> rfl
@[simp] theorem resetSerialIf_boot (w : Option SerialDraw) (s : State) : (resetSerialIf w s).boot = s.boot := by cases w <;> rfl
@[simp] theorem resetSerialIf_bus (w : Option SerialDraw) (s : State) : (resetSerialIf w s).bus = s.bus := by cases w <;> rfl
@[simp] theorem resetSerialIf_env (w : Option SerialDraw) (s : State) : (resetSerialIf w s).env = s.env := by cases w <;> rfl
@[simp] theorem resetSerialIf_free (w : Option SerialDraw) (s : State) : (resetSerialIf w s).free = s.free := by cases w <;> rfl

/-! ### `resetStorage` changes only: cs, ba, da, mp, drives, sel, cmd -/
@[simp] theorem resetStorage_cfg (w : StorageDraw) (s : State) : (resetStorage w s).cfg = s.cfg := rfl
@[simp] theorem resetStorage_rx (w : StorageDraw) (s : State) : (resetStorage w s).rx = s.rx := rfl
@[simp] theorem resetStorage_rxOvf (w : StorageDraw) (s : State) : (resetStorage w s).rxOvf = s.rxOvf := rfl
@[simp] theorem resetStorage_tx (w : StorageDraw) (s : State) : (resetStorage w s).tx = s.tx := rfl
@[simp] theorem resetStorage_ds (w : StorageDraw) (s : State) : (resetStorage w s).ds = s.ds := rfl
@[simp] theorem resetStorage_seq (w : StorageDraw) (s : State) : (resetStorage w s).seq = s.seq := rfl
@[simp] theorem resetStorage_rcsr (w : StorageDraw) (s : State) : (resetStorage w s).rcsr = s.rcsr := rfl
@[simp] theorem resetStorage_rbuf (w : StorageDraw) (s : State) : (resetStorage w s).rbuf = s.rbuf := rfl
@[simp] theorem resetStorage_xcsr (w : StorageDraw) (s : State) : (resetStorage w s).xcsr = s.xcsr := rfl
@[simp] theorem resetStorage_xbuf (w : StorageDraw) (s : State) : (resetStorage w s).xbuf = s.xbuf := rfl
@[simp] theorem resetStorage_mem (w : StorageDraw) (s : State) : (resetStorage w s).mem = s.mem := rfl
@[simp] theorem resetStorage_resp (w : StorageDraw) (s : State) : (resetStorage w s).resp = s.resp := rfl
@[simp] theorem resetStorage_hostXcsr (w : StorageDraw) (s : State) : (resetStorage w s).hostXcsr = s.hostXcsr := rfl
@[simp] theorem resetStorage_boot (w : StorageDraw) (s : State) : (resetStorage w s).boot = s.boot := rfl
@[simp] theorem resetStorage_bus (w : StorageDraw) (s : State) : (resetStorage w s).bus = s.bus := rfl
@[simp] theorem resetStorage_env (w : StorageDraw) (s : State) : (resetStorage w s).env = s.env := rfl
@[simp] theorem resetStorage_free (w : StorageDraw) (s : State) : (resetStorage w s).free = s.free := rfl

/-! ### `resetStorageIf` changes only: cs, ba, da, mp, drives, sel, cmd -/
@[simp] theorem resetStorageIf_cfg (w : Option StorageDraw) (s : State) : (resetStorageIf w s).cfg = s.cfg := by cases w <;> rfl
@[simp] theorem resetStorageIf_rx (w : Option StorageDraw) (s : State) : (resetStorageIf w s).rx = s.rx := by cases w <;> rfl
@[simp] theorem resetStorageIf_rxOvf (w : Option StorageDraw) (s : State) : (resetStorageIf w s).rxOvf = s.rxOvf := by cases w <;> rfl
@[simp] theorem resetStorageIf_tx (w : Option StorageDraw) (s : State) : (resetStorageIf w s).tx = s.tx := by cases w <;> rfl
@[simp] theorem resetStorageIf_ds (w : Option StorageDraw) (s : State) : (resetStorageIf w s).ds = s.ds := by cases w <;> rfl
@[simp] theorem resetStorageIf_seq (w : Option StorageDraw) (s : State) : (resetStorageIf w s).seq = s.seq := by cases w <;> rfl
@[simp] theorem resetStorageIf_rcsr (w : Option StorageDraw) (s : State) : (resetStorageIf w s).rcsr = s.rcsr := by cases w <;> rfl
@[simp] theorem resetStorageIf_rbuf (w : Option StorageDraw) (s : State) : (resetStorageIf w s).rbuf = s.rbuf := by cases w <;> rfl
@[simp] theorem resetStorageIf_xcsr (w : Option StorageDraw) (s : State) : (resetStorageIf w s).xcsr = s.xcsr := by cases w <;> rfl
@[simp] theorem resetStorageIf_xbuf (w : Option StorageDraw) (s : State) : (resetStorageIf w s).xbuf = s.xbuf := by cases w <;> rfl
@[simp] theorem resetStorageIf_mem (w : Option StorageDraw) (s : State) : (resetStorageIf w s).mem = s.mem := by cases w <;> rfl
@[simp] theorem resetStorageIf_resp (w : Option StorageDraw) (s : State) : (resetStorageIf w s).resp = s.resp := by cases w <;> rfl
@[simp] theorem resetStorageIf_hostXcsr (w : Option StorageDraw) (s : State) : (resetStorageIf w s).hostXcsr = s.hostXcsr := by cases w <;> rfl
@[simp] theorem resetStorageIf_boot (w : Option StorageDraw) (s : State) : (resetStorageIf w s).boot = s.boot := by cases w <;> rfl
@[simp] theorem resetStorageIf_bus (w : Option StorageDraw) (s : State) : (resetStorageIf w s).bus = s.bus := by cases w <;> rfl
@[simp] theorem resetStorageIf_env (w : Option StorageDraw) (s : State) : (resetStorageIf w s).env = s.env := by cases w <;> rfl
@[simp] theorem resetStorageIf_free (w : Option StorageDraw) (s : State) : (resetStorageIf w s).free = s.free := by cases w <;> rfl

/-! ### `resetTurn` changes only: seq, rx, rxOvf, tx, ds, resp, rcsr, rbuf, xcsr, xbuf, cs, ba, da, mp, drives, sel, cmd, boot -/
@[simp] theorem resetTurn_cfg (w : Option SerialDraw) (u : Option StorageDraw) (s : State) : (resetTurn w u s).cfg = s.cfg := by simp [resetTurn]
@[simp] theorem resetTurn_mem (w : Option SerialDraw) (u : Option StorageDraw) (s : State) : (resetTurn w u s).mem = s.mem := by simp [resetTurn]
@[simp] theorem resetTurn_hostXcsr (w : Option SerialDraw) (u : Option StorageDraw) (s : State) : (resetTurn w u s).hostXcsr = s.hostXcsr := by simp [resetTurn]
@[simp] theorem resetTurn_bus (w : Option SerialDraw) (u : Option StorageDraw) (s : State) : (resetTurn w u s).bus = s.bus := by simp [resetTurn]
@[simp] theorem resetTurn_env (w : Option SerialDraw) (u : Option StorageDraw) (s : State) : (resetTurn w u s).env = s.env := by simp [resetTurn]
@[simp] theorem resetTurn_free (w : Option SerialDraw) (u : Option StorageDraw) (s : State) : (resetTurn w u s).free = s.free := by simp [resetTurn]

/-! ### `drawOpen` changes only: free -/
@[simp] theorem drawOpen_cfg (r : Reg) (s : State) : (drawOpen r s).cfg = s.cfg := rfl
@[simp] theorem drawOpen_rx (r : Reg) (s : State) : (drawOpen r s).rx = s.rx := rfl
@[simp] theorem drawOpen_rxOvf (r : Reg) (s : State) : (drawOpen r s).rxOvf = s.rxOvf := rfl
@[simp] theorem drawOpen_tx (r : Reg) (s : State) : (drawOpen r s).tx = s.tx := rfl
@[simp] theorem drawOpen_ds (r : Reg) (s : State) : (drawOpen r s).ds = s.ds := rfl
@[simp] theorem drawOpen_seq (r : Reg) (s : State) : (drawOpen r s).seq = s.seq := rfl
@[simp] theorem drawOpen_cs (r : Reg) (s : State) : (drawOpen r s).cs = s.cs := rfl
@[simp] theorem drawOpen_ba (r : Reg) (s : State) : (drawOpen r s).ba = s.ba := rfl
@[simp] theorem drawOpen_da (r : Reg) (s : State) : (drawOpen r s).da = s.da := rfl
@[simp] theorem drawOpen_mp (r : Reg) (s : State) : (drawOpen r s).mp = s.mp := rfl
@[simp] theorem drawOpen_rcsr (r : Reg) (s : State) : (drawOpen r s).rcsr = s.rcsr := rfl
@[simp] theorem drawOpen_rbuf (r : Reg) (s : State) : (drawOpen r s).rbuf = s.rbuf := rfl
@[simp] theorem drawOpen_xcsr (r : Reg) (s : State) : (drawOpen r s).xcsr = s.xcsr := rfl
@[simp] theorem drawOpen_xbuf (r : Reg) (s : State) : (drawOpen r s).xbuf = s.xbuf := rfl
@[simp] theorem drawOpen_drives (r : Reg) (s : State) : (drawOpen r s).drives = s.drives := rfl
@[simp] theorem drawOpen_sel (r : Reg) (s : State) : (drawOpen r s).sel = s.sel := rfl
@[simp] theorem drawOpen_cmd (r : Reg) (s : State) : (drawOpen r s).cmd = s.cmd := rfl
@[simp] theorem drawOpen_mem (r : Reg) (s : State) : (drawOpen r s).mem = s.mem := rfl
@[simp] theorem drawOpen_resp (r : Reg) (s : State) : (drawOpen r s).resp = s.resp := rfl
@[simp] theorem drawOpen_hostXcsr (r : Reg) (s : State) : (drawOpen r s).hostXcsr = s.hostXcsr := rfl
@[simp] theorem drawOpen_boot (r : Reg) (s : State) : (drawOpen r s).boot = s.boot := rfl
@[simp] theorem drawOpen_bus (r : Reg) (s : State) : (drawOpen r s).bus = s.bus := rfl
@[simp] theorem drawOpen_env (r : Reg) (s : State) : (drawOpen r s).env = s.env := rfl

/-! ### `hostReadXcsr` changes only: hostXcsr, boot, free -/
@[simp] theorem hostReadXcsr_cfg (s : State) : (hostReadXcsr s).cfg = s.cfg := rfl
@[simp] theorem hostReadXcsr_rx (s : State) : (hostReadXcsr s).rx = s.rx := rfl
@[simp] theorem hostReadXcsr_rxOvf (s : State) : (hostReadXcsr s).rxOvf = s.rxOvf := rfl
@[simp] theorem hostReadXcsr_tx (s : State) : (hostReadXcsr s).tx = s.tx := rfl
@[simp] theorem hostReadXcsr_ds (s : State) : (hostReadXcsr s).ds = s.ds := rfl
@[simp] theorem hostReadXcsr_seq (s : State) : (hostReadXcsr s).seq = s.seq := rfl
@[simp] theorem hostReadXcsr_cs (s : State) : (hostReadXcsr s).cs = s.cs := rfl
@[simp] theorem hostReadXcsr_ba (s : State) : (hostReadXcsr s).ba = s.ba := rfl
@[simp] theorem hostReadXcsr_da (s : State) : (hostReadXcsr s).da = s.da := rfl
@[simp] theorem hostReadXcsr_mp (s : State) : (hostReadXcsr s).mp = s.mp := rfl
@[simp] theorem hostReadXcsr_rcsr (s : State) : (hostReadXcsr s).rcsr = s.rcsr := rfl
@[simp] theorem hostReadXcsr_rbuf (s : State) : (hostReadXcsr s).rbuf = s.rbuf := rfl
@[simp] theorem hostReadXcsr_xcsr (s : State) : (hostReadXcsr s).xcsr = s.xcsr := rfl
@[simp] theorem hostReadXcsr_xbuf (s : State) : (hostReadXcsr s).xbuf = s.xbuf := rfl
@[simp] theorem hostReadXcsr_drives (s : State) : (hostReadXcsr s).drives = s.drives := rfl
@[simp] theorem hostReadXcsr_sel (s : State) : (hostReadXcsr s).sel = s.sel := rfl
@[simp] theorem hostReadXcsr_cmd (s : State) : (hostReadXcsr s).cmd = s.cmd := rfl
@[simp] theorem hostReadXcsr_mem (s : State) : (hostReadXcsr s).mem = s.mem := rfl
@[simp] theorem hostReadXcsr_resp (s : State) : (hostReadXcsr s).resp = s.resp := rfl
@[simp] theorem hostReadXcsr_bus (s : State) : (hostReadXcsr s).bus = s.bus := rfl
@[simp] theorem hostReadXcsr_env (s : State) : (hostReadXcsr s).env = s.env := rfl

/-! ### `portWrite` changes only: cs, ba, da, mp, rcsr, rbuf, xcsr, xbuf, sel, cmd, bus -/
@[simp] theorem portWrite_cfg (r : Reg) (v : Word) (s : State) : (portWrite r v s).cfg = s.cfg := by cases r <;> rfl
@[simp] theorem portWrite_rx (r : Reg) (v : Word) (s : State) : (portWrite r v s).rx = s.rx := by cases r <;> rfl
@[simp] theorem portWrite_rxOvf (r : Reg) (v : Word) (s : State) : (portWrite r v s).rxOvf = s.rxOvf := by cases r <;> rfl
@[simp] theorem portWrite_tx (r : Reg) (v : Word) (s : State) : (portWrite r v s).tx = s.tx := by cases r <;> rfl
@[simp] theorem portWrite_ds (r : Reg) (v : Word) (s : State) : (portWrite r v s).ds = s.ds := by cases r <;> rfl
@[simp] theorem portWrite_seq (r : Reg) (v : Word) (s : State) : (portWrite r v s).seq = s.seq := by cases r <;> rfl
@[simp] theorem portWrite_drives (r : Reg) (v : Word) (s : State) : (portWrite r v s).drives = s.drives := by cases r <;> rfl
@[simp] theorem portWrite_mem (r : Reg) (v : Word) (s : State) : (portWrite r v s).mem = s.mem := by cases r <;> rfl
@[simp] theorem portWrite_resp (r : Reg) (v : Word) (s : State) : (portWrite r v s).resp = s.resp := by cases r <;> rfl
@[simp] theorem portWrite_hostXcsr (r : Reg) (v : Word) (s : State) : (portWrite r v s).hostXcsr = s.hostXcsr := by cases r <;> rfl
@[simp] theorem portWrite_boot (r : Reg) (v : Word) (s : State) : (portWrite r v s).boot = s.boot := by cases r <;> rfl
@[simp] theorem portWrite_env (r : Reg) (v : Word) (s : State) : (portWrite r v s).env = s.env := by cases r <;> rfl
@[simp] theorem portWrite_free (r : Reg) (v : Word) (s : State) : (portWrite r v s).free = s.free := by cases r <;> rfl

/-! ### `regWrite` changes only: cs, ba, da, mp, rcsr, rbuf, xcsr, xbuf, sel, cmd, bus -/
@[simp] theorem regWrite_cfg (r : Reg) (v : Word) (s : State) : (regWrite r v s).cfg = s.cfg := portWrite_cfg r _ s
@[simp] theorem regWrite_rx (r : Reg) (v : Word) (s : State) : (regWrite r v s).rx = s.rx := portWrite_rx r _ s
@[simp] theorem regWrite_rxOvf (r : Reg) (v : Word) (s : State) : (regWrite r v s).rxOvf = s.rxOvf := portWrite_rxOvf r _ s
@[simp] theorem regWrite_tx (r : Reg) (v : Word) (s : State) : (regWrite r v s).tx = s.tx := portWrite_tx r _ s
@[simp] theorem regWrite_ds (r : Reg) (v : Word) (s : State) : (regWrite r v s).ds = s.ds := portWrite_ds r _ s
@[simp] theorem regWrite_seq (r : Reg) (v : Word) (s : State) : (regWrite r v s).seq = s.seq := portWrite_seq r _ s
@[simp] theorem regWrite_drives (r : Reg) (v : Word) (s : State) : (regWrite r v s).drives = s.drives := portWrite_drives r _ s
@[simp] theorem regWrite_mem (r : Reg) (v : Word) (s : State) : (regWrite r v s).mem = s.mem := portWrite_mem r _ s
@[simp] theorem regWrite_resp (r : Reg) (v : Word) (s : State) : (regWrite r v s).resp = s.resp := portWrite_resp r _ s
@[simp] theorem regWrite_hostXcsr (r : Reg) (v : Word) (s : State) : (regWrite r v s).hostXcsr = s.hostXcsr := portWrite_hostXcsr r _ s
@[simp] theorem regWrite_boot (r : Reg) (v : Word) (s : State) : (regWrite r v s).boot = s.boot := portWrite_boot r _ s
@[simp] theorem regWrite_env (r : Reg) (v : Word) (s : State) : (regWrite r v s).env = s.env := portWrite_env r _ s
@[simp] theorem regWrite_free (r : Reg) (v : Word) (s : State) : (regWrite r v s).free = s.free := portWrite_free r _ s

/-! ### `afterRead` changes only: rcsr, mp, free, bus -/
@[simp] theorem afterRead_cfg (r : Reg) (s : State) : (afterRead r s).cfg = s.cfg := by cases r <;> rfl
@[simp] theorem afterRead_rx (r : Reg) (s : State) : (afterRead r s).rx = s.rx := by cases r <;> rfl
@[simp] theorem afterRead_rxOvf (r : Reg) (s : State) : (afterRead r s).rxOvf = s.rxOvf := by cases r <;> rfl
@[simp] theorem afterRead_tx (r : Reg) (s : State) : (afterRead r s).tx = s.tx := by cases r <;> rfl
@[simp] theorem afterRead_ds (r : Reg) (s : State) : (afterRead r s).ds = s.ds := by cases r <;> rfl
@[simp] theorem afterRead_seq (r : Reg) (s : State) : (afterRead r s).seq = s.seq := by cases r <;> rfl
@[simp] theorem afterRead_cs (r : Reg) (s : State) : (afterRead r s).cs = s.cs := by cases r <;> rfl
@[simp] theorem afterRead_ba (r : Reg) (s : State) : (afterRead r s).ba = s.ba := by cases r <;> rfl
@[simp] theorem afterRead_da (r : Reg) (s : State) : (afterRead r s).da = s.da := by cases r <;> rfl
@[simp] theorem afterRead_rbuf (r : Reg) (s : State) : (afterRead r s).rbuf = s.rbuf := by cases r <;> rfl
@[simp] theorem afterRead_xcsr (r : Reg) (s : State) : (afterRead r s).xcsr = s.xcsr := by cases r <;> rfl
@[simp] theorem afterRead_xbuf (r : Reg) (s : State) : (afterRead r s).xbuf = s.xbuf := by cases r <;> rfl
@[simp] theorem afterRead_drives (r : Reg) (s : State) : (afterRead r s).drives = s.drives := by cases r <;> rfl
@[simp] theorem afterRead_sel (r : Reg) (s : State) : (afterRead r s).sel = s.sel := by cases r <;> rfl
@[simp] theorem afterRead_cmd (r : Reg) (s : State) : (afterRead r s).cmd = s.cmd := by cases r <;> rfl
@[simp] theorem afterRead_mem (r : Reg) (s : State) : (afterRead r s).mem = s.mem := by cases r <;> rfl
@[simp] theorem afterRead_resp (r : Reg) (s : State) : (afterRead r s).resp = s.resp := by cases r <;> rfl
@[simp] theorem afterRead_hostXcsr (r : Reg) (s : State) : (afterRead r s).hostXcsr = s.hostXcsr := by cases r <;> rfl
@[simp] theorem afterRead_boot (r : Reg) (s : State) : (afterRead r s).boot = s.boot := by cases r <;> rfl
@[simp] theorem afterRead_env (r : Reg) (s : State) : (afterRead r s).env = s.env := by cases r <;> rfl

/-! ### `issueCommand` changes only: cs, sel, cmd, bus -/
@[simp] theorem issueCommand_cfg (d : Drive) (fn : Fn) (s : State) : (issueCommand d fn s).cfg = s.cfg := rfl
@[simp] theorem issueCommand_rx (d : Drive) (fn : Fn) (s : State) : (issueCommand d fn s).rx = s.rx := rfl
@[simp] theorem issueCommand_rxOvf (d : Drive) (fn : Fn) (s : State) : (issueCommand d fn s).rxOvf = s.rxOvf := rfl
@[simp] theorem issueCommand_tx (d : Drive) (fn : Fn) (s : State) : (issueCommand d fn s).tx = s.tx := rfl
@[simp] theorem issueCommand_ds (d : Drive) (fn : Fn) (s : State) : (issueCommand d fn s).ds = s.ds := rfl
@[simp] theorem issueCommand_seq (d : Drive) (fn : Fn) (s : State) : (issueCommand d fn s).seq = s.seq := rfl
@[simp] theorem issueCommand_ba (d : Drive) (fn : Fn) (s : State) : (issueCommand d fn s).ba = s.ba := rfl
@[simp] theorem issueCommand_da (d : Drive) (fn : Fn) (s : State) : (issueCommand d fn s).da = s.da := rfl
@[simp] theorem issueCommand_mp (d : Drive) (fn : Fn) (s : State) : (issueCommand d fn s).mp = s.mp := rfl
@[simp] theorem issueCommand_rcsr (d : Drive) (fn : Fn) (s : State) : (issueCommand d fn s).rcsr = s.rcsr := rfl
@[simp] theorem issueCommand_rbuf (d : Drive) (fn : Fn) (s : State) : (issueCommand d fn s).rbuf = s.rbuf := rfl
@[simp] theorem issueCommand_xcsr (d : Drive) (fn : Fn) (s : State) : (issueCommand d fn s).xcsr = s.xcsr := rfl
@[simp] theorem issueCommand_xbuf (d : Drive) (fn : Fn) (s : State) : (issueCommand d fn s).xbuf = s.xbuf := rfl
@[simp] theorem issueCommand_drives (d : Drive) (fn : Fn) (s : State) : (issueCommand d fn s).drives = s.drives := rfl
@[simp] theorem issueCommand_mem (d : Drive) (fn : Fn) (s : State) : (issueCommand d fn s).mem = s.mem := rfl
@[simp] theorem issueCommand_resp (d : Drive) (fn : Fn) (s : State) : (issueCommand d fn s).resp = s.resp := rfl
@[simp] theorem issueCommand_hostXcsr (d : Drive) (fn : Fn) (s : State) : (issueCommand d fn s).hostXcsr = s.hostXcsr := rfl
@[simp] theorem issueCommand_boot (d : Drive) (fn : Fn) (s : State) : (issueCommand d fn s).boot = s.boot := rfl
@[simp] theorem issueCommand_env (d : Drive) (fn : Fn) (s : State) : (issueCommand d fn s).env = s.env := rfl
@[simp] theorem issueCommand_free (d : Drive) (fn : Fn) (s : State) : (issueCommand d fn s).free = s.free := rfl

/-! ### `updateTie` changes only: xcsr, bus -/
@[simp] theorem updateTie_cfg (s : State) : (updateTie s).cfg = s.cfg := rfl
@[simp] theorem updateTie_rx (s : State) : (updateTie s).rx = s.rx := rfl
@[simp] theorem updateTie_rxOvf (s : State) : (updateTie s).rxOvf = s.rxOvf := rfl
@[simp] theorem updateTie_tx (s : State) : (updateTie s).tx = s.tx := rfl
@[simp] theorem updateTie_ds (s : State) : (updateTie s).ds = s.ds := rfl
@[simp] theorem updateTie_seq (s : State) : (updateTie s).seq = s.seq := rfl
@[simp] theorem updateTie_cs (s : State) : (updateTie s).cs = s.cs := rfl
@[simp] theorem updateTie_ba (s : State) : (updateTie s).ba = s.ba := rfl
@[simp] theorem updateTie_da (s : State) : (updateTie s).da = s.da := rfl
@[simp] theorem updateTie_mp (s : State) : (updateTie s).mp = s.mp := rfl
@[simp] theorem updateTie_rcsr (s : State) : (updateTie s).rcsr = s.rcsr := rfl
@[simp] theorem updateTie_rbuf (s : State) : (updateTie s).rbuf = s.rbuf := rfl
@[simp] theorem updateTie_xbuf (s : State) : (updateTie s).xbuf = s.xbuf := rfl
@[simp] theorem updateTie_drives (s : State) : (updateTie s).drives = s.drives := rfl
@[simp] theorem updateTie_sel (s : State) : (updateTie s).sel = s.sel := rfl
@[simp] theorem updateTie_cmd (s : State) : (updateTie s).cmd = s.cmd := rfl
@[simp] theorem updateTie_mem (s : State) : (updateTie s).mem = s.mem := rfl
@[simp] theorem updateTie_resp (s : State) : (updateTie s).resp = s.resp := rfl
@[simp] theorem updateTie_hostXcsr (s : State) : (updateTie s).hostXcsr = s.hostXcsr := rfl
@[simp] theorem updateTie_boot (s : State) : (updateTie s).boot = s.boot := rfl
@[simp] theorem updateTie_env (s : State) : (updateTie s).env = s.env := rfl
@[simp] theorem updateTie_free (s : State) : (updateTie s).free = s.free := rfl

/-! ### `sendByte` changes only: tx, xcsr, xbuf, bus, free -/
@[simp] theorem sendByte_cfg (s : State) : (sendByte s).cfg = s.cfg := by unfold sendByte; split <;> (try split) <;> rfl
@[simp] theorem sendByte_rx (s : State) : (sendByte s).rx = s.rx := by unfold sendByte; split <;> (try split) <;> rfl
@[simp] theorem sendByte_rxOvf (s : State) : (sendByte s).rxOvf = s.rxOvf := by unfold sendByte; split <;> (try split) <;> rfl
@[simp] theorem sendByte_ds (s : State) : (sendByte s).ds = s.ds := by unfold sendByte; split <;> (try split) <;> rfl
@[simp] theorem sendByte_seq (s : State) : (sendByte s).seq = s.seq := by unfold sendByte; split <;> (try split) <;> rfl
@[simp] theorem sendByte_cs (s : State) : (sendByte s).cs = s.cs := by unfold sendByte; split <;> (try split) <;> rfl
@[simp] theorem sendByte_ba (s : State) : (sendByte s).ba = s.ba := by unfold sendByte; split <;> (try split) <;> rfl
@[simp] theorem sendByte_da (s : State) : (sendByte s).da = s.da := by unfold sendByte; split <;> (try split) <;> rfl
@[simp] theorem sendByte_mp (s : State) : (sendByte s).mp = s.mp := by unfold sendByte; split <;> (try split) <;> rfl
@[simp] theorem sendByte_rcsr (s : State) : (sendByte s).rcsr = s.rcsr := by unfold sendByte; split <;> (try split) <;> rfl
@[simp] theorem sendByte_rbuf (s : State) : (sendByte s).rbuf = s.rbuf := by unfold sendByte; split <;> (try split) <;> rfl
@[simp] theorem sendByte_drives (s : State) : (sendByte s).drives = s.drives := by unfold sendByte; split <;> (try split) <;> rfl
@[simp] theorem sendByte_sel (s : State) : (sendByte s).sel = s.sel := by unfold sendByte; split <;> (try split) <;> rfl
@[simp] theorem sendByte_cmd (s : State) : (sendByte s).cmd = s.cmd := by unfold sendByte; split <;> (try split) <;> rfl
@[simp] theorem sendByte_mem (s : State) : (sendByte s).mem = s.mem := by unfold sendByte; split <;> (try split) <;> rfl
@[simp] theorem sendByte_resp (s : State) : (sendByte s).resp = s.resp := by unfold sendByte; split <;> (try split) <;> rfl
@[simp] theorem sendByte_hostXcsr (s : State) : (sendByte s).hostXcsr = s.hostXcsr := by unfold sendByte; split <;> (try split) <;> rfl
@[simp] theorem sendByte_boot (s : State) : (sendByte s).boot = s.boot := by unfold sendByte; split <;> (try split) <;> rfl
@[simp] theorem sendByte_env (s : State) : (sendByte s).env = s.env := by unfold sendByte; split <;> (try split) <;> rfl

end Sys2Proof.Machine
end

