-- ==== Sys2Proof/Laws/Ops.lean ====
section
/-! SUPPORT. One lemma for each shared operation that says once what it does: the sequencer operations, one transition
of a request, register writes field by field, and the halves of the services. -/

namespace Sys2Proof.Machine

/-! ### The sequencer -/

theorem onTop_busy {s : State} {f : Frame} {rest : List Frame} (g : Frame → Frame) (h : s.seq = .busy f rest) :
    onTop g s = { s with seq := .busy (g f) rest } := by simp [onTop, h]

theorem advance_busy {s : State} {f : Frame} {rest : List Frame} (h : s.seq = .busy f rest) :
    advance s = { s with seq := .busy { f with step := f.step + 1 } rest } := by simp [advance, onTop, h]

theorem jump_busy {s : State} {f : Frame} {rest : List Frame} (n : Nat) (h : s.seq = .busy f rest) :
    jump n s = { s with seq := .busy { f with step := n } rest } := by simp [jump, onTop, h]

theorem call_busy {s : State} {f : Frame} {rest : List Frame} (op : Op) (h : s.seq = .busy f rest) :
    call op s = { s with seq := .busy (firstFrame op) (f :: rest) } := by simp [call, h]

theorem respond_outermost {s : State} {f : Frame} (v : Response) (h : s.seq = .busy f []) :
    respond v s = { s with seq := .idle, resp := some v } := by simp [respond, h]

theorem respond_inner {s : State} {f g : Frame} {rest : List Frame} (v : Response) (h : s.seq = .busy f (g :: rest)) :
    respond v s = { s with seq := .busy (receive v g) rest } := by simp [respond, h]

/-- What a calling frame is after a response: one step further, with `h` assigned at step 1 by a header. -/
theorem receive_step (v : Response) (g : Frame) : (receive v g).step = g.step + 1 ∧ (receive v g).op = g.op := by
  unfold receive
  split
  · split <;> exact ⟨rfl, rfl⟩
  · exact ⟨rfl, rfl⟩

/-- One transition of a request: acceptance, the numbered step of its own frame, or `REFUSED`. -/
theorem transition_cases {i : Instr} {body : Frame → State → Host.Outcome State Fault Refusal} {s t : State}
    (h : transition i body s = .next t) :
    (s.seq = .idle ∧ t = accept i s)
    ∨ (∃ f rest, s.seq = .busy f rest ∧ f.op = .request i ∧ body f s = .next t)
    ∨ (∃ f rest, s.seq = .busy f rest ∧ f.op ≠ .request i ∧ t = refuse s) := by
  unfold transition at h
  split at h
  · rename_i hs
    exact .inl ⟨hs, (Host.Outcome.next.inj h).symm⟩
  · rename_i f rest hs
    split at h
    · rename_i hf
      exact .inr (.inl ⟨f, rest, hs, hf, h⟩)
    · rename_i hf
      exact .inr (.inr ⟨f, rest, hs, hf, (Host.Outcome.next.inj h).symm⟩)

theorem transition_own {i : Instr} {body : Frame → State → Host.Outcome State Fault Refusal} {s : State} {f : Frame}
    {rest : List Frame} (h : s.seq = .busy f rest) (hf : f.op = .request i) : transition i body s = body f s := by
  simp [transition, h, hf]

theorem transition_idle {i : Instr} {body : Frame → State → Host.Outcome State Fault Refusal} {s : State}
    (h : s.seq = .idle) : transition i body s = .next (accept i s) := by simp [transition, h]

/-! ### Writes of the lower-port registers -/

theorem getLsbD_mergeWrite (ro old v : Word) (i : Nat) :
    (mergeWrite ro old v).getLsbD i = if ro.getLsbD i then old.getLsbD i else (decide (i < 16) && v.getLsbD i) := by
  unfold mergeWrite
  simp only [BitVec.getLsbD_or, BitVec.getLsbD_and, BitVec.getLsbD_not]
  cases h : ro.getLsbD i <;> simp [Bool.and_comm]

/-- A field that the device does not drive takes the written value. -/
theorem getField_mergeWrite_written (f g : Field) (n : Nat) (old v : Word) (h : f.disjoint g = true) :
    getField f n (mergeWrite (fieldMask g) old v) = getField f n v := by
  apply BitVec.eq_of_getLsbD_eq
  intro i hi
  rw [getLsbD_getField, getLsbD_getField, getLsbD_mergeWrite, getLsbD_fieldMask]
  simp [Field.disjoint] at h
  by_cases h1 : i < f.width
  · by_cases h2 : f.lo + i < 16
    · have h3 : ¬(g.lo ≤ f.lo + i ∧ f.lo + i < g.lo + g.width) := by omega
      simp only [h2, decide_true, Bool.true_and, Bool.and_eq_true, decide_eq_true_eq, if_neg h3]
    · have a := BitVec.getLsbD_of_ge v (f.lo + i) (by omega)
      have b := BitVec.getLsbD_of_ge old (f.lo + i) (by omega)
      simp [a, b]
  · simp [h1]

/-- A field that the device drives keeps its value. -/
theorem getField_mergeWrite_kept (g : Field) (n : Nat) (old v : Word) :
    getField g n (mergeWrite (fieldMask g) old v) = getField g n old := by
  apply BitVec.eq_of_getLsbD_eq
  intro i hi
  rw [getLsbD_getField, getLsbD_getField, getLsbD_mergeWrite, getLsbD_fieldMask]
  by_cases h1 : i < g.width
  · by_cases h2 : g.lo + i < 16
    · simp [h1, h2]
    · have a := BitVec.getLsbD_of_ge v (g.lo + i) (by omega)
      have b := BitVec.getLsbD_of_ge old (g.lo + i) (by omega)
      simp [a, b]
  · simp [h1]

/-- The bits of XCSR that the device drives: `READY` alone (R45). -/
theorem regRo_xcsr {c : Cfg} (h : c.layout.shaped = true) : regRo c .xcsr = fieldMask c.layout.xcsrREADY := by
  simp [regRo, regFields, accessBits, (Layout.shaped_xcsrREADY h).2, (Layout.shaped_xcsrTIE h).2]

/-- The bits of RCSR that the device drives: `DONE` alone (R43). -/
theorem regRo_rcsr {c : Cfg} (h : c.layout.shaped = true) : regRo c .rcsr = fieldMask c.layout.rcsrDONE := by
  simp [regRo, regFields, accessBits, (Layout.shaped_rcsrDONE h).2, (Layout.shaped_rcsrRIE h).2]

/-- What a write of CS does to the controller (R49 a, R227, R37): it selects the drive that `DS` then names, and starts a
command exactly when it clears `CRDY`, which no write does where `CRDY` is `RO`. -/
theorem portWrite_cs_acts (s : State) (v : Word) :
    (portWrite .cs v s).sel = csDrive s.cfg (portWrite .cs v s).cs
    ∧ (csReady s.cfg (portWrite .cs v s).cs = true ∨ s.cfg.layout.csCRDY.access = .ro →
        (portWrite .cs v s).cmd = s.cmd)
    ∧ (csReady s.cfg (portWrite .cs v s).cs = false → s.cfg.layout.csCRDY.access ≠ .ro →
        (portWrite .cs v s).cmd
          = some ⟨csFunction s.cfg (portWrite .cs v s).cs, csDrive s.cfg (portWrite .cs v s).cs⟩) := by
  refine ⟨rfl, ?_, ?_⟩ <;> simp only [portWrite, startedBy]
  · rintro (h | h) <;> simp [h]
  · intro h h'; simp [h, h']

/-- The bits that the block writes 0 to: `BAX` and `IE` of CS, and none in any other register (R38 to R46). -/
theorem regW0_cs {c : Cfg} (h : c.layout.shaped = true) :
    regW0 c .cs = fieldMask c.layout.csBAX ||| fieldMask c.layout.csIE := by
  simp [regW0, regFields, accessBits, (Layout.shaped_csDRDY h).2, (Layout.shaped_csF h).2, (Layout.shaped_csBAX h).2,
    (Layout.shaped_csIE h).2, (Layout.shaped_csCRDY h).2, (Layout.shaped_csDS h).2, (Layout.shaped_csE h).2,
    (Layout.shaped_csDE h).2, (Layout.shaped_csCE h).2]

theorem regW0_other {c : Cfg} (h : c.layout.shaped = true) {r : Reg} (hr : r ≠ .cs) : regW0 c r = 0#16 := by
  cases r
  · exact absurd rfl hr
  all_goals
    simp [regW0, regFields, accessBits, (Layout.shaped_baADDR h).2, (Layout.shaped_daWORD h).2, (Layout.shaped_mpWORD h).2,
      (Layout.shaped_rcsrDONE h).2, (Layout.shaped_rcsrRIE h).2, (Layout.shaped_rbufDATA h).2,
      (Layout.shaped_xcsrREADY h).2, (Layout.shaped_xcsrTIE h).2, (Layout.shaped_xbufDATA h).2]

/-- Under the default access rights every register but XBUF shows what it holds (R38 to R46). -/
theorem openBits_shaped {c : Cfg} (h : c.layout.shaped = true) {r : Reg} (hr : r ≠ .xbuf) : openBits c r = 0#16 := by
  cases r
  case xbuf => exact absurd rfl hr
  all_goals
    simp [openBits, regFields, accessBits, (Layout.shaped_csDRDY h).2, (Layout.shaped_csF h).2,
      (Layout.shaped_csBAX h).2, (Layout.shaped_csIE h).2, (Layout.shaped_csCRDY h).2, (Layout.shaped_csDS h).2,
      (Layout.shaped_csE h).2, (Layout.shaped_csDE h).2, (Layout.shaped_csCE h).2, (Layout.shaped_baADDR h).2,
      (Layout.shaped_daWORD h).2, (Layout.shaped_mpWORD h).2, (Layout.shaped_rcsrDONE h).2, (Layout.shaped_rcsrRIE h).2,
      (Layout.shaped_rbufDATA h).2, (Layout.shaped_xcsrREADY h).2, (Layout.shaped_xcsrTIE h).2]

theorem regValue_closed {r : Reg} {s : State} (h : openBits s.cfg r = 0#16) : regValue r s = portWord r s := if_pos h

theorem drawOpen_closed {r : Reg} {s : State} (h : openBits s.cfg r = 0#16) : drawOpen r s = s := by simp [drawOpen, h]

/-- Under the default access rights a read of a register other than XBUF returns the word it holds. -/
theorem regValue_shaped {r : Reg} {s : State} (h : s.cfg.layout.shaped = true) (hr : r ≠ .xbuf) :
    regValue r s = portWord r s := regValue_closed (openBits_shaped h hr)

/-- A word is unchanged by clearing bits that it does not have. -/
theorem and_not_of_and_zero {v m : Word} (h : v &&& m = 0#16) : v &&& ~~~m = v := by
  apply BitVec.eq_of_getLsbD_eq
  intro i hi
  have e : (v &&& m).getLsbD i = (0#16).getLsbD i := by rw [h]
  rw [BitVec.getLsbD_and] at e
  rw [BitVec.getLsbD_and, BitVec.getLsbD_not]
  cases hv : v.getLsbD i <;> cases hm : m.getLsbD i <;> simp_all

theorem blockWord_noW0 {c : Cfg} {r : Reg} (v : Word) (h : regW0 c r = 0#16) : blockWord c r v = v := by
  rw [blockWord, h]
  exact and_not_of_and_zero (by simp)

/-- Under the default access rights the block writes to a register other than CS what it is given. -/
theorem blockWord_other {c : Cfg} (h : c.layout.shaped = true) {r : Reg} (hr : r ≠ .cs) (v : Word) :
    blockWord c r v = v := blockWord_noW0 v (regW0_other h hr)

theorem xcsr_disjoint {c : Cfg} (h : c.layout.wf = true) :
    c.layout.xcsrTIE.disjoint c.layout.xcsrREADY = true := by
  have := fieldsOk_disjoint (Layout.wf_xcsr h)
  rw [Field.disjoint_comm]
  simpa using this

/-- A bit that no field of the access right covers is not among the register's bits of that right. -/
theorem accessBits_bit {a : AccessRight} {fs : List Field} {i : Nat} (h : (accessBits a fs).getLsbD i = true) :
    ∃ f ∈ fs, f.access = a ∧ (fieldMask f).getLsbD i = true := by
  induction fs with
  | nil => simp [accessBits] at h
  | cons f fs ih =>
    rw [accessBits, BitVec.getLsbD_or, Bool.or_eq_true] at h
    rcases h with h | h
    · by_cases ha : f.access = a
      · exact ⟨f, List.mem_cons_self, ha, by simpa [ha] using h⟩
      · simp [ha] at h
    · obtain ⟨g, hg, hga, hb⟩ := ih h
      exact ⟨g, List.mem_cons_of_mem _ hg, hga, hb⟩

theorem bit_accessBits {a : AccessRight} {fs : List Field} {f : Field} {i : Nat} (hf : f ∈ fs) (ha : f.access = a)
    (h : (fieldMask f).getLsbD i = true) : (accessBits a fs).getLsbD i = true := by
  induction fs with
  | nil => cases hf
  | cons g fs ih =>
    rw [accessBits, BitVec.getLsbD_or, Bool.or_eq_true]
    rcases List.mem_cons.mp hf with rfl | hf
    · exact .inl (by simpa [ha] using h)
    · exact .inr (ih hf)

/-- Two fields of one word that both hold a bit are the same field. -/
theorem fieldsOk_unique {fs : List Field} (h : fieldsOk fs = true) {f g : Field} (hf : f ∈ fs) (hg : g ∈ fs) {i : Nat}
    (hi : (fieldMask f).getLsbD i = true) (hj : (fieldMask g).getLsbD i = true) : f = g := by
  have apart : ∀ a b : Field, a.disjoint b = true → (fieldMask a).getLsbD i = true → (fieldMask b).getLsbD i = true →
      False := by
    intro a b d ha hb
    rw [getLsbD_fieldMask] at ha hb
    simp [Field.disjoint] at ha hb d
    omega
  induction fs with
  | nil => cases hf
  | cons x xs ih =>
    simp only [fieldsOk, Bool.and_eq_true, List.all_eq_true] at h
    rcases List.mem_cons.mp hf with rfl | hf' <;> rcases List.mem_cons.mp hg with rfl | hg'
    · rfl
    · exact (apart _ _ (h.2.1 _ hg') hi hj).elim
    · exact (apart _ _ (h.2.1 _ hf') hj hi).elim
    · exact ih h.2.2 hf' hg'

/-- A field has none of the bits of another access right (R37). -/
theorem accessBits_other {a : AccessRight} {fs : List Field} (h : fieldsOk fs = true) {f : Field} (hf : f ∈ fs)
    (ha : f.access ≠ a) {i : Nat} (hi : (fieldMask f).getLsbD i = true) : (accessBits a fs).getLsbD i = false := by
  by_contra hn
  obtain ⟨g, hg, hga, hb⟩ := accessBits_bit (by simpa using hn)
  exact ha (fieldsOk_unique h hf hg hi hb ▸ hga)

/-- The fields of each register fit and do not overlap (R37). -/
theorem regFields_ok {c : Cfg} (h : c.layout.wf = true) (r : Reg) : fieldsOk (regFields c r) = true := by
  cases r
  · exact Layout.wf_cs h
  · exact Layout.wf_ba h
  · exact Layout.wf_da h
  · exact Layout.wf_mp h
  · exact Layout.wf_rcsr h
  · exact Layout.wf_rbuf h
  · exact Layout.wf_xcsr h
  · exact Layout.wf_xbuf h

/-- The lowest bit of a field that fits. -/
theorem fieldMask_lo {f : Field} (h : 1 ≤ f.width ∧ f.lo + f.width ≤ 16) : (fieldMask f).getLsbD f.lo = true := by
  have h16 : f.lo < 16 := by omega
  rw [getLsbD_fieldMask]
  simp [h16, show 0 < f.width from h.1]

/-- Writing the TIE word to XCSR sets `TIE` to the given value (R45, R109). -/
theorem tie_regWrite_tieWord {s : State} (t : Bool) (h : s.cfg.layout.wf = true)
    (ha : s.cfg.layout.xcsrTIE.access = .rw) : tie (regWrite .xcsr (tieWord s.cfg t) s) = t := by
  have hx := Layout.fits_xcsrTIE h
  have ok := regFields_ok h .xcsr
  have mem : s.cfg.layout.xcsrTIE ∈ regFields s.cfg .xcsr := by simp [regFields]
  have ro : (regRo s.cfg .xcsr).getLsbD s.cfg.layout.xcsrTIE.lo = false :=
    accessBits_other ok mem (by simp [ha]) (fieldMask_lo hx)
  have w0 : (regW0 s.cfg .xcsr).getLsbD s.cfg.layout.xcsrTIE.lo = false :=
    accessBits_other ok mem (by simp [ha]) (fieldMask_lo hx)
  have h16 : s.cfg.layout.xcsrTIE.lo < 16 := by omega
  simp only [tie, regWrite, portWrite, flagField_eq _ _ hx.1, getLsbD_mergeWrite, blockWord, tieWord,
    BitVec.getLsbD_and, BitVec.getLsbD_not, getLsbD_putField, ro, w0]
  cases t <;> simp [h16, show 0 < s.cfg.layout.xcsrTIE.width from hx.1]

/-- Writing XBUF leaves `TIE` as it was (R48 b). -/
theorem tie_regWrite_xbuf {s : State} (v : Word) (h : s.cfg.layout.wf = true) :
    tie (regWrite .xbuf v s) = tie s := by
  simp only [tie, regWrite, portWrite]
  exact flagField_setField_other _ _ _ _ (xcsr_disjoint h)

/-! ### What a presented CS value reads as -/

/-- After the controller presents a CS value, CS holds it (R49 d, R110). -/
theorem csValue_presentCs {s : State} (v : Word) (h : s.cfg.layout.wf = true) : csValue (presentCs v s) = v := by
  have hw := (Layout.fits_csDRDY h).1
  have e : BitVec.ofBool (csDriveReady s.cfg v) = getField { s.cfg.layout.csDRDY with width := 1 } 1 v := by
    have k : ∀ x : BitVec 1, BitVec.ofBool (x.getLsbD 0) = x := by decide
    rw [csDriveReady, flagField_eq _ _ hw, ← k (getField _ 1 v), getLsbD_getField]
    simp
  simp only [csValue, selectedReady, presentCs, setDrive, Vector.getElem_set_self, e]
  exact setField_getField _ 1 v rfl

/-! ### Register writes, field by field -/

theorem fieldMask_disjoint {f g : Field} (h : f.disjoint g = true) : fieldMask f &&& fieldMask g = 0#16 := by
  apply BitVec.eq_of_getLsbD_eq
  intro i hi
  simp only [BitVec.getLsbD_and, getLsbD_fieldMask]
  simp [Field.disjoint] at h
  simp
  omega

/-- A field inside the bits that the device drives keeps its value. -/
theorem getField_mergeWrite_inside (f : Field) (n : Nat) (ro old v : Word) (h : fieldMask f &&& ro = fieldMask f) :
    getField f n (mergeWrite ro old v) = getField f n old := by
  apply BitVec.eq_of_getLsbD_eq
  intro i hi
  rw [getLsbD_getField, getLsbD_getField, getLsbD_mergeWrite]
  by_cases h1 : i < f.width
  · by_cases h2 : f.lo + i < 16
    · have e : (fieldMask f &&& ro).getLsbD (f.lo + i) = (fieldMask f).getLsbD (f.lo + i) := by rw [h]
      rw [BitVec.getLsbD_and, getLsbD_fieldMask] at e
      have k : ro.getLsbD (f.lo + i) = true := by simpa [h1, h2] using e
      simp [k]
    · have b := BitVec.getLsbD_of_ge old (f.lo + i) (by omega)
      have d := BitVec.getLsbD_of_ge v (f.lo + i) (by omega)
      simp [b, d]
  · simp [h1]

/-- A field outside the bits that the device drives takes the written value. -/
theorem getField_mergeWrite_outside (f : Field) (n : Nat) (ro old v : Word) (h : fieldMask f &&& ro = 0#16) :
    getField f n (mergeWrite ro old v) = getField f n v := by
  apply BitVec.eq_of_getLsbD_eq
  intro i hi
  rw [getLsbD_getField, getLsbD_getField, getLsbD_mergeWrite]
  by_cases h1 : i < f.width
  · by_cases h2 : f.lo + i < 16
    · have e : (fieldMask f &&& ro).getLsbD (f.lo + i) = (0#16).getLsbD (f.lo + i) := by rw [h]
      rw [BitVec.getLsbD_and, getLsbD_fieldMask] at e
      have k : ro.getLsbD (f.lo + i) = false := by simpa [h1, h2] using e
      rw [k]
      simp [h2]
    · have b := BitVec.getLsbD_of_ge old (f.lo + i) (by omega)
      have d := BitVec.getLsbD_of_ge v (f.lo + i) (by omega)
      simp [b, d]
  · simp [h1]

/-- The bits of CS that the device drives: `DRDY`, `E`, `DE` and `CE` (R38). -/
theorem regRo_cs {c : Cfg} (h : c.layout.shaped = true) :
    regRo c .cs = fieldMask c.layout.csDRDY
      ||| (fieldMask c.layout.csE ||| (fieldMask c.layout.csDE ||| fieldMask c.layout.csCE)) := by
  simp [regRo, regFields, accessBits, (Layout.shaped_csDRDY h).2, (Layout.shaped_csF h).2, (Layout.shaped_csBAX h).2,
    (Layout.shaped_csIE h).2, (Layout.shaped_csCRDY h).2, (Layout.shaped_csDS h).2, (Layout.shaped_csE h).2,
    (Layout.shaped_csDE h).2, (Layout.shaped_csCE h).2]

/-- BA, DA, MP and XBUF have no bit that the device drives (R40 to R42, R46). -/
theorem regRo_none {c : Cfg} (h : c.layout.shaped = true) {r : Reg} (hr : r = .ba ∨ r = .da ∨ r = .mp ∨ r = .xbuf) :
    regRo c r = 0#16 := by
  rcases hr with rfl | rfl | rfl | rfl <;>
    simp [regRo, regFields, accessBits, (Layout.shaped_baADDR h).2, (Layout.shaped_daWORD h).2, (Layout.shaped_mpWORD h).2,
      (Layout.shaped_xbufDATA h).2]

/-- A register with no bit that the device drives holds the written word. -/
theorem mergeWrite_zero (old v : Word) : mergeWrite 0#16 old v = v := by
  apply BitVec.eq_of_getLsbD_eq
  intro i hi
  rw [getLsbD_mergeWrite]
  simp [hi]

/-- The fields of CS after a write: `F`, `DS`, `CRDY`, `BAX` and `IE` as written, `E`, `DE` and `CE` as before (R38). -/
theorem mergeWrite_cs {c : Cfg} (hc : c.standard = true) (old v : Word) :
    csFunction c (mergeWrite (regRo c .cs) old v) = csFunction c v
    ∧ csDrive c (mergeWrite (regRo c .cs) old v) = csDrive c v
    ∧ csReady c (mergeWrite (regRo c .cs) old v) = csReady c v
    ∧ getField c.layout.csBAX 2 (mergeWrite (regRo c .cs) old v) = getField c.layout.csBAX 2 v
    ∧ getField c.layout.csIE 1 (mergeWrite (regRo c .cs) old v) = getField c.layout.csIE 1 v
    ∧ csError c (mergeWrite (regRo c .cs) old v) = csError c old
    ∧ csDriveError c (mergeWrite (regRo c .cs) old v) = csDriveError c old
    ∧ csCompositeError c (mergeWrite (regRo c .cs) old v) = csCompositeError c old := by
  have h := Cfg.standard_shaped hc
  have d := fieldsOk_disjoint (Layout.wf_cs (Cfg.standard_layout hc))
  simp only [List.pairwise_cons, List.mem_cons, List.not_mem_nil, or_false, forall_eq_or_imp, forall_eq] at d
  obtain ⟨⟨d1, d2, d3, d4, d5, d6, d7, d8⟩, ⟨-, -, -, -, e6, e7, e8⟩, ⟨-, -, -, f6, f7, f8⟩, ⟨-, -, g6, g7, g8⟩,
    ⟨-, h6, h7, h8⟩, ⟨i6, i7, i8⟩, ⟨j7, j8⟩, k8, -⟩ := d
  have cm : ∀ a b c : Word, a &&& (b ||| c) = (a &&& b) ||| (a &&& c) := by
    intro a b c
    apply BitVec.eq_of_getLsbD_eq
    intro i hi
    simp [Bool.and_or_distrib_left]
  have sw : ∀ {f g : Field}, f.disjoint g = true → fieldMask g &&& fieldMask f = 0#16 := fun h => by
    rw [Field.disjoint_comm] at h
    exact fieldMask_disjoint h
  simp only [csFunction, csDrive, csReady, csError, csDriveError, csCompositeError, flagField]
  refine ⟨?_, ?_, ?_, ?_, ?_, ?_, ?_, ?_⟩
  · rw [getField_mergeWrite_outside]
    simp [regRo_cs h, cm, sw d1, fieldMask_disjoint e6, fieldMask_disjoint e7, fieldMask_disjoint e8]
  · rw [getField_mergeWrite_outside]
    simp [regRo_cs h, cm, sw d5, fieldMask_disjoint i6, fieldMask_disjoint i7, fieldMask_disjoint i8]
  · rw [getField_mergeWrite_outside]
    simp [regRo_cs h, cm, sw d4, fieldMask_disjoint h6, fieldMask_disjoint h7, fieldMask_disjoint h8]
  · rw [getField_mergeWrite_outside]
    simp [regRo_cs h, cm, sw d2, fieldMask_disjoint f6, fieldMask_disjoint f7, fieldMask_disjoint f8]
  · rw [getField_mergeWrite_outside]
    simp [regRo_cs h, cm, sw d3, fieldMask_disjoint g6, fieldMask_disjoint g7, fieldMask_disjoint g8]
  · rw [getField_mergeWrite_inside]
    simp [regRo_cs h, cm, sw d6, fieldMask_disjoint j7, fieldMask_disjoint j8]
  · rw [getField_mergeWrite_inside]
    simp [regRo_cs h, cm, sw d7, sw j7, fieldMask_disjoint k8]
  · rw [getField_mergeWrite_inside]
    simp [regRo_cs h, cm, sw d8, sw j8, sw k8]

/-- The words of BA, DA and MP are the 16-bit values themselves under the default widths (R40 to R42). -/
theorem wordFields_full {c : Cfg} (hc : c.standard = true) (w : Word) :
    baWord c w = w ∧ baOfWord c w = w ∧ daWord c w = w ∧ mpWord c w = w ∧ mpOfWord c w = w := by
  have l := Cfg.standard_layout hc
  have h := Cfg.standard_shaped hc
  exact ⟨putField_full _ _ (Layout.shaped_baADDR h).1 (Layout.fits_baADDR l).2,
    getField_full _ _ (Layout.shaped_baADDR h).1 (Layout.fits_baADDR l).2,
    putField_full _ _ (Layout.shaped_daWORD h).1 (Layout.fits_daWORD l).2,
    putField_full _ _ (Layout.shaped_mpWORD h).1 (Layout.fits_mpWORD l).2,
    getField_full _ _ (Layout.shaped_mpWORD h).1 (Layout.fits_mpWORD l).2⟩

theorem putField_and_mask {f g : Field} {n : Nat} (v : BitVec n) (h : f.disjoint g = true) :
    putField f v &&& fieldMask g = 0#16 := by
  apply BitVec.eq_of_getLsbD_eq
  intro i hi
  rw [BitVec.getLsbD_and, getLsbD_putField, getLsbD_fieldMask]
  simp [Field.disjoint] at h
  by_cases h1 : f.lo ≤ i <;> by_cases h2 : i < f.lo + f.width <;> simp [h1, h2, hi]
  intros; omega

/-- The command word has 0 in every `W0` field already, so that the block puts it on the port as it is (R38, R108). -/
theorem blockWord_csCmd {c : Cfg} (hc : c.standard = true) (d : Drive) (fn : Fn) :
    blockWord c .cs (csCmd c d fn) = csCmd c d fn := by
  have p := fieldsOk_disjoint (Layout.wf_cs (Cfg.standard_layout hc))
  simp only [List.pairwise_cons, List.mem_cons, List.not_mem_nil, or_false, forall_eq_or_imp, forall_eq] at p
  obtain ⟨-, ⟨a1, a2, -⟩, ⟨-, -, b1, -⟩, ⟨-, c1, -⟩, -⟩ := p
  rw [Field.disjoint_comm] at b1 c1
  unfold blockWord
  apply and_not_of_and_zero
  rw [regW0_cs (Cfg.standard_shaped hc), csCmd]
  have dist : ∀ w x y z : Word, (w ||| x) &&& (y ||| z) = (w &&& y ||| w &&& z) ||| (x &&& y ||| x &&& z) := by
    intro w x y z
    apply BitVec.eq_of_getLsbD_eq
    intro i hi
    simp only [BitVec.getLsbD_and, BitVec.getLsbD_or]
    cases w.getLsbD i <;> cases x.getLsbD i <;> simp
  rw [dist, putField_and_mask _ b1, putField_and_mask _ c1, putField_and_mask _ a1, putField_and_mask _ a2]
  rfl

/-! ### One access of the block under the default access rights -/

theorem afterRead_cs_eq {s : State} (h : s.cfg.layout.shaped = true) :
    afterRead .cs s = { s with bus := s.bus ++ [.read s.cfg.addr.cs (csValue s)] } := by
  have ho := openBits_shaped h (r := .cs) (by simp)
  simp [afterRead, drawOpen, regValue, portWord, regAddr, ho]

theorem afterRead_xcsr_eq {s : State} (h : s.cfg.layout.shaped = true) :
    afterRead .xcsr s = { s with bus := s.bus ++ [.read s.cfg.addr.xcsr s.xcsr] } := by
  have ho := openBits_shaped h (r := .xcsr) (by simp)
  simp [afterRead, drawOpen, regValue, portWord, regAddr, ho]

theorem afterRead_rbuf_eq {s : State} (h : s.cfg.layout.shaped = true) :
    afterRead .rbuf s = { s with
      rcsr := setField s.cfg.layout.rcsrDONE 0#1 s.rcsr
      bus := s.bus ++ [.read s.cfg.addr.rbuf s.rbuf] } := by
  have ho := openBits_shaped h (r := .rbuf) (by simp)
  simp [afterRead, drawOpen, regValue, portWord, regAddr, ho]

theorem afterRead_mp_eq {s : State} (h : s.cfg.layout.shaped = true) :
    afterRead .mp s = { s with
      mp := Config.freeWord s.free
      free := s.free + 1
      bus := s.bus ++ [.read s.cfg.addr.mp s.mp] } := by
  have ho := openBits_shaped h (r := .mp) (by simp)
  simp [afterRead, drawOpen, regValue, portWord, regAddr, ho]

theorem regWrite_ba_eq {s : State} (h : s.cfg.layout.shaped = true) (v : Word) :
    regWrite .ba v s = { s with ba := v, bus := s.bus ++ [.write s.cfg.addr.ba v] } := by
  simp [regWrite, portWrite, regAddr, blockWord_other h, regRo_none h, mergeWrite_zero]

theorem regWrite_da_eq {s : State} (h : s.cfg.layout.shaped = true) (v : Word) :
    regWrite .da v s = { s with da := v, bus := s.bus ++ [.write s.cfg.addr.da v] } := by
  simp [regWrite, portWrite, regAddr, blockWord_other h, regRo_none h, mergeWrite_zero]

theorem regWrite_mp_eq {s : State} (h : s.cfg.layout.shaped = true) (v : Word) :
    regWrite .mp v s = { s with mp := v, bus := s.bus ++ [.write s.cfg.addr.mp v] } := by
  simp [regWrite, portWrite, regAddr, blockWord_other h, regRo_none h, mergeWrite_zero]

theorem regWrite_xbuf_eq {s : State} (h : s.cfg.layout.shaped = true) (v : Word) :
    regWrite .xbuf v s = { s with
      xbuf := v
      xcsr := setField s.cfg.layout.xcsrREADY 0#1 s.xcsr
      bus := s.bus ++ [.write s.cfg.addr.xbuf v] } := by
  simp [regWrite, portWrite, regAddr, blockWord_other h, regRo_none h, mergeWrite_zero]

theorem regWrite_xcsr_eq {s : State} (h : s.cfg.layout.shaped = true) (v : Word) :
    regWrite .xcsr v s = { s with
      xcsr := mergeWrite (fieldMask s.cfg.layout.xcsrREADY) s.xcsr v
      bus := s.bus ++ [.write s.cfg.addr.xcsr v] } := by
  simp [regWrite, portWrite, regAddr, blockWord_other h, regRo_xcsr h]

/-! ### The address space of the lower port -/

/-- The two bytes of a value make it up again (R73). -/
theorem littleEndianWord_bytes (v : Word) : littleEndianWord (littleEndianByte v false) (littleEndianByte v true) = v := by
  apply BitVec.eq_of_getLsbD_eq
  intro i hi
  simp only [littleEndianWord, littleEndianByte]
  interval_cases i <;> simp

/-- `MemWrite(a, 2, v)` where a register sits is the write that reaches it (R12, R73). -/
theorem memWrite_eq {a : Addr} {v : Word} {s : State} {r : Reg} (ha : a.getLsbD 0 = false) (hr : regAt s.cfg a = some r) :
    memWrite a v s = some (portWrite r v s) := by
  rw [memWrite, ha, hr, littleEndianWord_bytes]
  rfl

/-- `MemWrite` reaches nothing at an odd address or where no register sits (R70, R76). -/
theorem memWrite_none {a : Addr} {v : Word} {s : State} (h : a.getLsbD 0 = true ∨ regAt s.cfg a = none) :
    memWrite a v s = none := by
  rcases h with h | h <;> simp [memWrite, h]

/-! ### The halves of the services -/

/-- A byte into a full ring: the oldest byte is dropped and counted (R121). -/
theorem receiveByte_full {s : State} (b : Byte) (h : s.rx.isFull s.cfg.rxCap = true) :
    receiveByte b s = { s with
      rx := (s.rx.push s.cfg.rxCap b).drop s.cfg.rxCap
      rxOvf := (s.rxOvf + 1) % 2 ^ s.cfg.ovfBits } := by
  rw [Ring.isFull, decide_eq_true_eq] at h
  exact if_pos h

/-- A byte into a ring with room (R121). -/
theorem receiveByte_room {s : State} (b : Byte) (h : s.rx.isFull s.cfg.rxCap = false) :
    receiveByte b s = { s with rx := s.rx.push s.cfg.rxCap b } := by
  rw [Ring.isFull, decide_eq_false_iff_not] at h
  exact if_neg h

/-- An empty transmit ring sends nothing and reads nothing (R123). -/
theorem sendByte_empty {s : State} (h : s.tx.isEmpty = true) : sendByte s = s := by simp [sendByte, h]

/-- A queued byte and a ready device: the oldest byte goes to XBUF (R123). -/
theorem sendByte_ready {s : State} (h : s.tx.isEmpty = false) (hr : flagField s.cfg.layout.xcsrREADY (regValue .xcsr s) = true) :
    sendByte s =
      regWrite .xbuf (xbufWord s.cfg s.tx.front) { afterRead .xcsr s with tx := s.tx.drop s.cfg.txCap } := by
  simp [sendByte, h, hr]

/-- A queued byte and a device that is not ready: XCSR is read and nothing is sent (R123). -/
theorem sendByte_notReady {s : State} (h : s.tx.isEmpty = false)
    (hr : flagField s.cfg.layout.xcsrREADY (regValue .xcsr s) = false) : sendByte s = afterRead .xcsr s := by
  simp [sendByte, h, hr]

end Sys2Proof.Machine
end

