-- ==== Sys2Proof/Laws/PerInstr.lean ====
section
/-! SUPPORT. Statements about every instruction as syntax, one lemma for each constructor. Family `RowMatch`: the
encoding of a request is selected by its row of the request table (spec/30_encoding.md R94), and a service or a
controller command word has no such row (R97). -/

namespace Sys2Proof.Laws

/-- The row of the request table that belongs to an instruction (R94). -/
def rowOf : Instr → Option ReqRow
  | .srxRd => some rowSrxRd
  | .stxWr _ => some rowStxWr
  | .srxAvail => some rowSrxAvail
  | .srtInit => some rowSrtInit
  | .sceInit => some rowSceInit
  | .cWaitc => some rowCWaitc
  | .cWaitd _ _ _ => some rowCWaitd
  | .cCmd _ _ => some rowCCmd
  | .cStat _ _ => some rowCStat
  | .cSeek _ _ _ => some rowCSeek
  | .cRdblk _ _ _ _ _ _ => some rowCRdblk
  | .cDecerr _ => some rowCDecerr
  | .cDecst _ => some rowCDecst
  | .svcRx => none
  | .svcTx => none
  | .getStatus _ => none
  | .seek _ => none
  | .readHeader _ => none
  | .readData _ => none

/-- The encoding of a well-formed instruction is selected by its row, if it has one. -/
def RowMatch.Statement (i : Instr) : Prop :=
  ∀ c : Cfg, i.wf = true →
    match encode c i, rowOf i with
    | .request q, some r => r.selects q = true
    | .event _, none => True
    | .command _, none => True
    | .request _, none => False
    | .event _, some _ => False
    | .command _, some _ => False

/-- Bit `n` of a request word, field by field (R91). -/
theorem getLsbD_reqWord (op : BitVec 4) (drv : Drive) (r s : Bool) (imm8 : Byte) (sec : BitVec 6) (hd : BitVec 1)
    (cyl : BitVec 9) (w16 ba : Word) (n : Nat) :
    (reqWord op drv r s imm8 sec hd cyl w16 ba).getLsbD n =
      if n < 4 then op.getLsbD n
      else if n < 6 then drv.getLsbD (n - 4)
      else if n < 7 then r && decide (n - 6 = 0)
      else if n < 8 then s && decide (n - 7 = 0)
      else if n < 16 then imm8.getLsbD (n - 8)
      else if n < 22 then sec.getLsbD (n - 16)
      else if n < 23 then hd.getLsbD (n - 22)
      else if n < 32 then cyl.getLsbD (n - 23)
      else if n < 48 then w16.getLsbD (n - 32)
      else ba.getLsbD (n - 48) := by
  by_cases hn : n < 64
  · interval_cases n <;> simp [reqWord]
  · have e : ba.getLsbD (n - 48) = false := BitVec.getLsbD_of_ge _ _ (by omega)
    have z : (reqWord op drv r s imm8 sec hd cyl w16 ba).getLsbD n = false := BitVec.getLsbD_of_ge _ _ (Nat.le_of_not_lt hn)
    rw [z, e]
    split_ifs <;> first | rfl | omega

/-- A row selects a word when, bit by bit, the word has the row's match wherever the row's mask is set (R94). -/
theorem selects_of_bits {r : ReqRow} {q : ReqWord}
    (h : ∀ n, n < 64 → (q.getLsbD n && r.mask.getLsbD n) = r.code.getLsbD n) : r.selects q = true := by
  simp only [ReqRow.selects, beq_iff_eq]
  apply BitVec.eq_of_getLsbD_eq
  intro n hn
  rw [BitVec.getLsbD_and]
  exact h n hn

theorem RowMatch.srxRd : RowMatch.Statement .srxRd := fun _ _ =>
  show rowSrxRd.selects (reqWord 0x1#4 0 false false 0 0 0 0 0 0) = true by decide

theorem RowMatch.stxWr (b : Byte) : RowMatch.Statement (.stxWr b) := by
  intro c h
  refine selects_of_bits (r := rowStxWr) (fun n hn => ?_)
  simp only [getLsbD_reqWord, rowStxWr]
  interval_cases n <;> simp

theorem RowMatch.srxAvail : RowMatch.Statement .srxAvail := fun _ _ =>
  show rowSrxAvail.selects (reqWord 0x3#4 0 false false 0 0 0 0 0 0) = true by decide

theorem RowMatch.srtInit : RowMatch.Statement .srtInit := fun _ _ =>
  show rowSrtInit.selects (reqWord 0x4#4 0 false false 0 0 0 0 0 0) = true by decide

theorem RowMatch.sceInit : RowMatch.Statement .sceInit := fun _ _ =>
  show rowSceInit.selects (reqWord 0x7#4 0 false false 0 0 0 0 0 0) = true by decide

theorem RowMatch.cWaitc : RowMatch.Statement .cWaitc := fun _ _ =>
  show rowCWaitc.selects (reqWord 0x8#4 0 false false 0 0 0 0 0 0) = true by decide

theorem RowMatch.cWaitd (d : Drive) (refresh reset : Bool) : RowMatch.Statement (.cWaitd d refresh reset) := by
  intro _ _
  show rowCWaitd.selects (reqWord 0x9#4 d refresh reset 0 0 0 0 0 0) = true
  clear * -
  revert d refresh reset
  decide

theorem RowMatch.cCmd (d : Drive) (fn : Fn) : RowMatch.Statement (.cCmd d fn) := by
  intro c _
  show rowCCmd.selects (reqWord 0xA#4 d false false ((Machine.fcode c fn).setWidth 8) 0 0 0 0 0) = true
  generalize Machine.fcode c fn = code
  clear * -
  revert d code
  decide

theorem RowMatch.cStat (d : Drive) (reset : Bool) : RowMatch.Statement (.cStat d reset) := by
  intro c _
  show rowCStat.selects (reqWord 0xB#4 d false reset 0 0 0 0 0 0) = true
  clear * -
  revert d reset
  decide

theorem RowMatch.cSeek (d : Drive) (hd : BitVec 1) (cyl : BitVec 9) : RowMatch.Statement (.cSeek d hd cyl) := by
  intro c h
  refine selects_of_bits (r := rowCSeek) (fun n hn => ?_)
  simp only [getLsbD_reqWord, rowCSeek]
  interval_cases n <;> simp

theorem RowMatch.cRdblk (d : Drive) (sec : BitVec 6) (hd : BitVec 1) (cyl : BitVec 9) (wc ba : Word) : RowMatch.Statement (.cRdblk d sec hd cyl wc ba) := by
  intro c h
  refine selects_of_bits (r := rowCRdblk) (fun n hn => ?_)
  simp only [getLsbD_reqWord, rowCRdblk]
  have hb : ba[0] = false := by simpa [Instr.wf] using h
  interval_cases n <;> simp [hb]

theorem RowMatch.cDecerr (w : Word) : RowMatch.Statement (.cDecerr w) := by
  intro c h
  refine selects_of_bits (r := rowCDecerr) (fun n hn => ?_)
  simp only [getLsbD_reqWord, rowCDecerr]
  interval_cases n <;> simp

theorem RowMatch.cDecst (w : Word) : RowMatch.Statement (.cDecst w) := by
  intro c h
  refine selects_of_bits (r := rowCDecst) (fun n hn => ?_)
  simp only [getLsbD_reqWord, rowCDecst]
  interval_cases n <;> simp

theorem RowMatch.svcRx : RowMatch.Statement .svcRx := fun _ _ => trivial

theorem RowMatch.svcTx : RowMatch.Statement .svcTx := fun _ _ => trivial

theorem RowMatch.getStatus (d : Drive) : RowMatch.Statement (.getStatus d) := fun _ _ => trivial

theorem RowMatch.seek (d : Drive) : RowMatch.Statement (.seek d) := fun _ _ => trivial

theorem RowMatch.readHeader (d : Drive) : RowMatch.Statement (.readHeader d) := fun _ _ => trivial

theorem RowMatch.readData (d : Drive) : RowMatch.Statement (.readData d) := fun _ _ => trivial

end Sys2Proof.Laws
end

