-- ==== Sys2Proof/Laws/Rings.lean ====
section
/-! SUPPORT. Laws of the rings: every ring operation keeps the indices in range, and what each does to the emptiness
and the count. -/

namespace Sys2Proof.Machine

theorem nextIdx_lt {cap i : Nat} (h : 0 < cap) : nextIdx cap i < cap := Nat.mod_lt _ h

/-- The advance of an index in range: one more, or back to 0. -/
theorem nextIdx_eq {cap i : Nat} (h : i < cap) : nextIdx cap i = if i + 1 = cap then 0 else i + 1 := by
  unfold nextIdx
  split
  · rename_i h1; rw [h1]; exact Nat.mod_self cap
  · exact Nat.mod_eq_of_lt (by omega)

theorem Ring.ok_iff (cap : Nat) (q : Ring) :
    q.ok cap = true ↔ q.buf.length = cap ∧ q.inIdx < cap ∧ q.outIdx < cap := by simp [Ring.ok]

theorem Ring.ok_push {cap : Nat} {q : Ring} (b : Byte) (h : q.ok cap = true) : (q.push cap b).ok cap = true := by
  rw [Ring.ok_iff] at h ⊢
  exact ⟨by simp [Ring.push, h.1], nextIdx_lt (by omega), h.2.2⟩

theorem Ring.ok_drop {cap : Nat} {q : Ring} (h : q.ok cap = true) : (q.drop cap).ok cap = true := by
  rw [Ring.ok_iff] at h ⊢
  exact ⟨h.1, h.2.1, nextIdx_lt (by omega)⟩

theorem Ring.ok_clear {cap : Nat} {q : Ring} (hc : 0 < cap) (h : q.ok cap = true) : q.clear.ok cap = true := by
  rw [Ring.ok_iff] at h ⊢
  exact ⟨h.1, hc, hc⟩

theorem Ring.isEmpty_clear (q : Ring) : q.clear.isEmpty = true := by simp [Ring.clear, Ring.isEmpty]

/-- The count in terms of the indices. -/
theorem Ring.count_eq {cap : Nat} {q : Ring} (hi : q.inIdx < cap) (ho : q.outIdx < cap) :
    q.count cap = if q.outIdx ≤ q.inIdx then q.inIdx - q.outIdx else q.inIdx + cap - q.outIdx := by
  unfold Ring.count
  split
  · rename_i h
    rw [Int.emod_eq_of_lt (by omega) (by omega)]
    omega
  · rename_i h
    have : ((q.inIdx : Int) - q.outIdx) % cap = (q.inIdx : Int) - q.outIdx + cap := by
      rw [← Int.add_emod_right, Int.emod_eq_of_lt (by omega) (by omega)]
    rw [this]
    omega

theorem Ring.count_lt {cap : Nat} {q : Ring} (hi : q.inIdx < cap) (ho : q.outIdx < cap) : q.count cap < cap := by
  rw [Ring.count_eq hi ho]
  split <;> omega

/-- A ring that is not full is not empty after a push. -/
theorem Ring.isEmpty_push {cap : Nat} {q : Ring} (b : Byte) : (q.push cap b).isEmpty = q.isFull cap := rfl

end Sys2Proof.Machine
end

