-- ==== Sys2Proof/Tests/Slice0.lean ====
section
/-! SUPPORT. Tests of the model. The expected values are those of spec/95_test_vectors.md (V-…) and of the rules named;
and for each obligation with hypotheses a witness that meets them. -/

namespace Sys2Proof.Tests

open Sys2Proof.Machine

/-! ### Well-formedness: each check refuses an ill-formed term -/

theorem test_wf_nop_refused : (Instr.cCmd 0 .nop).wf = false := by decide
theorem test_wf_write_data_refused : (Instr.cCmd 3 .writeData).wf = false := by decide
theorem test_wf_odd_address_refused : (Instr.cRdblk 0 5 1 100 128 0x1001#16).wf = false := by decide
theorem test_wf_even_address : (Instr.cRdblk 3 63 1 511 0xFFFF#16 0xFFFE#16).wf = true := by decide
theorem test_cfg_default : defaultCfg.wf = true := by decide
theorem test_cfg_ndrives : { defaultCfg with ndrives := 3 }.wf = false := by decide
theorem test_cfg_rx_cap : { defaultCfg with rxCap := 1 }.wf = false := by decide
theorem test_cfg_tx_cap : { defaultCfg with txCap := 1 }.wf = false := by decide
theorem test_cfg_ovf_bits : { defaultCfg with ovfBits := 15 }.wf = false := by decide
theorem test_cfg_sectors : { defaultCfg with sectorsPerTrack := 65 }.wf = false := by decide
theorem test_cfg_heads : { defaultCfg with heads := 3 }.wf = false := by decide
theorem test_cfg_cyl_small : { defaultCfg with cylSmall := 0 }.wf = false := by decide
theorem test_cfg_cyl_large : { defaultCfg with cylLarge := 513 }.wf = false := by decide
theorem test_cfg_odd_block : { defaultCfg with blockSize := 255 }.wf = false := by decide
theorem test_cfg_odd_address : { defaultCfg with addr := { defaultAddrs with cs := 0xF901#16 } }.wf = false := by decide
theorem test_cfg_same_address : { defaultCfg with addr := { defaultAddrs with ba := 0xF900#16 } }.wf = false := by decide
theorem test_cfg_same_code : { defaultCfg with fcode := { defaultFcode with seek := 2#3 } }.wf = false := by decide
/-- `DRDY` moved onto a bit of `F`. -/
theorem test_cfg_overlap : { defaultCfg with layout := { defaultLayout with csDRDY := ⟨3, 1, .ro⟩ } }.wf = false := by
  decide
/-- The cylinder field moved past bit 15. -/
theorem test_cfg_outside : { defaultCfg with layout := { defaultLayout with hdCYL := ⟨8, 9, .rw⟩ } }.wf = false := by
  decide
theorem test_cfg_empty_field : { defaultCfg with layout := { defaultLayout with csE := ⟨10, 0, .ro⟩ } }.wf = false := by
  decide
/-- Widths and access rights are the layout's (R37): an `E` field of three bits and a writable `CE` are well-formed, and
not the default ones. -/
def otherLayout : Layout := { defaultLayout with csE := ⟨10, 3, .ro⟩, csCE := ⟨15, 1, .rw⟩ }
theorem test_cfg_other_layout : { defaultCfg with layout := otherLayout }.wf = true := by decide
/-- The default configuration with `F`, `CRDY` and `DS` of CS read-only, which is well-formed. -/
def readOnlyCs : Cfg :=
  { defaultCfg with
    layout := { defaultLayout with csF := ⟨1, 3, .ro⟩, csCRDY := ⟨7, 1, .ro⟩, csDS := ⟨8, 2, .ro⟩ } }
theorem test_cfg_standard : defaultCfg.standard = true := by decide
theorem test_cfg_not_standard : { defaultCfg with layout := otherLayout }.standard = false := by decide
theorem test_cfg_width : { defaultLayout with csE := ⟨10, 3, .ro⟩ }.shaped = false := by decide
theorem test_cfg_access : { defaultLayout with csCE := ⟨15, 1, .rw⟩ }.shaped = false := by decide

/-! ### Decoding: words written out from the encoding of R91 (V-ENC-1 to V-ENC-22), R97 and R108 (V-DW-16, V-DW-17) -/

theorem test_decode_srxRd : decodeRequest defaultCfg 0x0000000000000001#64 = .ok .srxRd := by decide
theorem test_decode_stxWr : decodeRequest defaultCfg 0x0000000000004102#64 = .ok (.stxWr 0x41) := by decide
theorem test_decode_stxWr_top : decodeRequest defaultCfg 0x000000000000FF02#64 = .ok (.stxWr 0xFF) := by decide
theorem test_decode_srxAvail : decodeRequest defaultCfg 0x0000000000000003#64 = .ok .srxAvail := by decide
theorem test_decode_srtInit : decodeRequest defaultCfg 0x0000000000000004#64 = .ok .srtInit := by decide
theorem test_decode_sceInit : decodeRequest defaultCfg 0x0000000000000007#64 = .ok .sceInit := by decide
theorem test_decode_cWaitc : decodeRequest defaultCfg 0x0000000000000008#64 = .ok .cWaitc := by decide
theorem test_decode_cWaitd : decodeRequest defaultCfg 0x0000000000000079#64 = .ok (.cWaitd 3 true false) := by decide
theorem test_decode_cWaitd_s : decodeRequest defaultCfg 0x00000000000000B9#64 = .ok (.cWaitd 3 false true) := by decide
theorem test_decode_cCmd : decodeRequest defaultCfg 0x000000000000023A#64 = .ok (.cCmd 3 .getStatus) := by decide
theorem test_decode_cCmd_read : decodeRequest defaultCfg 0x000000000000060A#64 = .ok (.cCmd 0 .readData) := by decide
theorem test_decode_cStat : decodeRequest defaultCfg 0x00000000000000AB#64 = .ok (.cStat 2 true) := by decide
theorem test_decode_cSeek : decodeRequest defaultCfg 0x000000000540001C#64 = .ok (.cSeek 1 1 10) := by decide
theorem test_decode_cSeek_top : decodeRequest defaultCfg 0x00000000FFC0003C#64 = .ok (.cSeek 3 1 511) := by decide
theorem test_decode_cRdblk :
    decodeRequest defaultCfg 0xFFFE0080FFE7003D#64 = .ok (.cRdblk 3 39 1 511 128 0xFFFE) := by decide
theorem test_decode_cRdblk_low :
    decodeRequest defaultCfg 0x200000800187000D#64 = .ok (.cRdblk 0 7 0 3 128 0x2000) := by decide
theorem test_decode_cDecerr : decodeRequest defaultCfg 0x0000948D0000000E#64 = .ok (.cDecerr 0x948D) := by decide
theorem test_decode_cDecst : decodeRequest defaultCfg 0x0000008D0000000F#64 = .ok (.cDecst 0x008D) := by decide
theorem test_decode_svcRx : decodeTableWord 8 0 = some .svcRx := by decide
theorem test_decode_svcTx : decodeTableWord 8 1 = some .svcTx := by decide
theorem test_decode_getStatus : decodeTableWord 16 0x0204 = some (.getStatus 2) := by decide
theorem test_decode_seek : decodeTableWord 16 0x0106 = some (.seek 1) := by decide
theorem test_decode_readHeader : decodeTableWord 16 0x0108 = some (.readHeader 1) := by decide
theorem test_decode_readData : decodeTableWord 16 0x030C = some (.readData 3) := by decide

/-! ### Refused words, each by its name (R96, V-REF-1 to V-REF-16) -/

theorem test_refuse_op0 : decodeRequest defaultCfg 0x0000000000000000#64 = .error .reservedOp := by decide
theorem test_refuse_op5 : decodeRequest defaultCfg 0x0000000000000005#64 = .error .reservedOp := by decide
theorem test_refuse_op6 : decodeRequest defaultCfg 0x0000000000000006#64 = .error .reservedOp := by decide
theorem test_refuse_drv : decodeRequest defaultCfg 0x0000000000000011#64 = .error .unusedField := by decide
theorem test_refuse_bit16 : decodeRequest defaultCfg 0x0000000000010002#64 = .error .unusedField := by decide
theorem test_refuse_waitc_rs : decodeRequest defaultCfg 0x00000000000000C8#64 = .error .unusedField := by decide
theorem test_refuse_stat_r : decodeRequest defaultCfg 0x000000000000004B#64 = .error .unusedField := by decide
theorem test_refuse_nop : decodeRequest defaultCfg 0x000000000000000A#64 = .error .functionNotAdmitted := by decide
theorem test_refuse_fn5 : decodeRequest defaultCfg 0x000000000000050A#64 = .error .functionNotAdmitted := by decide
theorem test_refuse_fn7 : decodeRequest defaultCfg 0x000000000000070A#64 = .error .functionNotAdmitted := by decide
theorem test_refuse_bit11 : (decodeRequest defaultCfg 0x0000000000000A0A#64).toOption = none := by decide
theorem test_refuse_seek_sec : decodeRequest defaultCfg 0x000000000001000C#64 = .error .unusedField := by decide
theorem test_refuse_rdblk_imm : decodeRequest defaultCfg 0x000000000000010D#64 = .error .unusedField := by decide
theorem test_refuse_odd_ba : decodeRequest defaultCfg 0x100100803245000D#64 = .error .oddBusAddress := by decide
theorem test_refuse_decerr_drv : decodeRequest defaultCfg 0x000000000000001E#64 = .error .unusedField := by decide
theorem test_refuse_command_nop : decodeCommand defaultCfg 0x0000#16 = .error .functionNotAdmitted := by decide
theorem test_refuse_command_ie : decodeCommand defaultCfg 0x004C#16 = .error .notACommandWord := by decide

/-! ### Device words (R100 to R109, V-DW-1 to V-DW-20) -/

theorem test_daRd : daRd defaultCfg 100 1 5 = 0x3245#16 := by decide
theorem test_daSeek : daSeek defaultCfg 290 0 1 = 0x9111#16 := by decide
theorem test_daSeek_top : daSeek defaultCfg 511 1 1 = 0xFF95#16 := by decide
theorem test_daGs : daGs defaultCfg false = 0x0003#16 ∧ daGs defaultCfg true = 0x000B#16 := by decide
theorem test_mpWc : mpWc defaultCfg 1 = 0xFFFE#16 ∧ mpWc { defaultCfg with wcForm := .twos } 0 = 0x0000#16 := by decide
theorem test_tieWord : tieWord defaultCfg true = 0x0040#16 ∧ tieWord defaultCfg false = 0x0000#16 := by decide
theorem test_header :
    headerCyl defaultCfg 0x964C = 300 ∧ headerHead defaultCfg 0x964C = 1 ∧ headerSec defaultCfg 0x964C = 12 := by decide
/-- V-DW-7, P4 row 3: from cylinder 300 to 10. -/
theorem test_seek_back : seekMag 10 300 = 290 ∧ seekDir 10 300 = 0 ∧ seekMag 511 0 = 511 ∧ seekDir 511 0 = 1 := by decide

/-! ### One step of each instruction -/

/-- The outcome is a next state with the property. -/
def nextWith (o : Host.Outcome State Fault Refusal) (p : State → Bool) : Bool :=
  match o with
  | .next t => p t
  | .fault _ => false
  | .refused _ => false

/-- The reset state with one frame on the stack. -/
def atStep (op : Op) (n : Nat) : State := { State.reset with seq := .busy ⟨op, n, ⟨0, 0, 0⟩⟩ [] }

/-- The reset state with one move on its script. -/
def onMove (m : Move) : State := { State.reset with env := [m] }

/-- A receive ring that holds the bytes, from slot 0. -/
def rxHolding (s : State) (bs : List Byte) (i o : Nat) : State := { s with rx := ⟨bs, i, o⟩ }

/-- A transmit ring that holds the bytes, and the XCSR value. -/
def txHolding (s : State) (bs : List Byte) (i o : Nat) (x : Word) : State := { s with tx := ⟨bs, i, o⟩, xcsr := x }

/-- V-SRT-7. -/
theorem test_srxRd : nextWith (exec .srxRd (rxHolding (atStep (.request .srxRd) 2) [0, 0x42, 0, 0] 2 1))
    (fun t => decide (t.resp = some (.byte 0x42)) && decide (t.rx.outIdx = 2) && decide (t.seq = .idle)) = true := by
  decide
/-- V-SRT-8: it holds on an empty ring. -/
theorem test_srxRd_holds : nextWith (exec .srxRd (atStep (.request .srxRd) 1))
    (fun t => decide (t = atStep (.request .srxRd) 1)) = true := by decide
/-- V-SRT-12. -/
theorem test_stxWr : nextWith (exec (.stxWr 0x41) (atStep (.request (.stxWr 0x41)) 2))
    (fun t => decide (t.tx = ⟨[0x41, 0, 0, 0], 1, 0⟩) && decide (t.bus = [.write 0xFF74#16 0x0040#16])
      && decide (t.xcsr = 0x00C0#16) && decide (t.resp = some .ok)) = true := by decide
/-- V-SRT-13, the first pass. -/
theorem test_stxWr_full :
    nextWith (exec (.stxWr 0x44) (txHolding (atStep (.request (.stxWr 0x44)) 1) [1, 2, 3, 0] 3 0 0x00C0#16))
    (fun t => decide (t.tx.inIdx = 3) && decide (t.bus = [.write 0xFF74#16 0x0040#16])
      && decide (t.seq = (atStep (.request (.stxWr 0x44)) 1).seq)) = true := by decide
/-- V-SRT-10 and V-SRT-11. -/
theorem test_srxAvail : nextWith (exec .srxAvail (rxHolding (atStep (.request .srxAvail) 1) [0, 0, 0, 0] 1 3))
    (fun t => decide (t.resp = some (.count 2))) = true := by decide
theorem test_srxAvail_full : nextWith (exec .srxAvail (rxHolding (atStep (.request .srxAvail) 1) [0, 0, 0, 0] 3 0))
    (fun t => decide (t.resp = some (.count 3))) = true := by decide
/-- V-SRT-18. -/
theorem test_srtInit :
    nextWith (exec .srtInit { txHolding (rxHolding (atStep (.request .srtInit) 1) [9, 8, 7, 6] 2 1) [1, 2, 3, 4] 1 3 0 with rxOvf := 5 })
    (fun t => decide (t.rx = ⟨[9, 8, 7, 6], 0, 0⟩) && decide (t.tx = ⟨[1, 2, 3, 4], 0, 0⟩) && decide (t.rxOvf = 0)
      && decide (t.resp = some .ok)) = true := by decide
/-- V-SRT-1 with the word of V-SRT-6. -/
theorem test_svcRx : nextWith (exec .svcRx { State.reset with rbuf := 0x80C1#16, rcsr := 0x00C0#16 })
    (fun t => decide (t.rx = ⟨[0xC1, 0, 0, 0], 1, 0⟩) && decide (t.rcsr = 0x0040#16) && decide (t.rxOvf = 0)) = true := by
  decide
/-- V-SRT-2 with the counter of V-SRT-5. -/
theorem test_svcRx_full :
    nextWith (exec .svcRx { rxHolding State.reset [1, 2, 3, 0] 3 0 with rbuf := 0x34#16, rxOvf := 0xFFFF })
    (fun t => decide (t.rx = ⟨[1, 2, 3, 0x34], 0, 1⟩) && decide (t.rxOvf = 0)) = true := by decide
/-- V-SRT-14. -/
theorem test_svcTx : nextWith (exec .svcTx (txHolding State.reset [0x41, 0, 0, 0] 1 0 0x00C0#16))
    (fun t => decide (t.bus = [.read 0xFF74#16 0x00C0#16, .write 0xFF76#16 0x0041#16, .write 0xFF74#16 0x0000#16])
      && decide (t.tx.outIdx = 1) && decide (t.xcsr = 0x0000#16)) = true := by decide
/-- V-SRT-16. -/
theorem test_svcTx_empty : nextWith (exec .svcTx { State.reset with xcsr := 0x00C0#16 })
    (fun t => decide (t.bus = [.write 0xFF74#16 0x0000#16]) && decide (t.xcsr = 0x0080#16)) = true := by decide
/-- V-SCE-2. -/
theorem test_cWaitc : nextWith (exec .cWaitc { atStep (.request .cWaitc) 1 with cs := 0x8480#16 })
    (fun t => decide (t.ds.csImage = 0x8480#16) && decide (t.seq = .idle)) = true := by decide
theorem test_cWaitc_holds : nextWith (exec .cWaitc { atStep (.request .cWaitc) 1 with cs := 0x0000#16 })
    (fun t => decide (t.seq = (atStep (.request .cWaitc) 1).seq) && decide (t.ds = State.reset.ds)) = true := by decide
/-- V-SCE-4: `DRDY` ends the wait though `CE` is 1. -/
theorem test_cWaitd : nextWith (exec (.cWaitd 0 false false)
      { atStep (.request (.cWaitd 0 false false)) 2 with cs := 0x8080#16, drives := #v[true, false, false, false] })
    (fun t => decide (t.resp = some (.status State.reset.ds)) && decide (t.bus = [.read 0xF900#16 0x8081#16])) = true := by
  decide
/-- P4 row 5: the CS value of a drive that is not ready goes to step 3. -/
theorem test_cWaitd_error : nextWith (exec (.cWaitd 1 false false)
      { atStep (.request (.cWaitd 1 false false)) 2 with cs := 0xC186#16 })
    (fun t => decide (t.seq = .busy ⟨.request (.cWaitd 1 false false), 3, ⟨0xC186#16, 0, 0⟩⟩ [])) = true := by decide
/-- V-SCE-6, step 2. -/
theorem test_cCmd_write : nextWith (exec (.cCmd 1 .seek) (atStep (.request (.cCmd 1 .seek)) 2))
    (fun t => decide (t.bus = [.write 0xF900#16 0x0106#16]) && decide (t.ds.drive = 1)
      && decide (t.cmd = some ⟨3, 1⟩)) = true := by decide
/-- V-SCE-6, step 4. -/
theorem test_cCmd_outcome : nextWith (exec (.cCmd 1 .seek)
      { atStep (.request (.cCmd 1 .seek)) 4 with ds := { State.reset.ds with csImage := 0x8480#16 } })
    (fun t => decide (t.ds.lastError = 1) && decide (t.ds.errorLabel = .eOpi) && decide (t.seq = .idle)) = true := by
  decide
/-- V-SCE-8, step 1 and step 3. -/
theorem test_cStat_write : nextWith (exec (.cStat 0 true) (atStep (.request (.cStat 0 true)) 1))
    (fun t => decide (t.da = 0x000B#16) && decide (t.bus = [.write 0xF904#16 0x000B#16])) = true := by decide
theorem test_cStat_outcome : nextWith (exec (.cStat 0 true) { atStep (.request (.cStat 0 true)) 3 with mp := 0x008D#16 })
    (fun t => decide (t.ds.driveType = .large) && decide (t.ds.stateLabel = .sLockOn)
      && decide (t.ds.mpStatus = 0x008D#16)) = true := by decide
/-- V-SCE-11, step 2: the drive stands on the cylinder. -/
theorem test_cSeek_noop : nextWith (exec (.cSeek 0 1 3)
      { State.reset with seq := .busy ⟨.request (.cSeek 0 1 3), 2, ⟨0, 0x0182#16, 0⟩⟩ [] })
    (fun t => decide (t.seq = .idle) && decide (t.bus = []) && decide (t.ds = State.reset.ds)) = true := by decide
/-- V-SCE-12, step 3: from cylinder 10 to 3. -/
theorem test_cSeek_word : nextWith (exec (.cSeek 0 0 3)
      { State.reset with seq := .busy ⟨.request (.cSeek 0 0 3), 3, ⟨0, 0x0500#16, 10⟩⟩ [] })
    (fun t => decide (t.da = 0x0381#16)) = true := by decide
/-- V-SCE-11: step 2 of the read-header sub-sequence. -/
theorem test_rdhdr : nextWith (rdhdrStep 0 ⟨.rdhdr 0, 2, ⟨0, 0, 0⟩⟩ { State.reset with
      mp := 0x0182#16
      seq := .busy ⟨.rdhdr 0, 2, ⟨0, 0, 0⟩⟩ [⟨.request (.cSeek 0 1 3), 1, ⟨0, 0, 0⟩⟩] })
    (fun t => decide (t.ds.cylinder = 3) && decide (t.ds.head = 0) && decide (t.ds.sector = 2)
      && decide (t.seq = .busy ⟨.request (.cSeek 0 1 3), 2, ⟨0, 0x0182#16, 0⟩⟩ [])) = true := by decide
/-- V-SCE-14: 129 words, and 128, which pass. -/
theorem test_cRdblk_bounds : nextWith (exec (.cRdblk 0 0 0 0 129 0x1000) (atStep (.request (.cRdblk 0 0 0 0 129 0x1000)) 1))
    (fun t => decide (t.resp = some (.block .bounds State.reset.ds)) && decide (t.bus = [])) = true := by decide
/-- V-SCE-15: the write of DA. -/
theorem test_cRdblk_da :
    nextWith (exec (.cRdblk 0 5 1 100 128 0x1000) (atStep (.request (.cRdblk 0 5 1 100 128 0x1000)) 5))
    (fun t => decide (t.da = 0x3245#16) && decide (t.seq = (atStep (.request (.cRdblk 0 5 1 100 128 0x1000)) 6).seq)) = true := by
  decide
/-- V-SCE-19. -/
theorem test_cDecerr : nextWith (exec (.cDecerr 0x948D) (atStep (.request (.cDecerr 0x948D)) 1))
    (fun t => decide (t.resp = some (.errLabel .eHnf))) = true := by decide
theorem test_cDecerr_unknown : nextWith (exec (.cDecerr 0xFFFF) (atStep (.request (.cDecerr 0xFFFF)) 1))
    (fun t => decide (t.resp = some (.errLabel .eUnknown))) = true := by decide
/-- V-SCE-21. -/
theorem test_cDecst : nextWith (exec (.cDecst 0x0087) (atStep (.request (.cDecst 0x0087)) 1))
    (fun t => decide (t.resp = some (.stateLabel .sSpinDown))) = true := by decide
/-- V-SCE-22. -/
theorem test_sceInit : nextWith (exec .sceInit { atStep (.request .sceInit) 1 with
      ds := { State.reset.ds with lastError := 5, cylinder := 7 } })
    (fun t => decide (t.ds = State.reset.ds) && decide (t.resp = some .ok)) = true := by decide
/-- V-DW-16 and V-DW-17: the command words in CS, which held `CE`, `E` and `CRDY`. -/
theorem test_getStatus : nextWith (exec (.getStatus 2) { State.reset with cs := 0x9480#16 })
    (fun t => decide (t.cs = 0x9604#16) && decide (t.cmd = some ⟨2, 2⟩)) = true := by decide
theorem test_seek : nextWith (exec (.seek 1) State.reset)
    (fun t => decide (t.cs = 0x0106#16) && decide (t.cmd = some ⟨3, 1⟩)) = true := by decide
theorem test_readHeader : nextWith (exec (.readHeader 1) State.reset)
    (fun t => decide (t.cs = 0x0108#16) && decide (t.cmd = some ⟨4, 1⟩)) = true := by decide
theorem test_readData : nextWith (exec (.readData 3) State.reset)
    (fun t => decide (t.cs = 0x030C#16) && decide (t.bus = [.write 0xF900#16 0x030C#16])) = true := by decide

/-! ### The step -/

/-- Each kind of table word runs as the first instruction after reset (assumption 10). -/
theorem test_fetch_request : nextWith (step (State.reset.withFetchWord 64 0x4102))
    (fun t => decide (t.seq = (atStep (.request (.stxWr 0x41)) 1).seq)) = true := by decide
theorem test_fetch_event : nextWith (step (State.reset.withFetchWord 8 0))
    (fun t => decide (t.rx.inIdx = 1)) = true := by decide
theorem test_fetch_command : nextWith (step (State.reset.withFetchWord 16 0x000C))
    (fun t => decide (t.cs = 0x000C#16)) = true := by decide
/-- V-REF-1: a refused word gets `REFUSED` and the machine goes on (P5 row 5). -/
theorem test_step_refused : nextWith (step (onMove (.request 0#64)))
    (fun t => decide (t.resp = some .refused) && decide (t.seq = .idle)) = true := by decide
/-- V-EXC-5: RESET ends a blocked read with no response. -/
theorem test_step_reset : nextWith (step { atStep (.request .srxRd) 1 with env := [.reset none none] })
    (fun t => decide (t.seq = .idle) && decide (t.resp = none)) = true := by decide
/-- R48 c: a received byte sets `DONE`. -/
theorem test_step_receive : nextWith (step (onMove (.serialReceive 0x34#16)))
    (fun t => decide (t.rcsr = 0x0080#16) && decide (t.rbuf = 0x34#16)) = true := by decide
/-- R211: a reset that reaches the controller and not the serial device. -/
theorem test_step_reset_storage :
    nextWith (step { onMove (.reset none (some ⟨0x0200#16, 1, 2, 3, #v[true, false, false, false]⟩)) with
      rcsr := 0x00C0#16, rbuf := 0x55#16, xcsr := 0x0040#16 })
    (fun t => decide (t.cs = 0x0280#16) && decide (t.sel = 2) && decide (t.rcsr = 0x00C0#16)
      && decide (t.rbuf = 0x55#16) && decide (t.xcsr = 0x0040#16)) = true := by decide
/-- R211: a reset that reaches the serial device and not the controller. -/
theorem test_step_reset_serial :
    nextWith (step { onMove (.reset (some ⟨7, 8⟩) none) with rcsr := 0x00C0#16, xcsr := 0x0040#16, cmd := some ⟨6, 0⟩ })
    (fun t => decide (t.rcsr = 0x0000#16) && decide (t.xcsr = 0x0080#16) && decide (t.rbuf = 7)
      && decide (t.cmd = some ⟨6, 0⟩)) = true := by decide
/-- R216: each host's step of the serial boot, in its turn. -/
theorem test_step_boot_init : nextWith (step (onMove (.request 0x4#64)))
    (fun t => decide (t.boot = .initialised) && decide (t.seq = .busy ⟨.request .srtInit, 1, ⟨0, 0, 0⟩⟩ [])) = true := by
  decide
theorem test_step_boot_enable : nextWith (step { onMove (.hostRcsr true) with boot := .initialised })
    (fun t => decide (t.rcsr = 0x0040#16) && decide (t.boot = .enabled)) = true := by decide
/-- R214: the read of XCSR that shows `TIE = 0` ends the wait of a re-initialisation, and one that shows 1 does not. -/
theorem test_step_boot_drained : nextWith (step { onMove .hostReadXcsr with boot := .draining, xcsr := 0x0080#16 })
    (fun t => decide (t.boot = .start) && decide (t.hostXcsr = 0x0080#16)) = true := by decide
theorem test_step_boot_not_drained : nextWith (step { onMove .hostReadXcsr with boot := .draining, xcsr := 0x0040#16 })
    (fun t => decide (t.boot = .draining)) = true := by decide
/-- R197: the host has no move between the acceptance of `SRT_INIT` and its step 1 that enables the interrupt. -/
theorem test_step_boot_breach :
    step { atStep (.request .srtInit) 1 with boot := .initialised, env := [.hostRcsr true] } = .fault .hostDutyBroken := rfl
/-- R37: with `F`, `CRDY` and `DS` read-only a CS write selects no other drive and starts no command. -/
theorem test_read_only_cs :
    (regWrite .cs 0x0106#16 { State.reset with cfg := readOnlyCs, cs := 0x0280#16, sel := 2 }).sel = 2
    ∧ (regWrite .cs 0x0106#16 { State.reset with cfg := readOnlyCs, cs := 0x0280#16, sel := 2 }).cmd = none := by decide
/-- R76: an odd register address, and only that, is refused. -/
theorem test_step_odd_address :
    step { State.reset with cfg := { defaultCfg with addr := { defaultAddrs with mp := 0xF907#16 } } }
      = .refused .oddRegisterAddress := rfl
theorem test_step_other_ill_formed :
    nextWith (step { State.reset with cfg := { defaultCfg with ndrives := 3 } }) (fun t => decide (t.seq = .idle)) = true := by
  decide
/-- R227: drive 1 was selected last; a presented value that names drive 3 selects none, and its `DRDY` is drive 1's. -/
theorem test_selected_drive :
    nextWith (step { onMove (.ctlStatus 0x0381#16) with sel := 1 })
    (fun t => decide (t.sel = 1) && decide (t.drives = #v[false, true, false, false])
      && decide (regValue .cs t = 0x0381#16)) = true := by decide
/-- R37: under a layout with `F` of access `W0` the block writes 0 there, and under one with `CE` of access `RW` the
written bit stays. -/
theorem test_access_w0 :
    (regWrite .cs 0x0304#16 { State.reset with cfg := { defaultCfg with
      layout := { defaultLayout with csF := ⟨1, 3, .w0⟩ } } }).bus = [.write 0xF900#16 0x0300#16] := by decide
theorem test_access_rw :
    (regWrite .cs 0x8100#16 { State.reset with cfg := { defaultCfg with layout := otherLayout } }).cs = 0x8100#16 := by decide
/-- R37: what a read of a write-only field returns is a draw, one for each read. -/
theorem test_access_wo : (afterRead .xbuf State.reset).free = 1 ∧ (afterRead .xcsr State.reset).free = 0 := by decide
/-- R73: `MemWrite(0xF902, 2, 0x1234)`, its two bytes, and `MemRead` of them. -/
theorem test_memWrite :
    ((memWrite 0xF902#16 0x1234#16 State.reset).map
      (fun t => (portByte 0xF902#16 t, portByte 0xF903#16 t, memRead 0xF902#16 t)))
      = some (some 0x34#8, some 0x12#8, some 0x1234#16) := by decide
theorem test_memRead_nothing :
    memRead 0xF903#16 State.reset = none ∧ memRead 0x1000#16 State.reset = none := by decide
/-- R73: the byte at XBUF's even address is its `DATA`. -/
theorem test_xbuf_byte : portByte 0xFF76#16 { State.reset with xbuf := 0x0041#16 } = some 0x41#8 := by decide
/-- R74: byte 1 of the block at `BA + 1`, while a read-data command for 128 words is in flight. -/
theorem test_step_dma :
    nextWith (step { onMove (.dma 1 0x5A) with ba := 0x2000#16, mp := 0xFF7F#16, cmd := some ⟨6, 0⟩ })
    (fun t => decide (t.mem = [(0x2001, 0x5A)])) = true := by decide

/-! ### Witnesses: for each obligation with hypotheses, terms that meet them, clause by clause -/

theorem witness_DecodeEncodeRoundTrip :
    defaultCfg.wf = true ∧ (Instr.cRdblk 3 63 1 511 0xFFFF#16 0xFFFE#16).wf = true
    ∧ (Instr.cRdblk 3 63 1 511 0xFFFF#16 0xFFFE#16).isRequest = true
    ∧ (Instr.readData 3).wf = true ∧ 2 ≤ defaultCfg.layout.csDS.width ∧ 3 ≤ defaultCfg.layout.csF.width := by decide

theorem witness_DecodedRequestIsItsEncoding :
    defaultCfg.wf = true ∧ decodeRequest defaultCfg 0xFFFE0080FFE7003D#64 = .ok (.cRdblk 3 39 1 511 128 0xFFFE) := by
  decide

theorem witness_AtMostOneRowSelects :
    rowCStat ∈ reqRows ∧ rowCStat.selects 0xAB#64 = true ∧ rowCSeek ∈ reqRows ∧ rowCSeek.selects 0xFFC0003C#64 = true := by
  decide

/-- One word for each of the five clauses. -/
theorem witness_ReservedRequestsRefused :
    State.reset.cfg.addr.even = true ∧ (onMove (.request 0x6#64)).seq = .idle ∧ (onMove (.request 0x6#64)).env = [.request 0x6#64]
    ∧ reqOp 0x0#64 = 0x0#4 ∧ reqOp 0x5#64 = 0x5#4 ∧ reqOp 0x6#64 = 0x6#4
    ∧ (rowSrxRd ∈ reqRows ∧ rowSrxRd.code.extractLsb' 0 4 = reqOp 0x11#64 ∧ rowSrxRd.selects 0x11#64 = false)
    ∧ (reqOp 0x70A#64 = 0xA#4 ∧ fcode defaultCfg .getStatus ≠ reqFn 0x70A#64 ∧ fcode defaultCfg .seek ≠ reqFn 0x70A#64
      ∧ fcode defaultCfg .readHeader ≠ reqFn 0x70A#64 ∧ fcode defaultCfg .readData ≠ reqFn 0x70A#64)
    ∧ (reqOp 0x100100803245000D#64 = 0xD#4 ∧ (0x100100803245000D#64).getLsbD 48 = true) := by decide

theorem witness_WordCountWord :
    defaultCfg.wcForm = .ones ∧ { defaultCfg with wcForm := .twos }.wcForm = .twos := by decide

theorem witness_CommandWordFields :
    defaultCfg.wf = true ∧ 2 ≤ defaultCfg.layout.csDS.width ∧ 3 ≤ defaultCfg.layout.csF.width := by decide

/-- `C_SEEK 0, 3, 0` at step 3 with the drive on cylinder 10, in a good state. -/
def seeking : State := { State.reset with seq := .busy ⟨.request (.cSeek 0 0 3), 3, ⟨0, 0x0500#16, 10⟩⟩ [] }

theorem seeking_good : Inv seeking where
  cfg := by decide
  rx := by decide
  tx := by decide
  ovf := by decide
  seq := by decide
  room := fun _ _ _ _ => by decide
  byte := by intro l rest h; simp [seeking] at h
  tie := fun _ => by decide
  sel := fun _ => by decide
  rxEnable := fun _ _ => by decide
  init := fun _ => by decide
  label := by decide
  type := by decide
  mem := by decide

theorem witness_SeekArithmetic :
    (511#9 ≠ 0#9 ∧ seekDiff 511 0 = 511) ∧ (0#9 ≠ 511#9 ∧ seekDiff 0 511 = -511) ∧ seekDiff 7 7 = 0
    ∧ Inv seeking ∧ seeking.seq = .busy ⟨.request (.cSeek 0 0 3), 3, ⟨0, 0x0500#16, 10⟩⟩ [] :=
  ⟨by decide, by decide, by decide, seeking_good, rfl⟩

/-- A state for each clause: an odd address, an empty script, a request, an operation's turn, a turn of `RDHDR` and of the
idle sequencer, a dispatch with and without its request, and one that the default move makes. -/
theorem witness_StepRunsTheInstruction :
    (0xF901#16 ∈ { defaultAddrs with cs := 0xF901#16 }.toList ∧ (0xF901#16).getLsbD 0 = true)
    ∧ State.reset.cfg.addr.even = true
    ∧ (State.reset.env = [] ∧ nextMove State.reset = (.sequencer, []) ∧ State.reset.seq = .idle)
    ∧ (nextMove (onMove (.request 0x4#64)) = (.request 0x4#64, []) ∧ (onMove (.request 0x4#64)).seq = .idle
      ∧ decodeRequest defaultCfg 0x4#64 = .ok .srtInit
      ∧ rie (onMove (.request 0x4#64)) = false ∧ tie (onMove (.request 0x4#64)) = false
      ∧ (onMove (.request 0x4#64)).boot = .start)
    ∧ (nextMove (atStep (.request .cWaitc) 1) = (.sequencer, [])
      ∧ (atStep (.request .cWaitc) 1).seq = .busy ⟨.request .cWaitc, 1, ⟨0, 0, 0⟩⟩ [])
    ∧ (nextMove (atStep (.rdhdr 0) 2) = (.sequencer, []) ∧ (atStep (.rdhdr 0) 2).seq = .busy ⟨.rdhdr 0, 2, ⟨0, 0, 0⟩⟩ [])
    ∧ (nextMove { State.reset with rcsr := 0x00C0#16 } = (.dispatch .rx, []) ∧ irqRx { State.reset with rcsr := 0x00C0#16 } = true)
    ∧ (nextMove { State.reset with xcsr := 0x00C0#16 } = (.dispatch .tx, []) ∧ irqTx { State.reset with xcsr := 0x00C0#16 } = true)
    ∧ (nextMove (onMove (.dispatch .rx)) = (.dispatch .rx, []) ∧ irqRx (onMove (.dispatch .rx)) = false)
    ∧ (nextMove (onMove (.dispatch .tx)) = (.dispatch .tx, []) ∧ irqTx (onMove (.dispatch .tx)) = false) :=
  ⟨by decide, by decide, ⟨rfl, rfl, rfl⟩, ⟨rfl, rfl, by decide, by decide, by decide, rfl⟩, ⟨rfl, rfl⟩, ⟨rfl, rfl⟩,
    ⟨rfl, by decide⟩, ⟨rfl, by decide⟩, ⟨rfl, by decide⟩, rfl, by decide⟩

/-- A field of each access right; `BAX` and `DRDY` are different fields of CS. A CS write that starts a command under the
default layout, and read-only `F`, `CRDY` and `DS`. -/
theorem witness_RegisterAccessRights :
    State.reset.cfg.wf = true
    ∧ (defaultLayout.csBAX ∈ regFields State.reset.cfg .cs ∧ defaultLayout.csBAX ≠ defaultLayout.csDRDY
      ∧ defaultLayout.csBAX.access = .w0)
    ∧ (defaultLayout.rcsrDONE ∈ regFields State.reset.cfg .rcsr ∧ defaultLayout.rcsrDONE.access = .ro)
    ∧ (defaultLayout.mpWORD ∈ regFields State.reset.cfg .mp ∧ defaultLayout.mpWORD.access = .rw)
    ∧ (defaultLayout.xbufDATA ∈ regFields State.reset.cfg .xbuf ∧ defaultLayout.xbufDATA.access = .wo)
    ∧ (defaultLayout.csCRDY.access ≠ .ro ∧ csReady defaultCfg (regWrite .cs 0x0106#16 State.reset).cs = false)
    ∧ (readOnlyCs.wf = true ∧ readOnlyCs.layout.csF.access = .ro ∧ readOnlyCs.layout.csCRDY.access = .ro
      ∧ readOnlyCs.layout.csDS.access = .ro) := by decide

theorem witness_RequestAcceptance :
    Instr.srxRd.isRequest = true ∧ Instr.srxRd.wf = true ∧ (Instr.cCmd 0 .nop).isRequest = true
    ∧ (Instr.cCmd 0 .nop).wf = false ∧ State.reset.seq = .idle := by decide

theorem witness_RequestWhileBusyRefused :
    State.reset.cfg.addr.even = true ∧ { atStep (.request .srxRd) 1 with env := [.request 0x3#64] }.env = [.request 0x3#64]
    ∧ { atStep (.request .srxRd) 1 with env := [.request 0x3#64] }.seq = .busy ⟨.request .srxRd, 1, ⟨0, 0, 0⟩⟩ [] := by
  decide

/-- A state for each move. -/
theorem witness_HostAndDeviceMoves :
    State.reset.cfg.standard = true ∧ State.reset.cfg = defaultCfg ∧ (onMove (.hostRcsr false)).env = [.hostRcsr false]
    ∧ ({ onMove (.hostRcsr true) with boot := .initialised }.env = [.hostRcsr true]
      ∧ { onMove (.hostRcsr true) with boot := .initialised }.seq = .idle)
    ∧ (onMove .hostReadXcsr).env = [.hostReadXcsr] ∧ (onMove (.serialReceive 0x55#16)).env = [.serialReceive 0x55#16]
    ∧ (onMove .serialSent).env = [.serialSent] ∧ (onMove (.ctlStatus 0x0381#16)).env = [.ctlStatus 0x0381#16]
    ∧ (onMove (.ctlMp 5)).env = [.ctlMp 5] ∧ (onMove (.driveReady 3 true)).env = [.driveReady 3 true] := by decide

/-- A frame alone, and one above a calling frame at step 1 and at another step. -/
theorem witness_CallAndRespond :
    (atStep (.rdhdr 0) 2).seq = .busy ⟨.rdhdr 0, 2, ⟨0, 0, 0⟩⟩ []
    ∧ (.busy ⟨.rdhdr 0, 2, ⟨0, 0, 0⟩⟩ [⟨.request (.cSeek 0 0 3), 1, ⟨0, 0, 0⟩⟩] : Seq)
      = .busy ⟨.rdhdr 0, 2, ⟨0, 0, 0⟩⟩ (⟨.request (.cSeek 0 0 3), 1, ⟨0, 0, 0⟩⟩ :: [])
    ∧ (⟨.request (.cSeek 0 0 3), 1, ⟨0, 0, 0⟩⟩ : Frame).step = 1
    ∧ (⟨.request (.cSeek 0 0 3), 6, ⟨0, 0, 0⟩⟩ : Frame).step ≠ 1 := by decide

/-- Step 1 on an empty and on a non-empty ring, and step 2. -/
theorem witness_SrxRdTransitions :
    (atStep (.request .srxRd) 1).seq = .busy ⟨.request .srxRd, 1, ⟨0, 0, 0⟩⟩ []
    ∧ (atStep (.request .srxRd) 1).rx.inIdx = (atStep (.request .srxRd) 1).rx.outIdx
    ∧ (rxHolding (atStep (.request .srxRd) 1) [1, 2, 3, 4] 0 3).rx.inIdx ≠ 3
    ∧ (atStep (.request .srxRd) 2).seq = .busy ⟨.request .srxRd, 2, ⟨0, 0, 0⟩⟩ [] := by decide

/-- Step 1 on a full ring and on one with a free slot, and step 2. -/
theorem witness_StxWrTransitions :
    State.reset.cfg.standard = true
    ∧ (txHolding (atStep (.request (.stxWr 9)) 1) [1, 2, 3, 0] 3 0 0).seq
      = .busy ⟨.request (.stxWr 9), 1, ⟨0, 0, 0⟩⟩ []
    ∧ ((txHolding (atStep (.request (.stxWr 9)) 1) [1, 2, 3, 0] 3 0 0).tx.inIdx + 1) % State.reset.cfg.txCap = 0
    ∧ ((txHolding (atStep (.request (.stxWr 9)) 1) [1, 2, 3, 0] 2 0 0).tx.inIdx + 1) % State.reset.cfg.txCap ≠ 0
    ∧ (atStep (.request (.stxWr 9)) 2).seq = .busy ⟨.request (.stxWr 9), 2, ⟨0, 0, 0⟩⟩ [] := by decide

theorem witness_SrxAvailAnswersTheCount :
    (atStep (.request .srxAvail) 1).seq = .busy ⟨.request .srxAvail, 1, ⟨0, 0, 0⟩⟩ []
    ∧ Ring.ok 4 ⟨[0, 0, 0, 0], 3, 0⟩ = true ∧ Ring.isFull 4 ⟨[0, 0, 0, 0], 3, 0⟩ = true
    ∧ Ring.ok 2 ⟨[0, 0], 1, 1⟩ = true ∧ Ring.isEmpty ⟨[0, 0], 1, 1⟩ = true := by decide

theorem witness_SrtInitClearsTheRings :
    (atStep (.request .srtInit) 1).seq = .busy ⟨.request .srtInit, 1, ⟨0, 0, 0⟩⟩ [] := rfl

/-- `SRT_INIT` after RESET; with the receive interrupt enabled, and with the host still waiting for `TIE = 0`; and a write
of RCSR with no `SRT_INIT` before, and while it is in progress. -/
theorem witness_SerialBootOrderKept :
    State.reset.cfg.addr.even = true
    ∧ ((onMove (.request 0x4#64)).seq = .idle ∧ (onMove (.request 0x4#64)).env = [.request 0x0000000000000004#64]
      ∧ rie (onMove (.request 0x4#64)) = false ∧ tie (onMove (.request 0x4#64)) = false
      ∧ (onMove (.request 0x4#64)).boot = .start)
    ∧ rie { onMove (.request 0x4#64) with rcsr := 0x0040#16 } = true
    ∧ { onMove (.request 0x4#64) with boot := .draining }.boot = .draining
    ∧ ((onMove (.hostRcsr true)).env = [.hostRcsr true] ∧ (onMove (.hostRcsr true)).boot ≠ .initialised)
    ∧ ({ atStep (.request .srtInit) 1 with env := [.hostRcsr false] }.env = [.hostRcsr false]
      ∧ { atStep (.request .srtInit) 1 with env := [.hostRcsr false] }.seq
        = .busy ⟨.request .srtInit, 1, ⟨0, 0, 0⟩⟩ []) := by decide

theorem witness_SvcRxEffect : State.reset.cfg.standard = true := by decide

/-- An empty ring; data with `READY`; data without it. -/
theorem witness_SvcTxEffect :
    State.reset.cfg.standard = true ∧ State.reset.tx.inIdx = State.reset.tx.outIdx
    ∧ (txHolding State.reset [1, 0, 0, 0] 1 0 0x00C0#16).tx.inIdx ≠ 0
    ∧ flagField defaultLayout.xcsrREADY (txHolding State.reset [1, 0, 0, 0] 1 0 0x00C0#16).xcsr = true
    ∧ flagField defaultLayout.xcsrREADY (txHolding State.reset [1, 0, 0, 0] 1 0 0x0040#16).xcsr = false := by decide

theorem witness_ReceiveOverflowLaw :
    State.reset.cfg.wf = true ∧ State.reset.cfg.layout.rbufDATA.access ≠ .wo
    ∧ State.reset.rx.ok State.reset.cfg.rxCap = true ∧ State.reset.rx.isEmpty = true
    ∧ State.reset.rxOvf < 2 ^ State.reset.cfg.ovfBits := by decide

/-- `STX_WR 9` at step 2 with two bytes queued, `READY` and `TIE`. -/
def writing : State := txHolding (atStep (.request (.stxWr 9)) 2) [1, 2, 0, 0] 2 0 0x00C0#16

theorem writing_good : Inv writing where
  cfg := by decide
  rx := by decide
  tx := by decide
  ovf := by decide
  seq := by decide
  room := fun _ _ _ _ => by decide
  byte := by intro l rest h; simp [writing, txHolding, atStep] at h
  tie := fun _ _ => by decide
  sel := fun _ => by decide
  rxEnable := fun _ _ => by decide
  init := by simp [srtInitRuns, writing, txHolding, atStep]
  label := by decide
  type := by decide
  mem := by decide

/-- `SRX_RD` at step 2 with a full receive ring. -/
def reading : State := rxHolding (atStep (.request .srxRd) 2) [1, 2, 3, 0] 3 0

theorem reading_good : Inv reading where
  cfg := by decide
  rx := by decide
  tx := by decide
  ovf := by decide
  seq := by decide
  room := fun _ _ _ _ => by decide
  byte := fun _ _ _ => by decide
  tie := fun _ => by decide
  sel := fun _ => by decide
  rxEnable := fun _ _ => by decide
  init := fun _ => by decide
  label := by decide
  type := by decide
  mem := by decide

/-- A state for each of the four clauses. -/
theorem witness_RingsAreFifoQueues :
    Inv writing ∧ Inv reading ∧ writing.cfg.standard = true ∧ reading.cfg.standard = true
    ∧ (writing.seq = .busy ⟨.request (.stxWr 9), 2, ⟨0, 0, 0⟩⟩ [] ∧ ∃ t, exec (.stxWr 9) writing = .next t)
    ∧ (writing.tx.isEmpty = false ∧ flagField writing.cfg.layout.xcsrREADY writing.xcsr = true
      ∧ ∃ t, exec .svcTx writing = .next t)
    ∧ (reading.rx.isFull reading.cfg.rxCap = true ∧ ∃ t, exec .svcRx reading = .next t)
    ∧ (reading.seq = .busy ⟨.request .srxRd, 2, ⟨0, 0, 0⟩⟩ [] ∧ ∃ t, exec .srxRd reading = .next t) :=
  ⟨writing_good, reading_good, by decide, by decide, ⟨rfl, _, rfl⟩, ⟨by decide, by decide, _, rfl⟩, ⟨by decide, _, rfl⟩, rfl, _, rfl⟩

/-- `STX_WR 9` at step 1 on a full ring, with the transmit service next. -/
def blocked : State :=
  { txHolding (atStep (.request (.stxWr 9)) 1) [1, 2, 3, 0] 3 0 0x00C0#16 with env := [.dispatch .tx] }

theorem blocked_good : Inv blocked where
  cfg := by decide
  rx := by decide
  tx := by decide
  ovf := by decide
  seq := by decide
  room := by intro b l rest h; simp [blocked, txHolding, atStep] at h
  byte := by intro l rest h; simp [blocked, txHolding, atStep] at h
  tie := fun _ _ => by decide
  sel := fun _ => by decide
  rxEnable := fun _ _ => by decide
  init := by simp [srtInitRuns, blocked, txHolding, atStep]
  label := by decide
  type := by decide
  mem := by decide

theorem witness_BackpressureEndsOnlyBySending :
    Inv blocked ∧ blocked.seq = .busy ⟨.request (.stxWr 9), 1, ⟨0, 0, 0⟩⟩ [] ∧ blocked.tx.isFull blocked.cfg.txCap = true
    ∧ (nextMove blocked).1 = .dispatch .tx ∧ (∀ serial storage, Move.dispatch .tx ≠ .reset serial storage) ∧ ∃ t, step blocked = .next t :=
  ⟨blocked_good, rfl, by decide, rfl, by simp, _, rfl⟩

/-- `SRX_RD` at step 1 on an empty ring with the receive interrupt enabled. -/
def waiting : State :=
  { atStep (.request .srxRd) 1 with
    rcsr := 0x0040#16
    boot := .enabled
    env := [.serialReceive 0x55#16, .dispatch .rx, .sequencer, .sequencer] }

theorem waiting_good : Inv waiting where
  cfg := by decide
  rx := by decide
  tx := by decide
  ovf := by decide
  seq := by decide
  room := fun _ _ _ _ => by decide
  byte := by intro l rest h; simp [waiting, atStep] at h
  tie := fun _ => by decide
  sel := fun _ => by decide
  rxEnable := fun _ h => absurd rfl h
  init := by simp [srtInitRuns, waiting, atStep]
  label := by decide
  type := by decide
  mem := by decide

theorem witness_BlockedReadCompletes :
    Inv waiting ∧ waiting.cfg.standard = true ∧ waiting.seq = .busy ⟨.request .srxRd, 1, ⟨0, 0, 0⟩⟩ [] ∧ waiting.rx.isEmpty = true ∧ rie waiting = true
    ∧ waiting.env = [.serialReceive 0x55#16, .dispatch .rx, .sequencer, .sequencer] ++ [] :=
  ⟨waiting_good, by decide, rfl, by decide, by decide, rfl⟩

theorem witness_SceInitResetsDeviceStatus :
    (atStep (.request .sceInit) 1).seq = .busy ⟨.request .sceInit, 1, ⟨0, 0, 0⟩⟩ [] := rfl

theorem witness_CWaitcPoll :
    State.reset.cfg.standard = true ∧ (atStep (.request .cWaitc) 1).seq = .busy ⟨.request .cWaitc, 1, ⟨0, 0, 0⟩⟩ []
    ∧ csReady defaultCfg (csValue (atStep (.request .cWaitc) 1)) = true
    ∧ csReady defaultCfg (csValue { atStep (.request .cWaitc) 1 with cs := 0 }) = false := by decide

theorem witness_CWaitdTransitions :
    State.reset.cfg.standard = true ∧ (atStep (.request (.cWaitd 3 true true)) 1).seq = .busy ⟨.request (.cWaitd 3 true true), 1, ⟨0, 0, 0⟩⟩ []
    ∧ (atStep (.request (.cWaitd 3 true true)) 4).seq = .busy ⟨.request (.cWaitd 3 true true), 4, ⟨0, 0, 0⟩⟩ [] :=
  ⟨by decide, rfl, rfl⟩

theorem witness_CCmdTransitions :
    State.reset.cfg.standard = true
    ∧ (atStep (.request (.cCmd 0 .readData)) 1).seq = .busy ⟨.request (.cCmd 0 .readData), 1, ⟨0, 0, 0⟩⟩ []
    ∧ (atStep (.request (.cCmd 0 .readData)) 4).seq = .busy ⟨.request (.cCmd 0 .readData), 4, ⟨0, 0, 0⟩⟩ [] := by decide

theorem witness_CommandWordsStartTheirCommand :
    State.reset.cfg.standard = true ∧ commandInstr 1 .seek = some (.seek 1)
    ∧ (atStep (.request (.cCmd 1 .seek)) 2).seq = .busy ⟨.request (.cCmd 1 .seek), 2, ⟨0, 0, 0⟩⟩ [] := by decide

theorem witness_CStatTransitions :
    State.reset.cfg.standard = true ∧ (atStep (.request (.cStat 0 true)) 1).seq = .busy ⟨.request (.cStat 0 true), 1, ⟨0, 0, 0⟩⟩ []
    ∧ (atStep (.request (.cStat 0 true)) 3).seq = .busy ⟨.request (.cStat 0 true), 3, ⟨0, 0, 0⟩⟩ [] := ⟨by decide, rfl, rfl⟩

theorem witness_ReadHeaderTransitions :
    State.reset.cfg.standard = true ∧ (atStep (.rdhdr 0) 1).seq = .busy ⟨.rdhdr 0, 1, ⟨0, 0, 0⟩⟩ []
    ∧ (atStep (.rdhdr 0) 2).seq = .busy ⟨.rdhdr 0, 2, ⟨0, 0, 0⟩⟩ [] := ⟨by decide, rfl, rfl⟩

theorem witness_CSeekTransitions :
    State.reset.cfg.standard = true ∧ (atStep (.request (.cSeek 0 1 511)) 1).seq = .busy ⟨.request (.cSeek 0 1 511), 1, ⟨0, 0, 0⟩⟩ []
    ∧ (atStep (.request (.cSeek 0 1 511)) 7).seq = .busy ⟨.request (.cSeek 0 1 511), 7, ⟨0, 0, 0⟩⟩ [] := ⟨by decide, rfl, rfl⟩

/-- Both sides of the bound, and the count 0. -/
theorem witness_CRdblkBoundsCheck :
    (atStep (.request (.cRdblk 0 0 0 0 129 0x1000)) 1).seq = .busy ⟨.request (.cRdblk 0 0 0 0 129 0x1000), 1, ⟨0, 0, 0⟩⟩ []
    ∧ defaultCfg.blockSize / 2 < (129#16).toNat ∧ (128#16).toNat ≤ defaultCfg.blockSize / 2
    ∧ (0#16).toNat ≤ defaultCfg.blockSize / 2 := by decide

theorem witness_CRdblkTransitions :
    State.reset.cfg.standard = true
    ∧ (atStep (.request (.cRdblk 0 5 1 100 0 0x1000)) 2).seq = .busy ⟨.request (.cRdblk 0 5 1 100 0 0x1000), 2, ⟨0, 0, 0⟩⟩ []
    ∧ (atStep (.request (.cRdblk 0 5 1 100 0 0x1000)) 7).seq
      = .busy ⟨.request (.cRdblk 0 5 1 100 0 0x1000), 7, ⟨0, 0, 0⟩⟩ [] := by decide

theorem witness_CDecerrAnswersTheLabel :
    (atStep (.request (.cDecerr 0xFFFF)) 1).seq = .busy ⟨.request (.cDecerr 0xFFFF), 1, ⟨0, 0, 0⟩⟩ [] := rfl

theorem witness_CDecstAnswersTheLabel :
    (atStep (.request (.cDecst 0xFFFF)) 1).seq = .busy ⟨.request (.cDecst 0xFFFF), 1, ⟨0, 0, 0⟩⟩ [] := rfl

/-- The two ways to answer: at step 1 out of bounds, and at step 7. -/
theorem witness_CRdblkRecordsTheRequestedPosition :
    (∃ t, exec (.cRdblk 0 0 0 0 129 0x1000) (atStep (.request (.cRdblk 0 0 0 0 129 0x1000)) 1) = .next t ∧ t.seq = .idle)
    ∧ ∃ t, exec (.cRdblk 0 5 1 100 128 0x1000) (atStep (.request (.cRdblk 0 5 1 100 128 0x1000)) 7) = .next t
      ∧ t.seq = .idle := ⟨⟨_, rfl, rfl⟩, _, rfl, rfl⟩

theorem witness_CCmdCompletes :
    State.reset.cfg.standard = true ∧ State.reset.seq = .idle ∧ decodeRequest defaultCfg 0x31A#64 = .ok (.cCmd 1 .seek)
    ∧ csReady defaultCfg (csValue State.reset) = true ∧ csReady defaultCfg 0x8480#16 = true := by decide

/-- The last steps of `C_CMD` and `C_STAT` reach a next state. -/
theorem witness_DecodeMapsTotalAndRecorded :
    (atStep (.request (.cDecerr 0)) 1).seq = .busy ⟨.request (.cDecerr 0), 1, ⟨0, 0, 0⟩⟩ []
    ∧ (atStep (.request (.cDecst 7)) 1).seq = .busy ⟨.request (.cDecst 7), 1, ⟨0, 0, 0⟩⟩ []
    ∧ (∃ t, exec (.cCmd 1 .seek) (atStep (.request (.cCmd 1 .seek)) 4) = .next t)
    ∧ ∃ t, exec (.cStat 1 false) (atStep (.request (.cStat 1 false)) 3) = .next t := ⟨rfl, rfl, ⟨_, rfl⟩, _, rfl⟩

/-- The poll of `C_SEEK 1` at its step 5, with drive 1 selected. -/
def polling : State :=
  { State.reset with
    sel := 1
    seq := .busy ⟨.request (.cWaitd 1 false false), 2, ⟨0, 0, 0⟩⟩ [⟨.request (.cSeek 1 0 3), 5, ⟨0, 0x0500#16, 10⟩⟩] }

theorem polling_good : Inv polling where
  cfg := by decide
  rx := by decide
  tx := by decide
  ovf := by decide
  seq := by decide
  room := by intro b l rest h; simp [polling] at h
  byte := by intro l rest h; simp [polling] at h
  tie := fun _ => by decide
  sel := fun _ => by decide
  rxEnable := fun _ _ => by decide
  init := fun _ => by decide
  label := by decide
  type := by decide
  mem := by decide

/-- A state for each clause: a configuration, a read by an instruction, a presented value, the poll of a seek. -/
theorem witness_DriveReadyOfTheSelectedDrive :
    State.reset.cfg.wf = true
    ∧ ((∃ t, exec .svcRx State.reset = .next t) ∧ (∀ d fn, Instr.svcRx ≠ .cCmd d fn)
      ∧ ∀ d, Instr.svcRx ≠ .getStatus d ∧ Instr.svcRx ≠ .seek d ∧ Instr.svcRx ≠ .readHeader d ∧ Instr.svcRx ≠ .readData d)
    ∧ ((nextMove (onMove (.ctlStatus 0x0381#16))).1 = .ctlStatus 0x0381#16
      ∧ ∃ t, step (onMove (.ctlStatus 0x0381#16)) = .next t)
    ∧ (Inv polling ∧ polling.cfg.standard = true ∧ polling.seq = .busy ⟨.request (.cWaitd 1 false false), 2, ⟨0, 0, 0⟩⟩
      [⟨.request (.cSeek 1 0 3), 5, ⟨0, 0x0500#16, 10⟩⟩]) :=
  ⟨by decide, ⟨⟨_, rfl⟩, by simp, by simp⟩, ⟨rfl, _, rfl⟩, polling_good, by decide, rfl⟩

theorem witness_InterruptRequests : State.reset.cfg = defaultCfg ∧ defaultCfg.wf = true := by decide

/-- RESET that reaches no device, in the middle of an operation. -/
theorem witness_ResetOfTheBlock :
    State.reset.cfg.addr.even = true ∧ { seeking with env := [.reset none none] }.env = [.reset none none] := by decide

/-- RESET that reaches one device and not the other. -/
theorem witness_ResetOfTheDevices :
    State.reset.cfg.wf = true
    ∧ { seeking with env := [.reset (some ⟨4, 5⟩) none] }.env = [.reset (some ⟨4, 5⟩) none]
    ∧ { seeking with env := [.reset none (some ⟨0xFF7F#16, 1, 2, 3, #v[true, false, true, false]⟩)] }.env
      = [.reset none (some ⟨0xFF7F#16, 1, 2, 3, #v[true, false, true, false]⟩)] := by decide

/-- A next state of an instruction; of the default move of an empty script; a transfer of the last byte of a block of 128
words and of a block of no stated length; and each way in which a transfer changes nothing. -/
theorem witness_HostMemoryChangesOnlyByTransfer :
    (∃ t, exec .svcRx State.reset = .next t)
    ∧ ((nextMove State.reset).1 = .sequencer ∧ ∃ t, step State.reset = .next t)
    ∧ State.reset.cfg.addr.even = true ∧ fcode defaultCfg .readData = 6#3 ∧ fcode defaultCfg .seek ≠ 6#3
    ∧ wcOfMp defaultCfg (mpOfWord defaultCfg 0xFF7F#16) = 128#16 ∧ 255 < 2 * (128#16).toNat ∧ 2 * (128#16).toNat ≤ 256
    ∧ wcOfMp defaultCfg (mpOfWord defaultCfg 0xFFFF#16) = 0#16
    ∧ State.reset.cmd = none :=
  ⟨⟨_, rfl⟩, ⟨rfl, _, rfl⟩, by decide, by decide, by decide, by decide, by decide, by decide, by decide, rfl⟩

/-- A bit of CS beside `DRDY`; the default layout; an odd address and one where no register sits. -/
theorem witness_LowerPortByteOrder :
    State.reset.cfg.wf = true ∧ (fieldMask State.reset.cfg.layout.csDRDY).getLsbD 1 = false
    ∧ State.reset.cfg.layout = defaultLayout ∧ (0xF901#16).getLsbD 0 = true
    ∧ ∀ r, regAddr State.reset.cfg r ≠ 0x1000#16 :=
  ⟨by decide, by decide, rfl, by decide, by intro r; cases r <;> decide⟩

theorem witness_InvariantKeptByStep : Inv seeking ∧ ∃ t, step seeking = .next t := ⟨seeking_good, _, rfl⟩

theorem witness_GoodStatesNeverStop : Inv blocked := blocked_good

theorem witness_NestingAtMostSix : Inv seeking ∧ ∃ t, step seeking = .next t := ⟨seeking_good, _, rfl⟩

theorem witness_AtMostOneAccessPerStep :
    Instr.cWaitc.isRequest = true ∧ (∃ t, exec .cWaitc (atStep (.request .cWaitc) 1) = .next t)
    ∧ ∃ t, rdhdrStep 0 ⟨.rdhdr 0, 2, ⟨0, 0, 0⟩⟩ (atStep (.rdhdr 0) 2) = .next t := ⟨rfl, ⟨_, rfl⟩, _, rfl⟩

theorem witness_OnlyCCmdWritesCs :
    State.reset.cfg.wf = true ∧ (Instr.cCmd 1 .seek).isRequest = true
    ∧ ∃ t, exec (.cCmd 1 .seek) (atStep (.request (.cCmd 1 .seek)) 2) = .next t
      ∧ t.bus = [] ++ [.write defaultCfg.addr.cs 0x0106#16] := ⟨by decide, rfl, _, rfl, by decide⟩

theorem witness_MpReadOnlyByStatusAndHeader :
    State.reset.cfg.wf = true
    ∧ (∃ t, exec (.cStat 1 false) (atStep (.request (.cStat 1 false)) 3) = .next t
      ∧ t.bus = [] ++ [.read defaultCfg.addr.mp 0#16])
    ∧ ∃ t, rdhdrStep 0 ⟨.rdhdr 0, 2, ⟨0, 0, 0⟩⟩ (atStep (.rdhdr 0) 2) = .next t
      ∧ t.bus = [] ++ [.read defaultCfg.addr.mp 0#16] := ⟨by decide, ⟨_, rfl, by decide⟩, _, rfl, by decide⟩

theorem witness_DeviceStatusWriters :
    (∃ t, exec .svcTx State.reset = .next t)
    ∧ ((nextMove (onMove .serialSent)).1 = .serialSent ∧ (∀ a b, Move.serialSent ≠ .reset a b) ∧ ∃ t, step (onMove .serialSent) = .next t) :=
  ⟨⟨_, rfl⟩, rfl, by simp, _, rfl⟩

theorem witness_RingAndTieWriters :
    ∃ t, exec .srxRd reading = .next t := ⟨_, rfl⟩

theorem witness_SubBlocksWriteOwnStateOnly :
    (∃ t, exec .srxRd reading = .next t) ∧ ∃ t, exec (.readData 3) State.reset = .next t := ⟨⟨_, rfl⟩, _, rfl⟩

theorem witness_ServiceOrderIsFree : State.reset.cfg.standard = true := by decide

end Sys2Proof.Tests
end

section
/-! PROOFS. The scope (spec/00_scope.md): the sequencer's `call` and `respond` (R12), and the lower-port accesses of the
numbered steps (R13). `portOp` is the table of the accesses, one row for each step that makes one; `requestStep_bus` and
`rdhdrStep_bus` say that the model follows it. -/

namespace Sys2Proof.Machine

/-! ### `call` and `respond` -/

/-- A header answered to step 1 is kept in the local `h` (R152). -/
theorem receive_header_locals (h : Word) {g : Frame} (hg : g.step = 1) :
    (receive (.header h) g).locals = { g.locals with h := h } := by simp [receive, hg]

theorem receive_locals_other {v : Response} {g : Frame} (hv : ∀ h, v = .header h → g.step ≠ 1) :
    (receive v g).locals = g.locals := by
  unfold receive
  split
  · next h => simp [hv h rfl]
  · rfl

/-- Settles O16: the calling frame becomes `receive v g`. -/
theorem callAndRespond : Obligations.CallAndRespond := by
  intro s f g rest op v
  refine ⟨call_busy op, respond_outermost v, fun hs => ?_⟩
  obtain ⟨hstep, hop⟩ := receive_step v g
  refine ⟨receive v g, respond_inner v hs, hop, hstep, ?_, receive_locals_other⟩
  rintro h rfl hg
  exact receive_header_locals h hg

/-! ### What each access appends to the record -/

@[simp] theorem portWrite_bus (r : Reg) (v : Word) (s : State) :
    (portWrite r v s).bus = s.bus ++ [.write (regAddr s.cfg r) v] := by cases r <;> rfl

@[simp] theorem regWrite_bus (r : Reg) (v : Word) (s : State) :
    (regWrite r v s).bus = s.bus ++ [.write (regAddr s.cfg r) (blockWord s.cfg r v)] := portWrite_bus r _ s

@[simp] theorem afterRead_bus (r : Reg) (s : State) :
    (afterRead r s).bus = s.bus ++ [.read (regAddr s.cfg r) (regValue r s)] := by cases r <;> rfl

@[simp] theorem issueCommand_bus (d : Drive) (fn : Fn) (s : State) :
    (issueCommand d fn s).bus = s.bus ++ [.write (regAddr s.cfg .cs) (blockWord s.cfg .cs (csCmd s.cfg d fn))] :=
  regWrite_bus .cs _ s

/-! ### The accesses of the numbered steps -/

/-- An access of the block to a register: `RegRead(r)` or `RegWrite(r, v)` (R12). -/
inductive PortOp where
  | read (r : Reg)
  | write (r : Reg) (v : Word)

/-- The entry that the access leaves in the record of a state. -/
def PortOp.entry (s : State) : PortOp → Access
  | .read r => .read (regAddr s.cfg r) (regValue r s)
  | .write r v => .write (regAddr s.cfg r) (blockWord s.cfg r v)

/-- The access of step `n` of an operation whose frame has the locals `l`, if it makes one (R128, R141 to R160). -/
def portOp (op : Op) (n : Nat) (l : Locals) (s : State) : Option PortOp :=
  match op, n with
  | .request (.stxWr _), 1 => if s.tx.isFull s.cfg.txCap then some (.write .xcsr (tieWord s.cfg true)) else none
  | .request (.stxWr _), 2 => some (.write .xcsr (tieWord s.cfg true))
  | .request .cWaitc, 1 => some (.read .cs)
  | .request (.cWaitd _ _ _), 2 => some (.read .cs)
  | .request (.cCmd d fn), 2 => some (.write .cs (csCmd s.cfg d fn))
  | .request (.cStat _ reset), 1 => some (.write .da (daWord s.cfg (daGs s.cfg reset)))
  | .request (.cStat _ _), 3 => some (.read .mp)
  | .request (.cSeek _ hd cyl), 3 =>
    some (.write .da (daWord s.cfg (daSeek s.cfg (seekMag cyl l.cur) (seekDir cyl l.cur) hd)))
  | .request (.cRdblk _ _ _ _ wc _), 3 => some (.write .mp (mpWord s.cfg (mpWc s.cfg wc)))
  | .request (.cRdblk _ _ _ _ _ ba), 4 => some (.write .ba (baWord s.cfg ba))
  | .request (.cRdblk _ sec hd cyl _ _), 5 => some (.write .da (daWord s.cfg (daRd s.cfg cyl hd sec)))
  | .rdhdr _, 2 => some (.read .mp)
  | _, _ => none

/-- What step `n` of `op` adds to the record: the entry of its access, if any. -/
def stepEntries (op : Op) (n : Nat) (l : Locals) (s : State) : List Access :=
  ((portOp op n l s).map (PortOp.entry s)).toList

/-- The numbered steps of a request, by instruction; no other instruction has any. -/
def requestStep : Instr → Frame → State → Host.Outcome State Fault Refusal
  | .srxRd => srxRdStep
  | .stxWr b => stxWrStep b
  | .srxAvail => srxAvailStep
  | .srtInit => srtInitStep
  | .sceInit => sceInitStep
  | .cWaitc => cWaitcStep
  | .cWaitd d refresh reset => cWaitdStep d refresh reset
  | .cCmd d fn => cCmdStep d fn
  | .cStat d reset => cStatStep d reset
  | .cSeek d hd cyl => cSeekStep d hd cyl
  | .cRdblk d sec hd cyl wc ba => cRdblkStep d sec hd cyl wc ba
  | .cDecerr w => cDecerrStep w
  | .cDecst w => cDecstStep w
  | _ => fun _ _ => .fault .noSuchStep

/-- The meaning of a host request is one transition of its numbered steps (R13, R33, R196). -/
theorem exec_request {i : Instr} (hi : i.isRequest = true) (s : State) : exec i s = transition i (requestStep i) s := by
  cases i with
  | svcRx | svcTx | getStatus | seek | readHeader | readData => cases hi
  | _ => rfl

/-- Each numbered step of a request adds to the record the access of the table, or nothing. -/
theorem requestStep_bus {i : Instr} {f : Frame} {s t : State} (h : requestStep i f s = .next t) :
    t.bus = s.bus ++ stepEntries (.request i) f.step f.locals s := by
  cases i with
  | svcRx | svcTx | getStatus | seek | readHeader | readData => cases h
  -- answered at step 1, with no access
  | srxAvail | srtInit | sceInit | cDecerr | cDecst =>
    simp only [requestStep, srxAvailStep, srtInitStep, sceInitStep, cDecerrStep, cDecstStep] at h
    split at h
    · cases h; simp [stepEntries, portOp]
    · cases h
  -- whether the poll answers or goes round again, it has read CS once
  | cWaitc =>
    simp only [requestStep, cWaitcStep] at h
    split at h
    · split at h <;> cases h <;> simp [stepEntries, portOp, PortOp.entry, *]
    · cases h
  -- step 1 writes `TIE` on a full ring alone
  | stxWr b =>
    simp only [requestStep, stxWrStep] at h
    split at h <;> cases h
    · split <;> simp [stepEntries, portOp, PortOp.entry, *]
    · simp [stepEntries, portOp, PortOp.entry, *]
  -- where a step branches, both ways leave the same record
  | srxRd | cWaitd | cCmd | cStat | cSeek | cRdblk =>
    simp only [requestStep, srxRdStep, cWaitdStep, cCmdStep, cStatStep, cSeekStep, cRdblkStep] at h
    split at h <;> cases h <;> simp [stepEntries, portOp, PortOp.entry, apply_ite State.bus, *]

/-- `RDHDR` makes one access, the read of MP at its step 2 (R151). -/
theorem rdhdrStep_bus {d : Drive} {f : Frame} {s t : State} (h : rdhdrStep d f s = .next t) :
    t.bus = s.bus ++ stepEntries (.rdhdr d) f.step f.locals s := by
  unfold rdhdrStep at h
  split at h <;> cases h <;> simp [stepEntries, portOp, PortOp.entry, *]

theorem stepEntries_rdhdr (d : Drive) (n : Nat) (l : Locals) (s : State) :
    stepEntries (.rdhdr d) n l s = if n = 2 then [.read (regAddr s.cfg .mp) (regValue .mp s)] else [] := by
  by_cases hn : n = 2 <;> simp [stepEntries, portOp, PortOp.entry, hn]

theorem stepEntries_cases (op : Op) (n : Nat) (l : Locals) (s : State) :
    stepEntries op n l s = [] ∨ ∃ r v,
      stepEntries op n l s = [.read (regAddr s.cfg r) v] ∨ stepEntries op n l s = [.write (regAddr s.cfg r) v] := by
  unfold stepEntries
  cases portOp op n l s with
  | none => exact .inl rfl
  | some p =>
    cases p with
    | read r => exact .inr ⟨r, _, .inl rfl⟩
    | write r v => exact .inr ⟨r, _, .inr rfl⟩

/-- Of the three ways of a request's transition (`transition_cases`), only a numbered step of its own frame reaches the
lower port: acceptance and `REFUSED` leave the record alone (R33, R196). -/
theorem exec_request_bus {i : Instr} {s t : State} (hi : i.isRequest = true) (h : exec i s = .next t) :
    t.bus = s.bus ∨ ∃ f rest, s.seq = .busy f rest ∧ f.op = .request i
      ∧ t.bus = s.bus ++ stepEntries (.request i) f.step f.locals s := by
  rw [exec_request hi] at h
  obtain ⟨-, rfl⟩ | ⟨f, rest, hs, hf, hstep⟩ | ⟨-, -, -, -, rfl⟩ := transition_cases h
  · exact .inl (accept_bus i s)
  · exact .inr ⟨f, rest, hs, hf, requestStep_bus hstep⟩
  · exact .inl (refuse_bus s)

/-- Settles O54: a step's entries are those of at most one `PortOp`, and `RDHDR` has the one read of MP. -/
theorem atMostOneAccessPerStep : Obligations.AtMostOneAccessPerStep := by
  refine ⟨fun i s t hi h => ?_, fun d f s t h => ?_⟩
  · obtain hbus | ⟨f, -, -, -, hbus⟩ := exec_request_bus hi h
    · exact .inl hbus
    rw [hbus]
    obtain he | ⟨r, v, he | he⟩ := stepEntries_cases (.request i) f.step f.locals s <;> rw [he]
    · exact .inl (List.append_nil _)
    · exact .inr ⟨r, v, .inl rfl⟩
    · exact .inr ⟨r, v, .inr rfl⟩
  · rw [rdhdrStep_bus h, stepEntries_rdhdr]
    split
    · exact .inr ⟨.mp, _, rfl⟩
    · exact .inl (List.append_nil _)

end Sys2Proof.Machine
end

section
/-! PROOFS. The rings as queues (spec/10_state.md R21 to R24): what a push and a drop do to the count, to fullness and to
the list of unread bytes, and from it the four ring operations of a good state. -/

namespace Sys2Proof.Machine

/-! ### Counts -/

/-- An index that has run past the end once is brought back by one subtraction. -/
theorem mod_eq_wrap {cap i : Nat} (h : i < 2 * cap) : i % cap = if i < cap then i else i - cap := by
  split
  · next hi => exact Nat.mod_eq_of_lt hi
  · next hi => rw [Nat.mod_eq_sub_mod (by omega), Nat.mod_eq_of_lt (by omega)]

theorem nextIdx_inj {cap i j : Nat} (hi : i < cap) (hj : j < cap) : nextIdx cap i = nextIdx cap j ↔ i = j := by
  rw [nextIdx_eq hi, nextIdx_eq hj]
  split <;> split <;> omega

theorem Ring.isEmpty_iff (q : Ring) : q.isEmpty = true ↔ q.inIdx = q.outIdx := by simp [Ring.isEmpty]

theorem Ring.isFull_iff (cap : Nat) (q : Ring) : q.isFull cap = true ↔ nextIdx cap q.inIdx = q.outIdx := by
  simp [Ring.isFull]

/-- A ring with room that takes a byte holds one more. -/
theorem Ring.count_push {cap : Nat} {q : Ring} (b : Byte) (h : q.ok cap = true) (hf : q.isFull cap = false) :
    (q.push cap b).count cap = q.count cap + 1 := by
  obtain ⟨-, hi, ho⟩ := (Ring.ok_iff cap q).mp h
  obtain ⟨-, hi', -⟩ := (Ring.ok_iff cap _).mp (Ring.ok_push b h)
  have hne : nextIdx cap q.inIdx ≠ q.outIdx := by simpa [Ring.isFull] using hf
  rw [Ring.count_eq hi' ho, Ring.count_eq hi ho]
  simp only [Ring.push, nextIdx_eq hi] at hne ⊢
  split at hne <;> split <;> split <;> split <;> omega

/-- A ring that loses its oldest byte holds one less. -/
theorem Ring.count_drop {cap : Nat} {q : Ring} (h : q.ok cap = true) (he : q.isEmpty = false) :
    q.count cap = (q.drop cap).count cap + 1 := by
  obtain ⟨-, hi, ho⟩ := (Ring.ok_iff cap q).mp h
  obtain ⟨-, -, ho'⟩ := (Ring.ok_iff cap _).mp (Ring.ok_drop h)
  have hne : q.inIdx ≠ q.outIdx := by simpa [Ring.isEmpty] using he
  rw [Ring.count_eq hi ho, Ring.count_eq (q := q.drop cap) hi ho']
  simp only [Ring.drop, nextIdx_eq ho]
  split <;> split <;> split <;> omega

/-- The slot `in` comes right after the unread ones. -/
theorem Ring.add_count_mod {cap : Nat} {q : Ring} (h : q.ok cap = true) :
    (q.outIdx + q.count cap) % cap = q.inIdx := by
  obtain ⟨-, hi, ho⟩ := (Ring.ok_iff cap q).mp h
  rw [Ring.count_eq hi ho, mod_eq_wrap (by split <;> omega)]
  split <;> split <;> omega

/-- The slot `in` is none of the unread ones. -/
theorem Ring.add_mod_ne_inIdx {cap k : Nat} {q : Ring} (h : q.ok cap = true) (hk : k < q.count cap) :
    (q.outIdx + k) % cap ≠ q.inIdx := by
  obtain ⟨-, hi, ho⟩ := (Ring.ok_iff cap q).mp h
  have hlt := Ring.count_lt hi ho
  rw [Ring.count_eq hi ho] at hk hlt
  rw [mod_eq_wrap (by omega)]
  split <;> split at hk <;> omega

/-! ### Fullness and emptiness -/

/-- Dropping the oldest byte of a ring leaves it full only if it was empty before. -/
theorem Ring.isFull_drop {cap : Nat} {q : Ring} (h : q.ok cap = true) : (q.drop cap).isFull cap = q.isEmpty := by
  obtain ⟨-, hi, ho⟩ := (Ring.ok_iff cap q).mp h
  simp [Ring.isFull, Ring.isEmpty, Ring.drop, nextIdx_inj hi ho]

/-- With at least two slots a full ring holds a byte. -/
theorem Ring.isEmpty_of_isFull {cap : Nat} {q : Ring} (hc : 2 ≤ cap) (h : q.ok cap = true) (hf : q.isFull cap = true) :
    q.isEmpty = false := by
  obtain ⟨-, hi, -⟩ := (Ring.ok_iff cap q).mp h
  rw [Ring.isFull_iff, nextIdx_eq hi] at hf
  simp only [Ring.isEmpty, decide_eq_false_iff_not]
  split at hf <;> omega

/-- The overwrite of a full ring is a drop and then a push into the freed slot (R121). -/
theorem Ring.drop_push (cap : Nat) (q : Ring) (b : Byte) : (q.push cap b).drop cap = (q.drop cap).push cap b := rfl

/-! ### The unread bytes -/

/-- The slots as the unread bytes see them: outside `in` a push changes none, and `in` takes the byte. -/
theorem Ring.unreadAt_push {cap k : Nat} {q : Ring} (b : Byte) (h : q.ok cap = true) :
    (q.push cap b).unreadAt cap k = if (q.outIdx + k) % cap = q.inIdx then b else q.unreadAt cap k := by
  obtain ⟨hl, hi, -⟩ := (Ring.ok_iff cap q).mp h
  simp only [Ring.unreadAt, Ring.push, List.getD_eq_getElem?_getD, List.getElem?_set, hl, hi, if_true]
  split
  · next he => rw [if_pos he.symm]; rfl
  · next he => rw [if_neg (Ne.symm he)]

/-- A push into a ring with room appends the byte (R24). -/
theorem Ring.unread_push {cap : Nat} {q : Ring} (b : Byte) (h : q.ok cap = true) (hf : q.isFull cap = false) :
    (q.push cap b).unread cap = q.unread cap ++ [b] := by
  have old : ∀ k ∈ List.range (q.count cap), (q.push cap b).unreadAt cap k = q.unreadAt cap k := fun k hk => by
    rw [Ring.unreadAt_push b h, if_neg (Ring.add_mod_ne_inIdx h (List.mem_range.mp hk))]
  have new : (q.push cap b).unreadAt cap (q.count cap) = b := by
    rw [Ring.unreadAt_push b h, if_pos (Ring.add_count_mod h)]
  rw [Ring.unread, Ring.count_push b h hf, List.range_succ, List.map_append, List.map_congr_left old,
    List.map_singleton, new]
  rfl

/-- A drop takes the byte at `out` from the front and keeps the rest in order (R24). -/
theorem Ring.unread_drop {cap : Nat} {q : Ring} (h : q.ok cap = true) (he : q.isEmpty = false) :
    q.unread cap = q.front :: (q.drop cap).unread cap := by
  obtain ⟨-, -, ho⟩ := (Ring.ok_iff cap q).mp h
  have first : q.unreadAt cap 0 = q.front := by simp [Ring.unreadAt, Ring.front, Nat.mod_eq_of_lt ho]
  have shift : ∀ k, q.unreadAt cap (k + 1) = (q.drop cap).unreadAt cap k := fun k => by
    simp [Ring.unreadAt, Ring.drop, nextIdx, Nat.add_assoc, Nat.add_comm 1 k]
  rw [Ring.unread, Ring.count_drop h he, List.range_succ_eq_map, List.map_cons, first, List.map_map]
  exact congrArg _ (List.map_congr_left fun k _ => shift k)

/-- A byte into a full ring takes the place of the oldest one at the other end (R121). -/
theorem Ring.unread_overwrite {cap : Nat} {q : Ring} (b : Byte) (hc : 2 ≤ cap) (h : q.ok cap = true)
    (hf : q.isFull cap = true) : ((q.push cap b).drop cap).unread cap = (q.unread cap).tail ++ [b] := by
  have he := Ring.isEmpty_of_isFull hc h hf
  rw [Ring.drop_push, Ring.unread_push b (Ring.ok_drop h) (by rw [Ring.isFull_drop h, he]), Ring.unread_drop h he]
  rfl

/-! ### The four ring operations -/

/-- What a received byte does to the receive ring (R121). -/
theorem receiveByte_rx (b : Byte) (s : State) :
    (receiveByte b s).rx =
      if s.rx.isFull s.cfg.rxCap then (s.rx.push s.cfg.rxCap b).drop s.cfg.rxCap else s.rx.push s.cfg.rxCap b := by
  cases hf : s.rx.isFull s.cfg.rxCap
  · simp [receiveByte_room b hf]
  · simp [receiveByte_full b hf]

/-- The unread bytes after one more was received (R24, R121). -/
theorem unread_receiveByte (b : Byte) {s : State} (hc : 2 ≤ s.cfg.rxCap) (h : s.rx.ok s.cfg.rxCap = true) :
    (receiveByte b s).rx.unread s.cfg.rxCap =
      (if s.rx.isFull s.cfg.rxCap then (s.rx.unread s.cfg.rxCap).tail else s.rx.unread s.cfg.rxCap) ++ [b] := by
  rw [receiveByte_rx]
  cases hf : s.rx.isFull s.cfg.rxCap
  · exact Ring.unread_push b h hf
  · exact Ring.unread_overwrite b hc h hf

/-- Settles O25: each clause is the law of the push, the drop or the overwrite that the operation makes; step 2 of
`STX_WR` has room and step 2 of `SRX_RD` a byte by the invariant. -/
theorem ringsAreFifoQueues : Obligations.RingsAreFifoQueues := by
  intro s inv hstd
  have shaped := Cfg.standard_shaped hstd
  obtain ⟨hrx, -⟩ := Cfg.wf_ranges inv.cfg
  refine ⟨?stxWr, ?svcTx, ?svcRx, ?srxRd⟩
  case stxWr =>
    intro b l rest t hs h
    rw [exec_request rfl, transition_own hs rfl] at h
    cases h
    simpa using Ring.unread_push b inv.tx (inv.room b l rest hs)
  case svcTx =>
    intro t h he hready
    rw [← show regValue .xcsr s = s.xcsr from regValue_shaped shaped (by simp)] at hready
    cases h
    refine ⟨s.tx.front, ?_, ?_⟩
    · simpa [sendByte_ready he hready] using Ring.unread_drop inv.tx he
    · rw [updateTie_xbuf, sendByte_ready he hready, regWrite_xbuf_eq (by simpa using shaped)]
      exact getField_putField_same _ _ (Layout.shaped_xbufDATA shaped).1 (Layout.fits_xbufDATA (Cfg.wf_layout inv.cfg)).2
  case svcRx =>
    intro t h
    cases h
    rw [show regValue .rbuf s = s.rbuf from regValue_shaped shaped (by simp)]
    simpa [rbufByte] using unread_receiveByte (rbufByte s.cfg s.rbuf) (s := afterRead .rbuf s) (by simpa using hrx)
      (by simpa using inv.rx)
  case srxRd =>
    intro l t hs h
    rw [exec_request rfl, transition_own hs rfl] at h
    cases h
    refine ⟨s.rx.front, ?_, ?_⟩
    · simpa using Ring.unread_drop inv.rx (inv.byte l [] hs)
    · rw [respond_outermost _ (by exact hs)]

end Sys2Proof.Machine
end

section
/-! PROOFS. Access rights (spec/10_state.md R37): what a write of the block puts in a field, what the register then holds
there, and what a read shows, for a field of any place, width and access right. -/

namespace Sys2Proof.Machine

/-! ### The bits of an access right -/

/-- The bits of a right cover each field that has it. -/
theorem mask_and_accessBits_same {a : AccessRight} {fs : List Field} {f : Field} (hf : f ∈ fs) (ha : f.access = a) :
    fieldMask f &&& accessBits a fs = fieldMask f := by
  apply BitVec.eq_of_getLsbD_eq
  intro i _
  rw [BitVec.getLsbD_and]
  cases hi : (fieldMask f).getLsbD i
  · rfl
  · exact bit_accessBits hf ha hi

/-- The bits of a right leave out each field that has another. -/
theorem mask_and_accessBits_other {a : AccessRight} {fs : List Field} {f : Field} (ok : fieldsOk fs = true) (hf : f ∈ fs)
    (ha : f.access ≠ a) : fieldMask f &&& accessBits a fs = 0#16 := by
  apply BitVec.eq_of_getLsbD_eq
  intro i _
  rw [BitVec.getLsbD_and, BitVec.getLsbD_zero]
  cases hi : (fieldMask f).getLsbD i
  · rfl
  · exact accessBits_other ok hf ha hi

section

variable {c : Cfg} {r : Reg} {f : Field} {n : Nat}

/-- A write leaves an `RO` field as it is. -/
theorem getField_write_ro (hf : f ∈ regFields c r) (ha : f.access = .ro) (old v : Word) :
    getField f n (mergeWrite (regRo c r) old v) = getField f n old :=
  getField_mergeWrite_inside _ _ _ _ _ (mask_and_accessBits_same hf ha)

/-- A write sets every other field. -/
theorem getField_write_set (hc : c.layout.wf = true) (hf : f ∈ regFields c r) (ha : f.access ≠ .ro) (old v : Word) :
    getField f n (mergeWrite (regRo c r) old v) = getField f n v :=
  getField_mergeWrite_outside _ _ _ _ _ (mask_and_accessBits_other (regFields_ok hc r) hf ha)

/-- The block's word is the given one with zeros merged into the `W0` fields. -/
theorem blockWord_eq_mergeWrite (c : Cfg) (r : Reg) (v : Word) : blockWord c r v = mergeWrite (regW0 c r) 0#16 v := by
  simp [blockWord, mergeWrite]

theorem getField_blockWord_w0 (hf : f ∈ regFields c r) (ha : f.access = .w0) (v : Word) :
    getField f n (blockWord c r v) = 0#n := by
  rw [blockWord_eq_mergeWrite, regW0, getField_mergeWrite_inside _ _ _ _ _ (mask_and_accessBits_same hf ha)]
  simp [getField]

theorem getField_blockWord_other (hc : c.layout.wf = true) (hf : f ∈ regFields c r) (ha : f.access ≠ .w0) (v : Word) :
    getField f n (blockWord c r v) = getField f n v := by
  rw [blockWord_eq_mergeWrite]
  exact getField_mergeWrite_outside _ _ _ _ _ (mask_and_accessBits_other (regFields_ok hc r) hf ha)

/-- A readable field lies inside the readable bits. -/
theorem mask_and_readableBits (hf : f ∈ regFields c r) (ha : f.access ≠ .wo) :
    fieldMask f &&& readableBits c r = fieldMask f := by
  apply BitVec.eq_of_getLsbD_eq
  intro i _
  simp only [readableBits, BitVec.getLsbD_and, BitVec.getLsbD_or]
  cases hi : (fieldMask f).getLsbD i
  · rfl
  · have own := bit_accessBits hf rfl hi
    cases hacc : f.access with
    | wo => exact absurd hacc ha
    | ro | rw | w0 => rw [hacc] at own; simp [own]

/-- A `WO` field lies inside the open bits. -/
theorem mask_and_openBits_wo (hc : c.layout.wf = true) (hf : f ∈ regFields c r) (ha : f.access = .wo) :
    fieldMask f &&& openBits c r = fieldMask f := by
  have ok := regFields_ok hc r
  have hidesBits : accessBits .wo (regFields c r) ≠ 0#16 := fun h0 => by
    have own := bit_accessBits hf ha (fieldMask_lo (fieldsOk_fits ok hf))
    rw [h0] at own
    simp at own
  rw [openBits, if_neg hidesBits]
  apply and_not_of_and_zero
  apply BitVec.eq_of_getLsbD_eq
  intro i _
  simp only [readableBits, BitVec.getLsbD_and, BitVec.getLsbD_or, BitVec.getLsbD_zero]
  cases hi : (fieldMask f).getLsbD i
  · rfl
  · have apart : ∀ a, f.access ≠ a → (accessBits a (regFields c r)).getLsbD i = false := fun a hne =>
      accessBits_other ok hf hne hi
    simp [apart .ro (by simp [ha]), apart .rw (by simp [ha]), apart .w0 (by simp [ha])]

end

/-! ### What the port holds and what a read shows -/

section

variable {s : State} {r : Reg} {f : Field} {n : Nat}

/-- The word that is stored for a register: what the port holds, but for `DRDY` of CS (R49 c). -/
def storedWord : Reg → State → Word
  | .cs, s => s.cs
  | r, s => portWord r s

theorem storedWord_portWrite (r : Reg) (v : Word) (s : State) :
    storedWord r (portWrite r v s) = mergeWrite (regRo s.cfg r) (storedWord r s) v := by cases r <;> rfl

/-- A field that shares no bit with `DRDY` reads of CS what is stored (R49 c). -/
theorem getField_csValue_of_disjoint (hc : s.cfg.layout.wf = true) (h : f.disjoint s.cfg.layout.csDRDY = true) :
    getField f n (csValue s) = getField f n s.cs := by
  have hw := (Layout.fits_csDRDY hc).1
  apply getField_setField_other
  simp only [Field.disjoint, Bool.or_eq_true, decide_eq_true_eq] at h ⊢
  omega

theorem disjoint_csDRDY {c : Cfg} (hc : c.layout.wf = true) (hf : f ∈ regFields c .cs) (hne : f ≠ c.layout.csDRDY) :
    f.disjoint c.layout.csDRDY = true := by
  have apart := List.rel_of_pairwise_cons (fieldsOk_disjoint (Layout.wf_cs hc)) (List.mem_of_ne_of_mem hne hf)
  rwa [Field.disjoint_comm] at apart

/-- Every field but `DRDY` of CS reads on the port what is stored. -/
theorem getField_portWord (hc : s.cfg.layout.wf = true) (hf : f ∈ regFields s.cfg r)
    (hd : r = .cs → f ≠ s.cfg.layout.csDRDY) : getField f n (portWord r s) = getField f n (storedWord r s) := by
  cases r with
  | cs => exact getField_csValue_of_disjoint hc (disjoint_csDRDY hc hf (hd rfl))
  | _ => rfl

/-- The port after a write of the block: an `RO` field as before, every other one as put on the port (R37). -/
theorem getField_portWord_regWrite (hc : s.cfg.layout.wf = true) (hf : f ∈ regFields s.cfg r)
    (hd : r = .cs → f ≠ s.cfg.layout.csDRDY) (v : Word) :
    getField f n (portWord r (regWrite r v s)) =
      if f.access = .ro then getField f n (portWord r s) else getField f n (blockWord s.cfg r v) := by
  rw [getField_portWord (by simpa using hc) (by simpa using hf) (by simpa using hd), regWrite, storedWord_portWrite]
  split
  · next ha => rw [getField_write_ro hf ha, getField_portWord hc hf hd]
  · next ha => rw [getField_write_set hc hf ha]

/-- A read shows what a readable field holds (R37). -/
theorem getField_regValue_readable (hf : f ∈ regFields s.cfg r) (ha : f.access ≠ .wo) :
    getField f n (regValue r s) = getField f n (portWord r s) := by
  by_cases h0 : openBits s.cfg r = 0#16
  · rw [regValue_closed h0]
  · rw [regValue, if_neg h0]
    apply getField_mergeWrite_outside
    have shown := mask_and_readableBits hf ha
    rw [openBits] at h0 ⊢
    split at h0
    · exact absurd rfl h0
    · next hwo =>
      rw [if_neg hwo, ← shown, BitVec.and_assoc, BitVec.and_not_self]
      exact BitVec.and_zero

/-- A read shows a free value in a `WO` field (R37, U19). -/
theorem getField_regValue_wo (hc : s.cfg.layout.wf = true) (hf : f ∈ regFields s.cfg r) (ha : f.access = .wo) :
    getField f n (regValue r s) = getField f n (Config.freeWord s.free) := by
  have hidden := mask_and_openBits_wo hc hf ha
  have h0 : openBits s.cfg r ≠ 0#16 := fun h0 => by
    have lo := fieldMask_lo (fieldsOk_fits (regFields_ok hc r) hf)
    rw [h0, BitVec.and_zero] at hidden
    rw [← hidden] at lo
    simp at lo
  rw [regValue, if_neg h0, getField_mergeWrite_inside _ _ _ _ _ hidden]

end

/-- Settles O12: the first half is R37 field by field; in the second the controller acts on the word that
`portWrite_cs_acts` speaks of, whose `RO` fields are the old ones. -/
theorem registerAccessRights : Obligations.RegisterAccessRights := by
  refine ⟨fun s r f v hwf hf hd => ?_, fun s v hwf => ⟨_, rfl, ?_⟩⟩
  · have hc := Cfg.wf_layout hwf
    refine ⟨blockWord s.cfg r v, regWrite_bus r v s, fun ha => getField_blockWord_w0 hf ha v,
      fun ha => getField_blockWord_other hc hf ha v, fun ha => ?_, fun ha => ?_,
      getField_regValue_readable hf, getField_regValue_wo hc hf⟩
    · rw [getField_portWord_regWrite hc hf hd, if_pos ha]
    · rw [getField_portWord_regWrite hc hf hd, if_neg ha]
  · obtain ⟨hsel, hkept, hstart⟩ := portWrite_cs_acts s (blockWord s.cfg .cs v)
    have ro : ∀ {f : Field} {n : Nat}, f ∈ regFields s.cfg .cs → f.access = .ro →
        getField f n (regWrite .cs v s).cs = getField f n s.cs := fun hf ha => getField_write_ro hf ha _ _
    exact ⟨hsel, fun ha => hsel.trans (ro (by simp [regFields]) ha), fun ha hr => hstart hr ha,
      ro (by simp [regFields]), hkept⟩

end Sys2Proof.Machine
end

section
/-! PROOFS. What one numbered step can do (spec/10_state.md R32, R33): to the sequencer (`Control`), to the serial state
(`SerialEffect`), to the rest (`StepFrame`). `opStep` is the numbered steps of any operation; each of the three lemmas
`opStep_control`, `opStep_serial` and `opStep_frame` walks through them once, and later proofs use these alone. -/

namespace Sys2Proof.Machine

/-! ### Writes and reads of one register leave the others -/

@[simp] theorem regWrite_sel {r : Reg} (hr : r ≠ .cs) (v : Word) (s : State) : (regWrite r v s).sel = s.sel := by
  cases r with
  | cs => exact absurd rfl hr
  | _ => rfl

@[simp] theorem regWrite_rcsr {r : Reg} (hr : r ≠ .rcsr) (v : Word) (s : State) : (regWrite r v s).rcsr = s.rcsr := by
  cases r with
  | rcsr => exact absurd rfl hr
  | _ => rfl

@[simp] theorem regWrite_xcsr {r : Reg} (hr : r ≠ .xcsr) (hb : r ≠ .xbuf) (v : Word) (s : State) :
    (regWrite r v s).xcsr = s.xcsr := by
  cases r with
  | xcsr => exact absurd rfl hr
  | xbuf => exact absurd rfl hb
  | _ => rfl

@[simp] theorem afterRead_rcsr {r : Reg} (hr : r ≠ .rbuf) (s : State) : (afterRead r s).rcsr = s.rcsr := by
  cases r with
  | rbuf => exact absurd rfl hr
  | _ => rfl

/-! ### The numbered steps of an operation -/

/-- The numbered steps of an operation: of a request, or of `RDHDR` (R151). -/
def opStep : Op → Frame → State → Host.Outcome State Fault Refusal
  | .request i => requestStep i
  | .rdhdr d => rdhdrStep d

/-- A turn of a good innermost frame is the numbered step that it stands at (R33). -/
theorem runTop_eq_opStep {f : Frame} {rest : List Frame} {s : State} (hs : s.seq = .busy f rest) (ok : opOk f.op = true) :
    runTop f s = opStep f.op f s := by
  obtain ⟨op, n, l⟩ := f
  cases op with
  | rdhdr d => rfl
  | request i =>
    have hi : i.isRequest = true := (Bool.and_eq_true_iff.mp ok).1
    exact (exec_request hi s).trans (transition_own hs rfl)

/-! ### DeviceStatus -/

/-- The state label and the drive type are those of the last drive-status word (R149, R169). -/
def Labelled (c : Cfg) (ds : DeviceStatus) : Prop :=
  ds.stateLabel = stateLabel c (mpState c ds.mpStatus) ∧ ds.driveType = driveType c ds.mpStatus

theorem labelled_recordStatus (c : Cfg) (m : Word) (ds : DeviceStatus) : Labelled c (recordStatus c m ds) := ⟨rfl, rfl⟩

/-- The reset values are those of the drive-status word 0. -/
theorem labelled_reset (c : Cfg) : Labelled c (DeviceStatus.reset c) := by
  have zero : ∀ f n, getField f n 0#16 = 0#n := fun f n => by simp [getField]
  constructor
  · simp [DeviceStatus.reset, stateLabel, mpState, zero]
  · simp [DeviceStatus.reset, driveType, mpLarge, flagField, zero]

/-! ### What every step leaves alone -/

/-- What a step of `op` leaves as it was outside the sequencer and the rings: only `C_CMD` selects a drive, by its command
write, and DeviceStatus keeps its labels consistent. -/
structure StepFrame (op : Op) (s t : State) : Prop where
  cfg : t.cfg = s.cfg
  mem : t.mem = s.mem
  boot : t.boot = s.boot
  rcsr : t.rcsr = s.rcsr
  sel : t.sel = s.sel ∨ ∃ d fn, op = .request (.cCmd d fn) ∧ t.sel = (issueCommand d fn s).sel
  labelled : Labelled s.cfg s.ds → Labelled s.cfg t.ds

theorem opStep_frame {op : Op} {f : Frame} {s t : State} (h : opStep op f s = .next t) : StepFrame op s t := by
  cases op with
  | rdhdr d =>
    simp only [opStep, rdhdrStep] at h
    split at h <;> cases h <;> constructor <;> simp [Labelled, recordHeader]
  | request i =>
    cases i with
    | svcRx | svcTx | getStatus | seek | readHeader | readData => cases h
    | cStat d reset =>
      simp only [opStep, requestStep, cStatStep] at h
      split at h <;> cases h <;> constructor <;> simp [labelled_recordStatus]
    | cCmd d fn =>
      simp only [opStep, requestStep, cCmdStep] at h
      split at h <;> cases h <;> constructor <;> simp [Labelled, recordError]
    | sceInit =>
      simp only [opStep, requestStep, sceInitStep] at h
      split at h <;> cases h
      constructor <;> simp [labelled_reset]
    | cWaitc =>
      simp only [opStep, requestStep, cWaitcStep] at h
      split at h
      · split at h <;> cases h <;> constructor <;> simp [Labelled]
      · cases h
    | srxRd | stxWr | srxAvail | srtInit | cWaitd | cSeek | cRdblk | cDecerr | cDecst =>
      simp only [opStep, requestStep, srxRdStep, stxWrStep, srxAvailStep, srtInitStep, cWaitdStep, cSeekStep, cRdblkStep,
        cDecerrStep, cDecstStep] at h
      split at h <;> cases h <;> constructor <;>
        simp [Labelled, apply_ite State.cfg, apply_ite State.mem, apply_ite State.boot, apply_ite State.rcsr,
          apply_ite State.sel, apply_ite State.ds]

/-! ### What a step does to the rings and to XCSR -/

/-- What a step of `op` does to the serial state (R25): nothing, or what `SRX_RD`, `STX_WR` or `SRT_INIT` does to it. -/
inductive SerialEffect (op : Op) (s t : State) : Prop
  | kept (rx : t.rx = s.rx) (ovf : t.rxOvf = s.rxOvf) (tx : t.tx = s.tx) (xcsr : t.xcsr = s.xcsr)
  /-- `SRX_RD` takes the oldest byte (R126). -/
  | taken (hop : op = .request .srxRd) (rx : t.rx = s.rx.drop s.cfg.rxCap) (ovf : t.rxOvf = s.rxOvf) (tx : t.tx = s.tx)
      (xcsr : t.xcsr = s.xcsr)
  /-- `STX_WR b` sets `TIE`, and appends its byte or finds the ring full (R128). -/
  | queued (b : Byte) (hop : op = .request (.stxWr b)) (rx : t.rx = s.rx) (ovf : t.rxOvf = s.rxOvf)
      (tx : t.tx = s.tx ∨ t.tx = s.tx.push s.cfg.txCap b)
      (xcsr : t.xcsr = (regWrite .xcsr (tieWord s.cfg true) s).xcsr)
  /-- `SRT_INIT` empties both rings (R130). -/
  | cleared (hop : op = .request .srtInit) (rx : t.rx = s.rx.clear) (ovf : t.rxOvf = 0) (tx : t.tx = s.tx.clear)
      (xcsr : t.xcsr = s.xcsr)

theorem opStep_serial {op : Op} {f : Frame} {s t : State} (h : opStep op f s = .next t) : SerialEffect op s t := by
  cases op with
  | rdhdr d =>
    simp only [opStep, rdhdrStep] at h
    split at h <;> cases h <;> exact .kept (by simp) (by simp) (by simp) (by simp)
  | request i =>
    cases i with
    | svcRx | svcTx | getStatus | seek | readHeader | readData => cases h
    | srxRd =>
      simp only [opStep, requestStep, srxRdStep] at h
      split at h <;> cases h
      · split <;> exact .kept (by simp) (by simp) (by simp) (by simp)
      · exact .taken rfl (by simp) (by simp) (by simp) (by simp)
    | stxWr b =>
      simp only [opStep, requestStep, stxWrStep] at h
      split at h <;> cases h
      · split
        · exact .queued b rfl (by simp) (by simp) (.inl (by simp)) rfl
        · exact .kept (by simp) (by simp) (by simp) (by simp)
      · exact .queued b rfl (by simp) (by simp) (.inr (by simp)) (by simp [regWrite, portWrite])
    | srtInit =>
      simp only [opStep, requestStep, srtInitStep] at h
      split at h <;> cases h
      exact .cleared rfl (by simp) (by simp) (by simp) (by simp)
    | cWaitc =>
      simp only [opStep, requestStep, cWaitcStep] at h
      split at h
      · split at h <;> cases h <;> exact .kept (by simp) (by simp) (by simp) (by simp)
      · cases h
    | srxAvail | sceInit | cWaitd | cCmd | cStat | cSeek | cRdblk | cDecerr | cDecst =>
      simp only [opStep, requestStep, srxAvailStep, sceInitStep, cWaitdStep, cCmdStep, cStatStep, cSeekStep, cRdblkStep,
        cDecerrStep, cDecstStep] at h
      split at h <;> cases h <;>
        exact .kept (by simp [apply_ite State.rx]) (by simp [apply_ite State.rxOvf]) (by simp [apply_ite State.tx])
          (by simp [apply_ite State.xcsr])

/-! ### Who calls whom -/

/-- The calls of the storage operations: `callee` as a relation, one constructor for each `call` step (R143, R145, R148,
R151, R152, R160). -/
inductive Calls : Op → Nat → Op → Prop
  | refresh (d : Drive) (reset : Bool) : Calls (.request (.cWaitd d true reset)) 1 (.request (.cStat d reset))
  | onError (d : Drive) (refresh reset : Bool) :
      Calls (.request (.cWaitd d refresh reset)) 3 (.request (.cStat d true))
  | waitBefore (d : Drive) (fn : Fn) : Calls (.request (.cCmd d fn)) 1 (.request .cWaitc)
  | waitAfter (d : Drive) (fn : Fn) : Calls (.request (.cCmd d fn)) 3 (.request .cWaitc)
  | status (d : Drive) (reset : Bool) : Calls (.request (.cStat d reset)) 2 (.request (.cCmd d .getStatus))
  | header (d : Drive) : Calls (.rdhdr d) 1 (.request (.cCmd d .readHeader))
  | headerBefore (d : Drive) (hd : BitVec 1) (cyl : BitVec 9) : Calls (.request (.cSeek d hd cyl)) 1 (.rdhdr d)
  | seek (d : Drive) (hd : BitVec 1) (cyl : BitVec 9) : Calls (.request (.cSeek d hd cyl)) 4 (.request (.cCmd d .seek))
  | arrive (d : Drive) (hd : BitVec 1) (cyl : BitVec 9) :
      Calls (.request (.cSeek d hd cyl)) 5 (.request (.cWaitd d false false))
  | headerAfter (d : Drive) (hd : BitVec 1) (cyl : BitVec 9) : Calls (.request (.cSeek d hd cyl)) 6 (.rdhdr d)
  | position (d : Drive) (sec : BitVec 6) (hd : BitVec 1) (cyl : BitVec 9) (wc ba : Word) :
      Calls (.request (.cRdblk d sec hd cyl wc ba)) 2 (.request (.cSeek d hd cyl))
  | read (d : Drive) (sec : BitVec 6) (hd : BitVec 1) (cyl : BitVec 9) (wc ba : Word) :
      Calls (.request (.cRdblk d sec hd cyl wc ba)) 6 (.request (.cCmd d .readData))

theorem callee_iff_calls {op op' : Op} {n : Nat} : callee op n = some op' ↔ Calls op n op' := by
  refine ⟨fun h => ?_, fun h => by cases h <;> simp [callee]⟩
  unfold callee at h
  split at h
  case h_1 =>
    split_ifs at h with h1 h3
    · obtain ⟨rfl, rfl⟩ := h1; cases h; constructor
    · subst h3; cases h; constructor
  case h_2 =>
    split_ifs at h with h1
    cases h
    obtain rfl | rfl := h1 <;> constructor
  case h_3 | h_4 =>
    split_ifs at h with h1
    subst h1; cases h; constructor
  case h_5 =>
    split_ifs at h with h1 h4 h5
    · cases h
      obtain rfl | rfl := h1 <;> constructor
    · subst h4; cases h; constructor
    · subst h5; cases h; constructor
  case h_6 =>
    split_ifs at h with h2 h6
    · subst h2; cases h; constructor
    · subst h6; cases h; constructor
  case h_7 => cases h

/-- The drive of an operation of the storage engine that has one (R91). -/
def opDrive : Op → Option Drive
  | .rdhdr d | .request (.cWaitd d _ _) | .request (.cCmd d _) | .request (.cStat d _) | .request (.cSeek d _ _)
  | .request (.cRdblk d _ _ _ _ _) => some d
  | _ => none

/-- `SRX_RD`, `STX_WR` and `SRT_INIT`, which call nothing and which nothing calls. -/
def standsAlone : Op → Bool
  | .request .srxRd | .request (.stxWr _) | .request .srtInit => true
  | _ => false

namespace Calls

variable {op op' : Op} {n : Nat}

/-- No operation ends with a call: the calling step has a next one. -/
theorem lt_lastStep (h : Calls op n op') : n < lastStep op := by cases h <;> simp [lastStep]

/-- An operation that is called has a step 1. -/
theorem one_le_lastStep (h : Calls op n op') : 1 ≤ lastStep op' := by cases h <;> simp [lastStep]

/-- What is called is well-formed. -/
theorem opOk_callee (h : Calls op n op') : opOk op' = true := by cases h <;> rfl

theorem standsAlone_caller (h : Calls op n op') : standsAlone op = false := by cases h <;> rfl

theorem standsAlone_callee (h : Calls op n op') : standsAlone op' = false := by cases h <;> rfl

/-- A call passes the caller's drive on. -/
theorem drive_caller {d : Drive} (h : Calls op n op') (hd : opDrive op' = some d) : opDrive op = some d := by
  cases h with
  | waitBefore | waitAfter => cases hd
  | _ => exact hd

end Calls

/-! ### Where a step leaves the sequencer -/

/-- The sequencer after an answer from a frame with the frames `rest` below it (R32). -/
def afterAnswer (v : Response) : List Frame → Seq
  | [] => .idle
  | g :: below => .busy (receive v g) below

/-- What the data of `t` meets when a frame stands at its step: room at step 2 of `STX_WR` (R128), a byte at step 2 of
`SRX_RD` (R126), the drive selected at the steps of `C_CMD` and `C_SEEK` that rest on it (R227). -/
structure EntryOk (t : State) (f : Frame) : Prop where
  room : ∀ b, f.op = .request (.stxWr b) → f.step = 2 → t.tx.isFull t.cfg.txCap = false
  byte : f.op = .request .srxRd → f.step = 2 → t.rx.isEmpty = false
  sel : t.cfg.standard = true → selOk t.sel f = true

/-- Where a step of the innermost frame `f` leaves the sequencer (R33): the frame stays or goes to another step, calls, or
answers. `C_CMD` answers only after its command write. -/
inductive Control (f : Frame) (rest : List Frame) (t : State) : Prop
  | goto (n : Nat) (l : Locals) (ok : frameOk ⟨f.op, n, l⟩ = true) (entry : EntryOk t ⟨f.op, n, l⟩)
      (hseq : t.seq = .busy ⟨f.op, n, l⟩ rest)
  | call (op : Op) (hcall : Calls f.op f.step op) (hseq : t.seq = .busy (firstFrame op) (f :: rest))
  | answer (v : Response) (last : ∀ d fn, f.op = .request (.cCmd d fn) → 3 ≤ f.step)
      (hseq : t.seq = afterAnswer v rest)

theorem seq_onTop {s : State} {f : Frame} {rest : List Frame} (g : Frame → Frame) (hs : s.seq = .busy f rest) :
    (onTop g s).seq = .busy (g f) rest := by rw [onTop_busy g hs]

theorem seq_advance {s : State} {f : Frame} {rest : List Frame} (hs : s.seq = .busy f rest) :
    (advance s).seq = .busy ⟨f.op, f.step + 1, f.locals⟩ rest := seq_onTop _ hs

theorem seq_call {s : State} {f : Frame} {rest : List Frame} (op : Op) (hs : s.seq = .busy f rest) :
    (call op s).seq = .busy (firstFrame op) (f :: rest) := by rw [call_busy op hs]

theorem seq_respond {s : State} {f : Frame} {rest : List Frame} (v : Response) (hs : s.seq = .busy f rest) :
    (respond v s).seq = afterAnswer v rest := by
  cases rest with
  | nil => rw [respond_outermost v hs]; rfl
  | cons g below => rw [respond_inner v hs]; rfl

/-! ### The command word -/

/-- The fields of the command word (R108). -/
theorem csCmd_fields {c : Cfg} (hc : c.standard = true) (d : Drive) (fn : Fn) :
    csDrive c (csCmd c d fn) = d ∧ csFunction c (csCmd c d fn) = fcode c fn ∧ csReady c (csCmd c d fn) = false
    ∧ getField c.layout.csBAX 2 (csCmd c d fn) = 0#2 ∧ getField c.layout.csIE 1 (csCmd c d fn) = 0#1 := by
  have l := Cfg.standard_layout hc
  have h := Cfg.standard_shaped hc
  have p := fieldsOk_disjoint (Layout.wf_cs l)
  simp only [List.pairwise_cons, List.mem_cons, List.not_mem_nil, or_false, forall_eq_or_imp, forall_eq] at p
  obtain ⟨-, ⟨fBax, fIe, fCrdy, fDs, -⟩, ⟨-, -, baxDs, -⟩, ⟨-, ieDs, -⟩, ⟨crdyDs, -⟩, -⟩ := p
  rw [Field.disjoint_comm] at fBax fIe fCrdy
  simp only [csDrive, csFunction, csReady, flagField, csCmd, getField_or,
    getField_putField_same _ _ (Layout.shaped_csDS h).1 (Layout.fits_csDS l).2,
    getField_putField_same _ _ (Layout.shaped_csF h).1 (Layout.fits_csF l).2,
    getField_putField_other _ _ _ _ fDs, getField_putField_other _ _ _ _ (Field.disjoint_comm _ _ ▸ fDs),
    getField_putField_other _ _ _ _ crdyDs, getField_putField_other _ _ _ _ fCrdy,
    getField_putField_other _ _ _ _ baxDs, getField_putField_other _ _ _ _ fBax,
    getField_putField_other _ _ _ _ ieDs, getField_putField_other _ _ _ _ fIe]
  simp

/-- The command write selects its drive (R227). -/
theorem issueCommand_sel {s : State} (hc : s.cfg.standard = true) (d : Drive) (fn : Fn) :
    (issueCommand d fn s).sel = d := by
  obtain ⟨-, written, -⟩ := mergeWrite_cs hc s.cs (csCmd s.cfg d fn)
  calc (issueCommand d fn s).sel
      = csDrive s.cfg (mergeWrite (regRo s.cfg .cs) s.cs (blockWord s.cfg .cs (csCmd s.cfg d fn))) := rfl
    _ = csDrive s.cfg (csCmd s.cfg d fn) := by rw [blockWord_csCmd hc, written]
    _ = d := (csCmd_fields hc d fn).1

/-! ### Every step follows `Control` -/

theorem entryOk_first {t : State} {f : Frame} (h1 : f.step = 1) : EntryOk t f where
  room _ _ h2 := by omega
  byte _ h2 := by omega
  sel _ := by
    unfold selOk
    split <;> simp [h1]

theorem entryOk_storage {t : State} {f : Frame} (ha : standsAlone f.op = false) (hsel : ∀ d, selOk d f = true) :
    EntryOk t f where
  room b hop := by rw [hop] at ha; cases ha
  byte hop := by rw [hop] at ha; cases ha
  sel _ := hsel _

variable {s t : State} {rest : List Frame} {n : Nat} {l : Locals}

/-- Where the steps of the serial operations leave the sequencer: the rings decide who may go on (R126, R128). -/
theorem serialStep_control {i : Instr} (hi : i = .srxRd ∨ (∃ b, i = .stxWr b) ∨ i = .srxAvail ∨ i = .srtInit)
    (hs : s.seq = .busy ⟨.request i, n, l⟩ rest) (ok : frameOk ⟨.request i, n, l⟩ = true)
    (h : requestStep i ⟨.request i, n, l⟩ s = .next t) : Control ⟨.request i, n, l⟩ rest t := by
  obtain rfl | ⟨b, rfl⟩ | rfl | rfl := hi
  · simp only [requestStep, srxRdStep] at h
    split at h <;> cases h
    · split
      · exact .goto 1 l ok (entryOk_first rfl) hs
      · next he => exact .goto 2 l rfl ⟨by simp, by simpa using he, by simp [selOk]⟩ (seq_advance hs)
    · exact .answer _ (by simp) (seq_respond _ hs)
  · simp only [requestStep, stxWrStep] at h
    split at h <;> cases h
    · split
      · exact .goto 1 l ok (entryOk_first rfl) (by simpa using hs)
      · next hf => exact .goto 2 l rfl ⟨by simpa using hf, by simp, by simp [selOk]⟩ (seq_advance hs)
    · exact .answer _ (by simp) (seq_respond _ (by simpa using hs))
  · simp only [requestStep, srxAvailStep] at h
    split at h <;> cases h
    exact .answer _ (by simp) (seq_respond _ hs)
  · simp only [requestStep, srtInitStep] at h
    split at h <;> cases h
    exact .answer _ (by simp) (seq_respond _ hs)

theorem cWaitdStep_control {d : Drive} {refresh reset : Bool}
    (hs : s.seq = .busy ⟨.request (.cWaitd d refresh reset), n, l⟩ rest)
    (h : cWaitdStep d refresh reset ⟨.request (.cWaitd d refresh reset), n, l⟩ s = .next t) :
    Control ⟨.request (.cWaitd d refresh reset), n, l⟩ rest t := by
  simp only [cWaitdStep] at h
  split at h <;> cases h
  · cases refresh
    · exact .goto 2 l rfl (entryOk_storage rfl fun _ => rfl) (seq_advance hs)
    · exact .call _ (.refresh d reset) (seq_call _ hs)
  · have read := seq_onTop (fun f => { f with locals := { f.locals with c := regValue .cs s } })
      ((afterRead_seq .cs s).trans hs)
    split
    · exact .answer _ (by simp) (seq_respond _ read)
    · exact .goto 3 { l with c := regValue .cs s } rfl (entryOk_storage rfl fun _ => rfl) (seq_advance read)
  · split
    · exact .call _ (.onError d refresh reset) (seq_call _ hs)
    · exact .goto 4 l rfl (entryOk_storage rfl fun _ => rfl) (seq_advance hs)
  · exact .goto 2 l rfl (entryOk_storage rfl fun _ => rfl) (seq_onTop _ hs)

theorem cCmdStep_control {d : Drive} {fn : Fn} (hs : s.seq = .busy ⟨.request (.cCmd d fn), n, l⟩ rest)
    (ok : frameOk ⟨.request (.cCmd d fn), n, l⟩ = true)
    (h : cCmdStep d fn ⟨.request (.cCmd d fn), n, l⟩ s = .next t) :
    Control ⟨.request (.cCmd d fn), n, l⟩ rest t := by
  simp only [cCmdStep] at h
  split at h <;> cases h
  · exact .call _ (.waitBefore d fn) (seq_call _ hs)
  · refine .goto 3 l (by simpa [frameOk, lastStep, localsOk] using ok) ⟨by simp, by simp, fun hc => ?_⟩ (seq_advance hs)
    simp only [advance_cfg, issueCommand_cfg] at hc
    simp [selOk, issueCommand_sel hc]
  · exact .call _ (.waitAfter d fn) (seq_call _ hs)
  · exact .answer _ (by simp) (seq_respond _ hs)

theorem cStatStep_control {d : Drive} {reset : Bool} (hs : s.seq = .busy ⟨.request (.cStat d reset), n, l⟩ rest)
    (h : cStatStep d reset ⟨.request (.cStat d reset), n, l⟩ s = .next t) :
    Control ⟨.request (.cStat d reset), n, l⟩ rest t := by
  simp only [cStatStep] at h
  split at h <;> cases h
  · exact .goto 2 l rfl (entryOk_storage rfl fun _ => rfl) (seq_advance (by simpa using hs))
  · exact .call _ (.status d reset) (seq_call _ hs)
  · exact .answer _ (by simp) (seq_respond _ (by simpa using hs))

theorem rdhdrStep_control {d : Drive} (hs : s.seq = .busy ⟨.rdhdr d, n, l⟩ rest)
    (h : rdhdrStep d ⟨.rdhdr d, n, l⟩ s = .next t) : Control ⟨.rdhdr d, n, l⟩ rest t := by
  simp only [rdhdrStep] at h
  split at h <;> cases h
  · exact .call _ (.header d) (seq_call _ hs)
  · exact .answer _ (by simp) (seq_respond _ (by simpa using hs))

/-- `C_SEEK` goes to step 3 only off its target cylinder (R152). -/
theorem cSeekStep_control {d : Drive} {hd : BitVec 1} {cyl : BitVec 9}
    (hs : s.seq = .busy ⟨.request (.cSeek d hd cyl), n, l⟩ rest)
    (h : cSeekStep d hd cyl ⟨.request (.cSeek d hd cyl), n, l⟩ s = .next t) :
    Control ⟨.request (.cSeek d hd cyl), n, l⟩ rest t := by
  simp only [cSeekStep] at h
  split at h <;> cases h
  · exact .call _ (.headerBefore d hd cyl) (seq_call _ hs)
  · have cur := seq_onTop (fun f => { f with locals := { f.locals with cur := headerCyl s.cfg l.h } }) hs
    split
    · exact .answer _ (by simp) (seq_respond _ cur)
    · next hne =>
      exact .goto 3 { l with cur := headerCyl s.cfg l.h }
        (by simp [frameOk, lastStep, localsOk, hne, opOk, Instr.isRequest, Instr.wf]) (entryOk_storage rfl fun _ => rfl) (seq_advance cur)
  · exact .goto 4 l rfl (entryOk_storage rfl fun _ => rfl) (seq_advance (by simpa using hs))
  · exact .call _ (.seek d hd cyl) (seq_call _ hs)
  · exact .call _ (.arrive d hd cyl) (seq_call _ hs)
  · exact .call _ (.headerAfter d hd cyl) (seq_call _ hs)
  · exact .answer _ (by simp) (seq_respond _ hs)

theorem cRdblkStep_control {d : Drive} {sec : BitVec 6} {hd : BitVec 1} {cyl : BitVec 9} {wc ba : Word}
    (hs : s.seq = .busy ⟨.request (.cRdblk d sec hd cyl wc ba), n, l⟩ rest)
    (ok : frameOk ⟨.request (.cRdblk d sec hd cyl wc ba), n, l⟩ = true)
    (h : cRdblkStep d sec hd cyl wc ba ⟨.request (.cRdblk d sec hd cyl wc ba), n, l⟩ s = .next t) :
    Control ⟨.request (.cRdblk d sec hd cyl wc ba), n, l⟩ rest t := by
  have okAt : ∀ k, 1 ≤ k → k ≤ 7 → frameOk ⟨.request (.cRdblk d sec hd cyl wc ba), k, l⟩ = true := by
    intro k h1 h7
    simp only [frameOk, Bool.and_eq_true] at ok
    simp [frameOk, lastStep, localsOk, ok.1, h1, h7]
  simp only [cRdblkStep] at h
  split at h <;> cases h
  · split
    · exact .answer _ (by simp) (seq_respond _ hs)
    · exact .goto 2 l (okAt 2 (by omega) (by omega)) (entryOk_storage rfl fun _ => rfl) (seq_advance hs)
  · exact .call _ (.position d sec hd cyl wc ba) (seq_call _ hs)
  · exact .goto 4 l (okAt 4 (by omega) (by omega)) (entryOk_storage rfl fun _ => rfl) (seq_advance (by simpa using hs))
  · exact .goto 5 l (okAt 5 (by omega) (by omega)) (entryOk_storage rfl fun _ => rfl) (seq_advance (by simpa using hs))
  · exact .goto 6 l (okAt 6 (by omega) (by omega)) (entryOk_storage rfl fun _ => rfl) (seq_advance (by simpa using hs))
  · exact .call _ (.read d sec hd cyl wc ba) (seq_call _ hs)
  · exact .answer _ (by simp) (seq_respond _ hs)

theorem opStep_control {f : Frame} (hs : s.seq = .busy f rest) (ok : frameOk f = true)
    (h : opStep f.op f s = .next t) : Control f rest t := by
  obtain ⟨op, n, l⟩ := f
  cases op with
  | rdhdr d => exact rdhdrStep_control hs h
  | request i =>
    cases i with
    | svcRx | svcTx | getStatus | seek | readHeader | readData => cases h
    | srxRd => exact serialStep_control (.inl rfl) hs ok h
    | stxWr b => exact serialStep_control (.inr (.inl ⟨b, rfl⟩)) hs ok h
    | srxAvail => exact serialStep_control (.inr (.inr (.inl rfl))) hs ok h
    | srtInit => exact serialStep_control (.inr (.inr (.inr rfl))) hs ok h
    | cWaitd => exact cWaitdStep_control hs h
    | cCmd => exact cCmdStep_control hs ok h
    | cStat => exact cStatStep_control hs h
    | cSeek => exact cSeekStep_control hs h
    | cRdblk => exact cRdblkStep_control hs ok h
    | cWaitc =>
      simp only [opStep, requestStep, cWaitcStep] at h
      split at h
      · split at h <;> cases h
        · exact .answer _ (by simp) (seq_respond _ (by simpa using hs))
        · exact .goto 1 l ok (entryOk_first rfl) (by simpa using hs)
      · cases h
    | sceInit | cDecerr | cDecst =>
      simp only [opStep, requestStep, sceInitStep, cDecerrStep, cDecstStep] at h
      split at h <;> cases h
      exact .answer _ (by simp) (seq_respond _ hs)

end Sys2Proof.Machine
end

section
/-! PROOFS. What every step keeps (spec/10_state.md R21, R22, R26, R32): the shape of the sequencer's stack and its depth,
the selected drive, and the invariant as a whole. First the stack under `Control`, then one lemma for each move that
touches a part of the invariant, then the step. -/

namespace Sys2Proof.Machine

/-! ### The shape of the stack -/

theorem stackOk_top {f : Frame} {rest : List Frame} (h : stackOk f rest = true) : frameOk f = true := by
  cases rest with
  | nil => exact (Bool.and_eq_true_iff.mp h).1
  | cons g below => exact (Bool.and_eq_true_iff.mp h).1

theorem stackOk_cons {f g : Frame} {below : List Frame} :
    stackOk f (g :: below) = true ↔ frameOk f = true ∧ callee g.op g.step = some f.op ∧ stackOk g below = true := by
  simp [stackOk]

/-- What the frames below see of the innermost frame is its operation. -/
theorem stackOk_congr {f f' : Frame} {rest : List Frame} (hop : f'.op = f.op) (ok : frameOk f' = true)
    (h : stackOk f rest = true) : stackOk f' rest = true := by
  cases rest with
  | nil =>
    have outer := (Bool.and_eq_true_iff.mp h).2
    rw [← hop] at outer
    exact Bool.and_eq_true_iff.mpr ⟨ok, outer⟩
  | cons g below =>
    obtain ⟨-, hcall, hbelow⟩ := stackOk_cons.mp h
    exact stackOk_cons.mpr ⟨ok, hop ▸ hcall, hbelow⟩

theorem frameOk_firstFrame {op : Op} (ok : opOk op = true) (h1 : 1 ≤ lastStep op) : frameOk (firstFrame op) = true := by
  have locals : localsOk (firstFrame op) = true := by
    unfold localsOk
    split <;> simp [firstFrame]
  simp only [frameOk, Bool.and_eq_true, decide_eq_true_eq]
  exact ⟨ok, Nat.le_refl 1, h1, locals⟩

/-- A calling frame that gets its answer stands at a step of its operation, and `C_SEEK` not at step 3 (R152). -/
theorem frameOk_receive {g : Frame} {op : Op} (v : Response) (ok : frameOk g = true) (hcall : Calls g.op g.step op) :
    frameOk (receive v g) = true := by
  obtain ⟨hstep, hop⟩ := receive_step v g
  have locals : localsOk (receive v g) = true := by
    unfold localsOk
    split
    · next d hd cyl hseek =>
      rw [decide_eq_true_eq, hstep]
      intro h3
      have h2 : g.step = 2 := by omega
      rw [← hop, hseek, h2] at hcall
      cases hcall
    · rfl
  simp only [frameOk, Bool.and_eq_true, decide_eq_true_eq] at ok ⊢
  rw [hop, hstep]
  exact ⟨ok.1, by omega, hcall.lt_lastStep, locals⟩

/-- Every step keeps the shape of the stack (R32). -/
theorem Control.seqOk_next {f : Frame} {rest : List Frame} {t : State} (h : Control f rest t) (ok : stackOk f rest = true) :
    seqOk t.seq = true := by
  cases h with
  | goto n l fok entry hseq => rw [hseq]; exact stackOk_congr (f := f) rfl fok ok
  | call op hcall hseq =>
    rw [hseq]
    exact stackOk_cons.mpr ⟨frameOk_firstFrame hcall.opOk_callee hcall.one_le_lastStep, callee_iff_calls.mpr hcall, ok⟩
  | answer v last hseq =>
    rw [hseq]
    cases rest with
    | nil => rfl
    | cons g below =>
      obtain ⟨-, hcall, hbelow⟩ := stackOk_cons.mp ok
      exact stackOk_congr (receive_step v g).2 (frameOk_receive v (stackOk_top hbelow) (callee_iff_calls.mp hcall)) hbelow

/-- After a step of `f` an operation that stands alone is innermost only if it was before, and it may stand where it
does. -/
theorem Control.standsAlone_next {f f' : Frame} {rest rest' : List Frame} {t : State} (h : Control f rest t)
    (ok : stackOk f rest = true) (hs : t.seq = .busy f' rest') (ha : standsAlone f'.op = true) :
    f'.op = f.op ∧ EntryOk t f' := by
  cases h with
  | goto n l fok entry hseq =>
    obtain ⟨rfl, rfl⟩ := Seq.busy.inj (hseq.symm.trans hs)
    exact ⟨rfl, entry⟩
  | call op hcall hseq =>
    obtain ⟨rfl, rfl⟩ := Seq.busy.inj (hseq.symm.trans hs)
    exact absurd ha (by simp [firstFrame, hcall.standsAlone_callee])
  | answer v last hseq =>
    cases rest with
    | nil => exact absurd (hseq.symm.trans hs) (by simp [afterAnswer])
    | cons g below =>
      obtain ⟨rfl, rfl⟩ := Seq.busy.inj (hseq.symm.trans hs)
      obtain ⟨-, hcall, -⟩ := stackOk_cons.mp ok
      exact absurd ha (by simp [(receive_step v g).2, (callee_iff_calls.mp hcall).standsAlone_caller])

/-! ### The depth of the stack -/

/-- How many frames an operation can have on the stack, its own included (R32). -/
def nesting : Op → Nat
  | .rdhdr _ | .request (.cStat _ _) => 3
  | .request (.cCmd _ _) => 2
  | .request (.cWaitd _ _ _) => 4
  | .request (.cSeek _ _ _) => 5
  | .request (.cRdblk _ _ _ _ _ _) => 6
  | _ => 1

theorem nesting_le (op : Op) : 1 ≤ nesting op ∧ nesting op ≤ 6 := by
  unfold nesting
  split <;> omega

theorem Calls.nesting_lt {op op' : Op} {n : Nat} (h : Calls op n op') : nesting op' < nesting op := by
  cases h <;> simp [nesting]

theorem stack_depth {f : Frame} {rest : List Frame} (ok : stackOk f rest = true) : nesting f.op + rest.length ≤ 6 := by
  induction rest generalizing f with
  | nil => exact (nesting_le f.op).2
  | cons g below ih =>
    obtain ⟨-, hcall, hbelow⟩ := stackOk_cons.mp ok
    have := (callee_iff_calls.mp hcall).nesting_lt
    have := ih hbelow
    simp only [List.length_cons]
    omega

/-- R32: a good stack has at most six frames. -/
theorem depth_le_six {q : Seq} (ok : seqOk q = true) : q.depth ≤ 6 := by
  cases q with
  | idle => exact Nat.zero_le 6
  | busy f rest =>
    have := stack_depth ok
    have := (nesting_le f.op).1
    simp only [Seq.depth]
    omega

/-! ### The selected drive -/

/-- The drive of a frame is that of every frame below it. -/
theorem stack_drive {f g : Frame} {rest : List Frame} {d : Drive} (ok : stackOk f rest = true)
    (hd : opDrive f.op = some d) (hg : g ∈ rest) : opDrive g.op = some d := by
  induction rest generalizing f with
  | nil => cases hg
  | cons g' below ih =>
    obtain ⟨-, hcall, hbelow⟩ := stackOk_cons.mp ok
    have hd' := (callee_iff_calls.mp hcall).drive_caller hd
    rcases List.mem_cons.mp hg with rfl | hg
    · exact hd'
    · exact ih hbelow hd' hg

theorem selOk_of_drive {f : Frame} {d : Drive} (hd : opDrive f.op = some d) : selOk d f = true := by
  unfold selOk
  split
  · next h => rw [h] at hd; cases hd; simp
  · next h => rw [h] at hd; cases hd; simp
  · rfl

/-- A caller that gets its answer stands where its drive is selected: `C_CMD` at step 4 as at step 3, `C_SEEK` at step 5
after its seek command (R227). -/
theorem selOk_receive {sel : Drive} {f g : Frame} (v : Response) (hcall : Calls g.op g.step f.op)
    (hg : selOk sel g = true) (hf : selOk sel f = true) (last : ∀ d fn, f.op = .request (.cCmd d fn) → 3 ≤ f.step) :
    selOk sel (receive v g) = true := by
  obtain ⟨hstep, hop⟩ := receive_step v g
  obtain ⟨gop, gn, gl⟩ := g
  obtain ⟨fop, fn, fl⟩ := f
  simp only at hcall hstep hop
  cases hcall with
  | seek d hd cyl =>
    have at3 : 3 ≤ fn := last d .seek rfl
    have hsel : sel = d := by simpa [selOk, Nat.not_lt.mpr at3] using hf
    simp [selOk, hop, hsel]
  | _ => simp_all [selOk]

/-- Every step keeps the drive of the last command selected where a frame rests on it (R227). -/
theorem Control.selOk_next {f : Frame} {rest : List Frame} {s t : State} (h : Control f rest t) (ok : stackOk f rest = true)
    (hstd : t.cfg.standard = true) (old : ∀ g ∈ f :: rest, selOk s.sel g = true)
    (hsel : t.sel = s.sel ∨ opDrive f.op = some t.sel) : ∀ g ∈ t.seq.frames, selOk t.sel g = true := by
  have kept : ∀ g ∈ f :: rest, selOk t.sel g = true := by
    obtain hsel | hd := hsel
    · rwa [hsel]
    · intro g hg
      rcases List.mem_cons.mp hg with rfl | hg
      · exact selOk_of_drive hd
      · exact selOk_of_drive (stack_drive ok hd hg)
  rw [List.forall_mem_cons] at kept
  obtain ⟨hf, hrest⟩ := kept
  cases h with
  | goto n l fok entry hseq => rw [hseq]; exact List.forall_mem_cons.mpr ⟨entry.sel hstd, hrest⟩
  | call op hcall hseq =>
    rw [hseq]
    have first : EntryOk t (firstFrame op) := entryOk_first rfl
    exact List.forall_mem_cons.mpr ⟨first.sel hstd, List.forall_mem_cons.mpr ⟨hf, hrest⟩⟩
  | answer v last hseq =>
    rw [hseq]
    cases rest with
    | nil => intro g hg; cases hg
    | cons g below =>
      obtain ⟨-, hcall, -⟩ := stackOk_cons.mp ok
      obtain ⟨hg, hbelow⟩ := List.forall_mem_cons.mp hrest
      exact List.forall_mem_cons.mpr ⟨selOk_receive v (callee_iff_calls.mp hcall) hg hf last, hbelow⟩

end Sys2Proof.Machine
end

section
/-! PROOFS. The invariant (spec/10_state.md R21 to R32): one lemma for each move that touches a part of it, the turn of
the sequencer from `Control`, `SerialEffect` and `StepFrame`, and the step. -/

namespace Sys2Proof.Machine

variable {s t : State}

/-! ### The enables -/

theorem rcsr_disjoint {c : Cfg} (h : c.layout.wf = true) : c.layout.rcsrRIE.disjoint c.layout.rcsrDONE = true := by
  have := fieldsOk_disjoint (Layout.wf_rcsr h)
  rw [Field.disjoint_comm]
  simpa using this

/-- The device's `DONE` leaves `RIE` (R43). -/
theorem rie_setDone {c : Cfg} (h : c.layout.wf = true) (v : BitVec 1) (w : Word) :
    flagField c.layout.rcsrRIE (setField c.layout.rcsrDONE v w) = flagField c.layout.rcsrRIE w :=
  flagField_setField_other _ _ _ _ (rcsr_disjoint h)

/-- The device's `READY` leaves `TIE` (R45). -/
theorem tie_setReady {c : Cfg} (h : c.layout.wf = true) (v : BitVec 1) (w : Word) :
    flagField c.layout.xcsrTIE (setField c.layout.xcsrREADY v w) = flagField c.layout.xcsrTIE w :=
  flagField_setField_other _ _ _ _ (xcsr_disjoint h)

/-- The host's write sets `RIE` as asked, where the layout lets it (R43, R214). -/
theorem rie_writeRcsr (on : Bool) (h : s.cfg.layout.wf = true) (ha : s.cfg.layout.rcsrRIE.access = .rw) :
    rie (writeRcsr on s) = on := by
  have hx := Layout.fits_rcsrRIE h
  have written := getField_write_set (r := .rcsr) (f := s.cfg.layout.rcsrRIE) (n := 1) h (by simp [regFields]) (by simp [ha])
    s.rcsr (rieWord s.cfg on)
  calc rie (writeRcsr on s) = flagField s.cfg.layout.rcsrRIE (rieWord s.cfg on) := congrArg (· == 1#1) written
    _ = on := flagField_putField_same _ _ hx.1 hx.2

/-! ### The moves of the devices and of the host

A move that writes nothing the invariant reads keeps it field by field: `{ inv with cfg := inv.cfg }`. -/

theorem Inv.layout (inv : Inv s) : s.cfg.layout.wf = true := Cfg.wf_layout inv.cfg

theorem inv_openTurn (inv : Inv s) : Inv (openTurn s) := { inv with cfg := inv.cfg }

theorem inv_receiveAtDevice (w : Word) (inv : Inv s) : Inv (receiveAtDevice w s) := by
  have hrie : rie (receiveAtDevice w s) = rie s := rie_setDone inv.layout _ _
  exact { inv with init := by rw [hrie]; exact inv.init, rxEnable := by rw [hrie]; exact inv.rxEnable }

theorem inv_sentAtDevice (inv : Inv s) : Inv (sentAtDevice s) := by
  have htie : tie (sentAtDevice s) = tie s := tie_setReady inv.layout _ _
  exact { inv with init := by rw [htie]; exact inv.init, tie := by rw [htie]; exact inv.tie }

theorem inv_presentCs (v : Word) (inv : Inv s) : Inv (presentCs v s) := { inv with cfg := inv.cfg }

theorem inv_dmaByte (k : Nat) (b : Byte) (inv : Inv s) : Inv (dmaByte k b s) := by
  unfold dmaByte
  split
  · exact inv
  · split
    · exact { inv with mem := Memory.wf_write _ _ _ inv.mem }
    · exact inv

/-- The host that has seen `TIE = 0` had disabled the receive interrupt before (R214). -/
theorem inv_hostReadXcsr (inv : Inv s) : Inv (hostReadXcsr s) :=
  { inv with
    rxEnable := fun ha hb => inv.rxEnable ha fun he => hb (by simp [hostReadXcsr, he]) }

/-- The host writes RCSR only in its turn of the boot order, which is not during `SRT_INIT` (R214). -/
theorem inv_writeRcsr {on : Bool} (hduty : rcsrBreaksDuty on s = false) (inv : Inv s) : Inv (writeRcsr on s) := by
  obtain ⟨hidle, -⟩ := Bool.or_eq_false_iff.mp hduty
  exact { inv with
    init := fun h => absurd (hidle.symm.trans h) (by simp)
    rxEnable := fun ha hb => by
      rw [rie_writeRcsr on inv.layout ha]
      cases on
      · rfl
      · exact absurd rfl hb }

/-! ### RESET -/

theorem inv_resetTurn (serial : Option SerialDraw) (storage : Option StorageDraw) (inv : Inv s) :
    Inv (resetTurn serial storage s) := by
  have ranges := Cfg.wf_ranges inv.cfg
  have hseq : (resetTurn serial storage s).seq = .idle := by simp [resetTurn, resetBlock]
  have hds : (resetTurn serial storage s).ds = DeviceStatus.reset s.cfg := by simp [resetTurn, resetBlock]
  have htx : (resetTurn serial storage s).tx = s.tx.clear := by simp [resetTurn, resetBlock]
  have labelled := labelled_reset s.cfg
  exact {
    cfg := by simpa using inv.cfg
    rx := by simpa [resetTurn, resetBlock] using Ring.ok_clear (by omega) inv.rx
    tx := by simpa [htx] using Ring.ok_clear (by omega) inv.tx
    ovf := by simp [resetTurn, resetBlock]
    seq := by rw [hseq]; rfl
    room := fun _ _ _ h => by rw [hseq] at h; cases h
    byte := fun _ _ h => by rw [hseq] at h; cases h
    init := fun h => by simp [srtInitRuns, hseq] at h
    tie := fun _ h => by rw [htx, Ring.isEmpty_clear] at h; cases h
    sel := fun _ f hf => by rw [hseq] at hf; cases hf
    rxEnable := by
      cases serial with
      | some w => 
        intro _ _
        simp [rie, resetTurn, resetSerialIf, resetSerial, flagField, getField]
      | none => 
        intro ha hb
        have := inv.rxEnable (by simpa using ha) (by intro he; simp [resetTurn, bootAfterReset, he] at hb)
        simpa [rie, resetTurn, resetSerialIf, resetBlock] using this
    label := by rw [hds]; simpa using labelled.1
    type := by rw [hds]; simpa using labelled.2
    mem := by simpa using inv.mem }

/-! ### The services -/

theorem inv_afterRead_rbuf (inv : Inv s) : Inv (afterRead .rbuf s) := by
  have hrie : rie (afterRead .rbuf s) = rie s := rie_setDone inv.layout _ _
  exact { inv with init := by rw [hrie]; exact inv.init, rxEnable := by rw [hrie]; exact inv.rxEnable }

/-- A received byte goes to a free slot, or to the one that the oldest byte leaves, so that the ring holds it (R121). -/
theorem inv_receiveByte (b : Byte) (inv : Inv s) : Inv (receiveByte b s) := by
  obtain ⟨hcap, -⟩ := Cfg.wf_ranges inv.cfg
  cases hf : s.rx.isFull s.cfg.rxCap
  · rw [receiveByte_room b hf]
    exact { inv with rx := Ring.ok_push b inv.rx, byte := fun _ _ _ => hf }
  · rw [receiveByte_full b hf]
    have nonempty : ((s.rx.push s.cfg.rxCap b).drop s.cfg.rxCap).isEmpty = false := by
      rw [Ring.drop_push, Ring.isEmpty_push, Ring.isFull_drop inv.rx]
      exact Ring.isEmpty_of_isFull hcap inv.rx hf
    exact { inv with
      rx := Ring.ok_drop (Ring.ok_push b inv.rx)
      ovf := Nat.mod_lt _ (Nat.two_pow_pos _)
      byte := fun _ _ _ => nonempty }

theorem inv_afterRead_xcsr (inv : Inv s) : Inv (afterRead .xcsr s) := { inv with cfg := inv.cfg }

/-- A sent byte leaves the rest of the ring with `TIE` still set, and makes room (R123, R124). -/
theorem inv_sendByte (inv : Inv s) : Inv (sendByte s) := by
  cases he : s.tx.isEmpty
  case true => rwa [sendByte_empty he]
  cases hr : flagField s.cfg.layout.xcsrREADY (regValue .xcsr s)
  case false =>
    rw [sendByte_notReady he hr]
    exact inv_afterRead_xcsr inv
  case true =>
    rw [sendByte_ready he hr]
    have htie : ∀ u : State, u.cfg = s.cfg → u.xcsr = s.xcsr →
        tie (regWrite .xbuf (xbufWord s.cfg s.tx.front) u) = tie s := fun u hc hx => by
      rw [tie_regWrite_xbuf _ (hc ▸ inv.layout), tie, tie, hc, hx]
    have sent := htie { afterRead .xcsr s with tx := s.tx.drop s.cfg.txCap } rfl rfl
    exact { inv with
      tx := Ring.ok_drop inv.tx
      room := fun _ _ _ _ => by
        show (s.tx.drop s.cfg.txCap).isFull s.cfg.txCap = false
        rw [Ring.isFull_drop inv.tx, he]
      init := by rw [sent]; exact inv.init
      tie := fun ha _ => by rw [sent]; exact inv.tie ha he }

/-- The last write of `SVC_TX` leaves `TIE` at 1 exactly when data remains; it runs with `TIE` at 1, so not during
`SRT_INIT` (R123, R214). -/
theorem inv_updateTie (ht : tie s = true) (inv : Inv s) : Inv (updateTie s) :=
  { inv with
    init := fun h => absurd ((inv.init h).2.symm.trans ht) (by simp)
    tie := fun ha he => by
      have he' : s.tx.isEmpty = false := he
      rw [updateTie, tie_regWrite_tieWord _ inv.layout ha, he']
      rfl }

theorem tie_sendByte (h : s.cfg.layout.wf = true) : tie (sendByte s) = tie s := by
  unfold sendByte
  split
  · rfl
  · split
    · rw [tie_regWrite_xbuf _ (by simpa using h)]
      rfl
    · rfl

/-- A service runs only with its request asserted, so with its enable set (R182, R184). -/
theorem inv_dispatchTurn {v : Service} (h : dispatchTurn v s = .next t) (inv : Inv s) : Inv t := by
  cases v with
  | rx =>
    simp only [dispatchTurn] at h
    split at h <;> cases h
    · exact inv_receiveByte _ (inv_afterRead_rbuf inv)
    · exact inv
  | tx =>
    simp only [dispatchTurn] at h
    split at h
    · next hirq =>
      cases h
      have ht : tie s = true := (Bool.and_eq_true_iff.mp hirq).2
      exact inv_updateTie ((tie_sendByte inv.layout).trans ht) (inv_sendByte inv)
    · cases h; exact inv

/-! ### Requests -/

theorem decodeRequest_isRequest {c : Cfg} {q : ReqWord} {i : Instr} (h : decodeRequest c q = .ok i) :
    i.isRequest = true := by
  have row : ∀ {r : ReqRow} {j : Instr}, j.isRequest = true → underRow r q j = .ok i → i.isRequest = true := by
    intro r j hj h
    unfold underRow at h
    split at h <;> cases h
    exact hj
  unfold decodeRequest at h
  split at h
  case h_8 =>
    unfold decodeCmd at h
    split at h
    · cases h
    · split at h
      · exact row rfl h
      · cases h
  case h_11 =>
    unfold decodeRdblk at h
    split at h
    · cases h
    · exact row rfl h
  case h_14 => cases h
  all_goals exact row rfl h

theorem inv_refuse (inv : Inv s) : Inv (refuse s) := { inv with cfg := inv.cfg }

/-- The host that keeps its duty offers `SRT_INIT` with both enables at 0 (R214). -/
theorem enables_of_duty {i : Instr} (hduty : breaksDuty i s = false) (hi : i = .srtInit) :
    rie s = false ∧ tie s = false := by
  simp only [breaksDuty, hi, decide_true, Bool.true_and, Bool.or_eq_false_iff] at hduty
  exact hduty.1.1

/-- The host that issues `SRT_INIT` in its turn has both enables at 0 (R214). -/
theorem inv_noteRequest {i : Instr} (hduty : breaksDuty i s = false) (inv : Inv s) : Inv (noteRequest i s) :=
  { inv with
    rxEnable := fun ha hb => by
      by_cases hi : i = .srtInit
      · exact (enables_of_duty hduty hi).1
      · exact inv.rxEnable ha (by simpa [noteRequest, hi] using hb) }

/-- An accepted request stands at step 1 of its operation, and `SRT_INIT` is accepted with both enables at 0 (R33, R214). -/
theorem inv_accept {i : Instr} (hi : i.isRequest = true) (enables : i = .srtInit → rie s = false ∧ tie s = false)
    (inv : Inv s) : Inv (accept i s) := by
  unfold accept
  split
  · next hwf =>
    have one : 1 ≤ lastStep (.request i) := by cases i <;> simp_all [lastStep, Instr.isRequest]
    have ok : frameOk (firstFrame (.request i)) = true := frameOk_firstFrame (by simp [opOk, hi, hwf]) one
    have entry : EntryOk s (firstFrame (.request i)) := entryOk_first rfl
    exact { inv with
      seq := Bool.and_eq_true_iff.mpr ⟨ok, rfl⟩
      room := fun b l rest h => by simp [firstFrame] at h
      byte := fun l rest h => by simp [firstFrame] at h
      sel := fun hc f hf => by
        rw [List.mem_singleton.mp hf]
        exact entry.sel hc
      init := fun h => enables (by simpa [srtInitRuns, firstFrame] using h) }
  · exact inv_refuse inv

/-- What an offered request does: it is refused, or accepted in the host's turn (R33, R96, R196). -/
theorem requestTurn_cases {q : ReqWord} (h : requestTurn q s = .next t) :
    t = refuse s ∨ ∃ i, i.isRequest = true ∧ breaksDuty i s = false ∧ t = accept i (noteRequest i s) := by
  unfold requestTurn at h
  split at h
  · cases h; exact .inl rfl
  · next hidle =>
    split at h
    · cases h; exact .inl rfl
    · next i hdec =>
      split at h
      · cases h
      · next hduty =>
        have hi := decodeRequest_isRequest hdec
        rw [exec_request hi, transition_idle (by exact hidle)] at h
        cases h
        exact .inr ⟨i, hi, by simpa using hduty, rfl⟩

theorem inv_requestTurn {q : ReqWord} (h : requestTurn q s = .next t) (inv : Inv s) : Inv t := by
  obtain rfl | ⟨i, hi, hduty, rfl⟩ := requestTurn_cases h
  · exact inv_refuse inv
  · exact inv_accept hi (fun he => enables_of_duty (s := s) hduty he) (inv_noteRequest hduty inv)

/-! ### The sequencer -/

section

variable {op : Op}

/-- The rings stay in range, and the counter in its width (R21, R22, R26). -/
theorem SerialEffect.rings_ok (h : SerialEffect op s t) (inv : Inv s) :
    t.rx.ok s.cfg.rxCap = true ∧ t.tx.ok s.cfg.txCap = true ∧ t.rxOvf < 2 ^ s.cfg.ovfBits := by
  obtain ⟨hrx, htx, -⟩ := Cfg.wf_ranges inv.cfg
  cases h with
  | kept rx ovf tx => rw [rx, ovf, tx]; exact ⟨inv.rx, inv.tx, inv.ovf⟩
  | taken hop rx ovf tx => rw [rx, ovf, tx]; exact ⟨Ring.ok_drop inv.rx, inv.tx, inv.ovf⟩
  | queued b hop rx ovf tx =>
    rw [rx, ovf]
    refine ⟨inv.rx, ?_, inv.ovf⟩
    obtain tx | tx := tx <;> rw [tx]
    · exact inv.tx
    · exact Ring.ok_push b inv.tx
  | cleared hop rx ovf tx =>
    rw [rx, ovf, tx]
    exact ⟨Ring.ok_clear (by omega) inv.rx, Ring.ok_clear (by omega) inv.tx, Nat.two_pow_pos _⟩

/-- A queued byte is never stranded: what `STX_WR` appends it appends with `TIE` (R124, R128). -/
theorem SerialEffect.tie_ok (h : SerialEffect op s t) (hcfg : t.cfg = s.cfg) (inv : Inv s)
    (ha : s.cfg.layout.xcsrTIE.access = .rw) (he : t.tx.isEmpty = false) : tie t = true := by
  have same : t.tx = s.tx → t.xcsr = s.xcsr → tie t = true := fun htx hx => by
    rw [tie, hcfg, hx]
    exact inv.tie ha (htx ▸ he)
  cases h with
  | kept rx ovf tx xcsr => exact same tx xcsr
  | taken hop rx ovf tx xcsr => exact same tx xcsr
  | queued b hop rx ovf tx xcsr =>
    have written := tie_regWrite_tieWord (s := s) true inv.layout ha
    rwa [tie, regWrite_cfg, ← xcsr, ← hcfg] at written
  | cleared hop rx ovf tx => rw [tx, Ring.isEmpty_clear] at he; cases he

/-- `SRT_INIT` leaves XCSR as it is (R124, R130). -/
theorem SerialEffect.xcsr_of_srtInit (h : SerialEffect (.request .srtInit) s t) : t.xcsr = s.xcsr := by
  cases h with
  | kept rx ovf tx xcsr => exact xcsr
  | taken hop => cases hop
  | queued b hop => cases hop
  | cleared hop rx ovf tx xcsr => exact xcsr

end

theorem srtInitRuns_iff : srtInitRuns s = true ↔ ∃ f rest, s.seq = .busy f rest ∧ f.op = .request .srtInit := by
  unfold srtInitRuns
  split <;> simp [*]

/-- A step whose frame selects a drive is that of `C_CMD`, whose drive it is (R227). -/
theorem StepFrame.sel_cases {op : Op} (h : StepFrame op s t) (hc : s.cfg.standard = true) :
    t.sel = s.sel ∨ opDrive op = some t.sel := by
  obtain hsel | ⟨d, fn, rfl, hsel⟩ := h.sel
  · exact .inl hsel
  · rw [hsel, issueCommand_sel hc]
    exact .inr rfl

theorem Inv.stack {f : Frame} {rest : List Frame} (inv : Inv s) (hs : s.seq = .busy f rest) :
    stackOk f rest = true := by
  have ok := inv.seq
  rwa [hs] at ok

/-- A numbered step keeps the invariant. -/
theorem inv_opStep {f : Frame} {rest : List Frame} (hs : s.seq = .busy f rest) (h : opStep f.op f s = .next t)
    (inv : Inv s) : Inv t := by
  have ok := inv.stack hs
  have frame := opStep_frame h
  have serial := opStep_serial h
  have control := opStep_control hs (stackOk_top ok) h
  have hcfg := frame.cfg
  obtain ⟨hrx, htx, hovf⟩ := serial.rings_ok inv
  obtain ⟨hlabel, htype⟩ := frame.labelled ⟨inv.label, inv.type⟩
  have hrie : rie t = rie s := by rw [rie, rie, hcfg, frame.rcsr]
  exact {
    cfg := hcfg ▸ inv.cfg
    rx := by rwa [hcfg]
    tx := by rwa [hcfg]
    ovf := by rwa [hcfg]
    seq := control.seqOk_next ok
    room := fun b l below ht => (control.standsAlone_next ok ht rfl).2.room b rfl rfl
    byte := fun l below ht => (control.standsAlone_next ok ht rfl).2.byte rfl rfl
    init := fun hrun => by
      obtain ⟨f', below, ht, hop⟩ := srtInitRuns_iff.mp hrun
      have hf : f.op = .request .srtInit := (control.standsAlone_next ok ht (by rw [hop]; rfl)).1.symm.trans hop
      rw [hf] at serial
      rw [hrie, tie, hcfg, serial.xcsr_of_srtInit]
      exact inv.init (srtInitRuns_iff.mpr ⟨f, rest, hs, hf⟩)
    tie := fun ha he => serial.tie_ok hcfg inv (hcfg ▸ ha) he
    sel := fun hc =>
      control.selOk_next ok hc (by simpa [hs, Seq.frames] using inv.sel (hcfg ▸ hc)) (frame.sel_cases (hcfg ▸ hc))
    rxEnable := by rw [hcfg, hrie, frame.boot]; exact inv.rxEnable
    label := by rw [hcfg]; exact hlabel
    type := by rw [hcfg]; exact htype
    mem := by rw [frame.mem]; exact inv.mem }

/-- A turn of the sequencer in a good state is nothing while `IDLE` (R212), else a numbered step. -/
theorem sequencerTurn_cases (h : sequencerTurn s = .next t) (inv : Inv s) :
    t = s ∨ ∃ f rest, s.seq = .busy f rest ∧ opStep f.op f s = .next t := by
  unfold sequencerTurn at h
  split at h
  · cases h; exact .inl rfl
  · next f rest hs =>
    have ok := stackOk_top (inv.stack hs)
    rw [runTop_eq_opStep hs (Bool.and_eq_true_iff.mp ok).1] at h
    exact .inr ⟨f, rest, hs, h⟩

theorem inv_sequencerTurn (h : sequencerTurn s = .next t) (inv : Inv s) : Inv t := by
  obtain rfl | ⟨f, rest, hs, h⟩ := sequencerTurn_cases h inv
  · exact inv
  · exact inv_opStep hs h inv

/-! ### The step -/

theorem inv_runMove {m : Move} (h : runMove m s = .next t) (inv : Inv s) : Inv t := by
  cases m with
  | sequencer => exact inv_sequencerTurn h inv
  | dispatch v => exact inv_dispatchTurn h inv
  | request q => exact inv_requestTurn h inv
  | reset serial storage => cases h; exact inv_resetTurn serial storage inv
  | hostRcsr on =>
    simp only [runMove, rcsrTurn] at h
    split at h <;> cases h
    next hduty => exact inv_writeRcsr (by simpa using hduty) inv
  | hostReadXcsr => cases h; exact inv_hostReadXcsr inv
  | serialReceive w => cases h; exact inv_receiveAtDevice w inv
  | serialSent => cases h; exact inv_sentAtDevice inv
  | ctlStatus v => cases h; exact inv_presentCs v inv
  | ctlMp v => cases h; exact { inv with cfg := inv.cfg }
  | driveReady d r => cases h; exact { inv with cfg := inv.cfg }
  | dma k b => cases h; exact inv_dmaByte k b inv

/-- The moves other than a turn of the sequencer and RESET leave the configuration, DeviceStatus and the selected drive as
they are (R8, R31, R227). -/
theorem runMove_keeps {m : Move} (hq : m ≠ .sequencer) (hr : ∀ a b, m ≠ .reset a b) (h : runMove m s = .next t) :
    t.cfg = s.cfg ∧ t.ds = s.ds ∧ t.sel = s.sel := by
  cases m with
  | sequencer => exact absurd rfl hq
  | reset a b => exact absurd rfl (hr a b)
  | dispatch v =>
    cases v <;> simp only [runMove, dispatchTurn] at h <;> split at h <;> cases h
    · simp
    · exact ⟨rfl, rfl, rfl⟩
    · simp
    · exact ⟨rfl, rfl, rfl⟩
  | request q =>
    obtain rfl | ⟨i, -, -, rfl⟩ := requestTurn_cases h
    · exact ⟨rfl, rfl, rfl⟩
    · simp
  | hostRcsr on =>
    simp only [runMove, rcsrTurn] at h
    split at h <;> cases h
    exact ⟨rfl, rfl, rfl⟩
  | dma k b => cases h; simp
  | hostReadXcsr | serialReceive | serialSent | ctlStatus | ctlMp | driveReady => cases h; exact ⟨rfl, rfl, rfl⟩

/-- A step runs the next move after the record of accesses was cleared (R13, R199). -/
theorem runMove_of_step (h : step s = .next t) : runMove (nextMove s).1 (openTurn s) = .next t := by
  unfold step turn at h
  split at h
  · exact h
  · cases h

/-- No step from a good state changes the configuration (R8). -/
theorem runMove_cfg {m : Move} (h : runMove m s = .next t) (inv : Inv s) : t.cfg = s.cfg := by
  cases m with
  | sequencer =>
    obtain rfl | ⟨f, -, -, h⟩ := sequencerTurn_cases h inv
    · rfl
    · exact (opStep_frame h).cfg
  | reset serial storage => cases h; simp
  | _ => exact (runMove_keeps (by simp) (by simp) h).1

/-- Settles O51: the step runs one move (`inv_runMove`); what a turn of the sequencer keeps comes from `inv_opStep`. -/
theorem invariantKeptByStep : Obligations.InvariantKeptByStep := by
  intro s t inv h
  have hmove := runMove_of_step h
  exact ⟨inv_runMove hmove (inv_openTurn inv), (runMove_cfg hmove (inv_openTurn inv)).trans (openTurn_cfg s)⟩

/-- Settles O53: the stack has its shape before the step and, by O51, after it. -/
theorem nestingAtMostSix : Obligations.NestingAtMostSix := by
  intro s t inv h
  exact ⟨depth_le_six inv.seq, depth_le_six (invariantKeptByStep s t inv h).1.seq⟩

end Sys2Proof.Machine
end

section
/-! PROOFS. Who writes what (spec/10_state.md R25, R31, R49; spec/70_reset_and_hazards.md R227): DeviceStatus, the rings
and XCSR, the selected drive; and what CS presents of the selected drive (R38). -/

namespace Sys2Proof.Machine

variable {s t : State}

/-! ### The instructions -/

/-- What a request does to the state is what its numbered step does; acceptance and `REFUSED` write the sequencer and the
response alone (R33, R196). -/
theorem exec_request_effects {i : Instr} (hi : i.isRequest = true) (h : exec i s = .next t) :
    StepFrame (.request i) s t ∧ SerialEffect (.request i) s t := by
  rw [exec_request hi] at h
  obtain ⟨-, rfl⟩ | ⟨f, -, -, -, hstep⟩ | ⟨-, -, -, -, rfl⟩ := transition_cases h
  · exact ⟨by constructor <;> simp, .kept (by simp) (by simp) (by simp) (by simp)⟩
  · exact ⟨opStep_frame (op := .request i) hstep, opStep_serial (op := .request i) hstep⟩
  · exact ⟨by constructor <;> simp, .kept rfl rfl rfl rfl⟩

/-- `SVC_TX` takes the oldest byte or none (R123). -/
theorem sendByte_tx (s : State) : (sendByte s).tx = s.tx ∨ (sendByte s).tx = s.tx.drop s.cfg.txCap := by
  unfold sendByte
  split
  · exact .inl rfl
  · split
    · exact .inr rfl
    · exact .inl rfl

/-- Settles O58: a request writes the rings and XCSR as `SerialEffect` says, a service writes its own ring, and a command
word none. -/
theorem ringAndTieWriters : Obligations.RingAndTieWriters := by
  intro i s t h
  by_cases hi : i.isRequest = true
  · cases (exec_request_effects hi h).2 with
    | kept rx ovf tx xcsr => simp [rx, ovf, tx, xcsr]
    | taken hop rx ovf tx xcsr => cases hop; simp [rx, ovf, tx, xcsr, Ring.drop]
    | queued b hop rx ovf tx xcsr =>
      cases hop
      obtain tx | tx := tx <;> simp [rx, ovf, tx, Ring.push]
    | cleared hop rx ovf tx xcsr => cases hop; simp [rx, ovf, tx, xcsr, Ring.clear]
  · cases i with
    | svcRx => cases h; simp
    | svcTx =>
      cases h
      obtain tx | tx := sendByte_tx s <;> simp [tx, Ring.drop]
    | getStatus | seek | readHeader | readData => cases h; simp
    | _ => exact absurd rfl hi

/-! ### DeviceStatus -/

/-- A service does the same whatever `SEQ` and DeviceStatus hold (R31, R34). -/
theorem receiveByte_other (b : Byte) (q : Seq) (ds : DeviceStatus) (s : State) :
    receiveByte b { s with seq := q, ds := ds } = { receiveByte b s with seq := q, ds := ds } := by
  cases hf : s.rx.isFull s.cfg.rxCap
  · rw [receiveByte_room b hf, receiveByte_room b (by exact hf)]
  · rw [receiveByte_full b hf, receiveByte_full b (by exact hf)]

theorem sendByte_other (q : Seq) (ds : DeviceStatus) (s : State) :
    sendByte { s with seq := q, ds := ds } = { sendByte s with seq := q, ds := ds } := by
  cases he : s.tx.isEmpty
  case true => rw [sendByte_empty he, sendByte_empty (by exact he)]
  cases hr : flagField s.cfg.layout.xcsrREADY (regValue .xcsr s)
  case false => rw [sendByte_notReady he hr, sendByte_notReady (by exact he) (by exact hr)]; rfl
  case true => rw [sendByte_ready he hr, sendByte_ready (by exact he) (by exact hr)]; rfl

/-- Settles O57: the halves of the services commute with a change of `SEQ` and DeviceStatus, and `runMove_keeps` says the
rest. -/
theorem deviceStatusWriters : Obligations.DeviceStatusWriters := by
  refine ⟨?_, fun s t m hm hq hr h => ?_⟩
  · rintro s t i q ds (rfl | rfl) h <;> cases h
    · exact ⟨by simp, by simp, congrArg Host.Outcome.next (receiveByte_other _ q ds (afterRead .rbuf s))⟩
    · exact ⟨by simp, by simp, congrArg (fun u => Host.Outcome.next (updateTie u)) (sendByte_other q ds s)⟩
  · subst hm
    obtain ⟨-, hds, -⟩ := runMove_keeps hq hr (runMove_of_step h)
    exact hds

/-! ### The selected drive -/

/-- `DRDY` of what CS presents is the ready bit of the selected drive (R49 c). -/
theorem csDriveReady_csValue (hc : s.cfg.layout.wf = true) : csDriveReady s.cfg (csValue s) = selectedReady s := by
  have hx := Layout.fits_csDRDY hc
  rw [csDriveReady, flagField_eq _ _ hx.1, csValue,
    ← flagField_eq { s.cfg.layout.csDRDY with width := 1 } _ (Nat.le_refl 1)]
  exact flagField_setField_same _ _ _ (Nat.le_refl 1) (by simp only; omega)

/-- Of the instructions only `C_CMD` and the command words select a drive (R227). -/
theorem exec_sel {i : Instr} (h : exec i s = .next t) (hc : ∀ d fn, i ≠ .cCmd d fn)
    (hw : ∀ d, i ≠ .getStatus d ∧ i ≠ .seek d ∧ i ≠ .readHeader d ∧ i ≠ .readData d) : t.sel = s.sel := by
  by_cases hi : i.isRequest = true
  · obtain hsel | ⟨d, fn, hop, -⟩ := (exec_request_effects hi h).1.sel
    · exact hsel
    · exact absurd (Op.request.inj hop) (hc d fn)
  · cases i with
    | svcRx | svcTx => cases h; simp
    | getStatus d | seek d | readHeader d | readData d => simpa using hw d
    | _ => exact absurd rfl hi

/-- Settles O43: the fields beside `DRDY` are the stored ones; the drive of `C_SEEK` at step 5 is selected by the
invariant. -/
theorem driveReadyOfTheSelectedDrive : Obligations.DriveReadyOfTheSelectedDrive := by
  refine ⟨fun s hwf => ?_, fun i s t h hc hw => exec_sel h hc hw, fun s t m hm hq hr h => ?_, ?_⟩
  · have hc := Cfg.wf_layout hwf
    have apart := (List.pairwise_cons.mp (fieldsOk_disjoint (Layout.wf_cs hc))).1
    have stored : ∀ f ∈ [s.cfg.layout.csF, s.cfg.layout.csBAX, s.cfg.layout.csIE, s.cfg.layout.csCRDY, s.cfg.layout.csDS,
        s.cfg.layout.csE, s.cfg.layout.csDE, s.cfg.layout.csCE], ∀ n, getField f n (csValue s) = getField f n s.cs :=
      fun f hf n => getField_csValue_of_disjoint hc (Field.disjoint_comm _ _ ▸ apart f hf)
    refine ⟨csDriveReady_csValue hc, ?_, ?_, ?_, ?_, ?_, ?_⟩ <;>
      simp [csDrive, csFunction, csReady, csError, csDriveError, csCompositeError, flagField, stored]
  · subst hm
    obtain ⟨-, -, hsel⟩ := runMove_keeps hq hr (runMove_of_step h)
    exact hsel
  · intro s d hd cyl n l k below inv hc hs
    have ok := inv.sel hc ⟨.request (.cSeek d hd cyl), 5, k⟩ (by simp [hs, Seq.frames])
    simpa [selOk] using ok

end Sys2Proof.Machine
end

section
/-! PROOFS. The state at its edges (spec/10_state.md R33, R43 to R51): the reset state, the acceptance of a request, the
moves of the host and of the devices, and the write of a command word. -/

namespace Sys2Proof.Machine

variable {s : State}

/-! ### The reset state -/

/-- Settles O47: every value stands in `State.reset`, and the flags are read through the default layout. -/
theorem resetStateValues : Obligations.ResetStateValues := by
  unfold Obligations.ResetStateValues
  decide

/-- Settles O50: the sequencer is `IDLE`, both rings are empty and both enables 0, so that only the configuration, the
ranges and the labels are to be evaluated. -/
theorem invariantAtReset : Obligations.InvariantAtReset where
  cfg := by decide
  rx := by decide
  tx := by decide
  ovf := by decide
  seq := rfl
  room := by intro b l rest h; cases h
  byte := by intro l rest h; cases h
  init := by intro h; cases h
  tie := fun _ h => absurd h (by decide)
  sel := by intro _ f hf; cases hf
  rxEnable := fun _ _ => by decide
  label := (labelled_reset defaultCfg).1
  type := (labelled_reset defaultCfg).2
  mem := Memory.wf_reset

/-! ### Acceptance -/

/-- Settles O13: while `IDLE` a request's transition is its acceptance. -/
theorem requestAcceptance : Obligations.RequestAcceptance := by
  intro i s hi hs
  rw [exec_request hi, transition_idle hs]
  refine ⟨fun hwf => ?_, fun hwf => ?_⟩
  · rw [accept, if_pos hwf]; rfl
  · rw [accept, hwf]; rfl

/-! ### The moves of the host and of the devices -/

/-- A step takes the first move of the script (R199). -/
theorem step_of_env {m : Move} {rest : List Move} (ha : s.cfg.addr.even = true) (he : s.env = m :: rest) :
    step s = runMove m { s with env := rest, bus := [] } := by
  simp [step, turn, ha, openTurn, nextMove, he]

/-- The host's write of RCSR under the default layout: bit 7 as it was, bit 6 as asked (R43). -/
theorem writeRcsr_default (on : Bool) (w : Word) :
    mergeWrite (regRo defaultCfg .rcsr) w (rieWord defaultCfg on)
      = (w &&& 0x0080#16) ||| (if on then 0x0040#16 else 0x0000#16) := by
  rw [mergeWrite, show regRo defaultCfg .rcsr = 0x0080#16 by decide]
  congr 1
  revert on
  decide

/-- The host's write leaves `DONE` to the device (R43). -/
theorem done_writeRcsr (on : Bool) (h : s.cfg.layout.shaped = true) :
    flagField s.cfg.layout.rcsrDONE (writeRcsr on s).rcsr = flagField s.cfg.layout.rcsrDONE s.rcsr :=
  congrArg (· == 1#1)
    (getField_write_ro (r := .rcsr) (n := 1) (by simp [regFields]) (Layout.shaped_rcsrDONE h).2 s.rcsr (rieWord s.cfg on))

/-- Settles O15: a move's meaning is a record update; what is to be shown are the two bits of RCSR and of XCSR, and that a
read shows the presented word. -/
theorem hostAndDeviceMoves : Obligations.HostAndDeviceMoves := by
  intro s rest hstd
  have layout := Cfg.standard_layout hstd
  have shaped := Cfg.standard_shaped hstd
  have run : ∀ {m}, s.env = m :: rest → step s = runMove m { s with env := rest, bus := [] } :=
    fun he => step_of_env (Cfg.wf_even (Cfg.standard_wf hstd)) he
  refine ⟨?rcsr, ?readXcsr, ?receive, ?sent, ?status, ?mp, ?ready⟩
  case rcsr =>
    intro on he hidle hboot
    have duty : rcsrBreaksDuty on { s with env := rest, bus := [] } = false := by
      have noInit : srtInitRuns { s with env := rest, bus := [] } = false := by
        rw [Bool.eq_false_iff]
        intro hr
        obtain ⟨f, below, hs, hop⟩ := srtInitRuns_iff.mp hr
        exact hidle f below hs hop
      rw [rcsrBreaksDuty, noInit]
      cases on
      · rfl
      · simp [hboot rfl]
    refine ⟨(writeRcsr on s).rcsr, ?_, rie_writeRcsr on layout (Layout.shaped_rcsrRIE shaped).2, done_writeRcsr on shaped,
      fun hc => ?_⟩
    · rw [run he, runMove, rcsrTurn, duty]
      rfl
    · rw [← writeRcsr_default, ← hc]
      rfl
  case readXcsr =>
    intro he
    have closed := openBits_shaped shaped (r := .xcsr) (by simp)
    rw [run he, runMove, hostReadXcsr, drawOpen_closed (by exact closed), regValue_closed (by exact closed)]
    rfl
  case receive =>
    intro v he
    have fits := Layout.fits_rcsrDONE layout
    exact ⟨_, run he, flagField_setField_same _ true _ fits.1 fits.2, rie_setDone layout _ _⟩
  case sent =>
    intro he
    have fits := Layout.fits_xcsrREADY layout
    exact ⟨_, run he, flagField_setField_same _ true _ fits.1 fits.2, tie_setReady layout _ _⟩
  case status =>
    intro v he
    refine ⟨_, run he, ?_, rfl⟩
    rw [regValue_shaped (by exact shaped) (by simp)]
    exact csValue_presentCs v layout
  case mp =>
    intro v he
    exact ⟨_, run he, regValue_shaped (by exact shaped) (by simp), rfl⟩
  case ready =>
    intro d ready he
    exact run he

/-! ### The command words -/

/-- The CS write of a command word starts its command on its drive (R49 a, R108). -/
theorem issueCommand_starts (hc : s.cfg.standard = true) (d : Drive) (fn : Fn) :
    commandStarted d fn s (issueCommand d fn s) := by
  obtain ⟨hds, hf, hcrdy, hbax, hie⟩ := csCmd_fields hc d fn
  obtain ⟨hf', hds', hcrdy', hbax', hie', he, hde, hce⟩ := mergeWrite_cs hc s.cs (csCmd s.cfg d fn)
  have writable : s.cfg.layout.csCRDY.access ≠ .ro := by simp [(Layout.shaped_csCRDY (Cfg.standard_shaped hc)).2]
  refine ⟨mergeWrite (regRo s.cfg .cs) s.cs (csCmd s.cfg d fn), ?_, hf'.trans hf, hds'.trans hds, hcrdy'.trans hcrdy,
    hbax'.trans hbax, hie'.trans hie, he, hde, hce⟩
  simp [issueCommand, regWrite, portWrite, blockWord_csCmd hc, startedBy, hf', hds', hcrdy', hf, hds, hcrdy,
    writable, regAddr]

theorem exec_commandInstr {d : Drive} {fn : Fn} {i : Instr} (h : commandInstr d fn = some i) :
    exec i s = .next (issueCommand d fn s) := by
  cases fn <;> cases h <;> rfl

/-- Settles O32: each command word and step 2 of `C_CMD` make the one write `issueCommand`. -/
theorem commandWordsStartTheirCommand : Obligations.CommandWordsStartTheirCommand := by
  refine ⟨fun s d hc => ⟨⟨_, rfl, issueCommand_starts hc d _⟩, ⟨_, rfl, issueCommand_starts hc d _⟩,
    ⟨_, rfl, issueCommand_starts hc d _⟩, ⟨_, rfl, issueCommand_starts hc d _⟩⟩, fun s d fn i l rest hi hs => ?_⟩
  refine ⟨_, exec_commandInstr hi, ?_⟩
  rw [exec_request rfl, transition_own hs rfl]
  exact congrArg Host.Outcome.next (advance_busy (s := { issueCommand d fn s with ds := { s.ds with drive := d } }) hs)

end Sys2Proof.Machine
end

section
/-! PROOFS. The two memories (spec/20_memory.md): host memory, which the controller's transfer alone writes (R72, R74),
and the address space of the lower port, byte by byte (R70, R73, R76), with MP, the one register that is read at two
steps alone (R78). -/

namespace Sys2Proof.Machine

/-! ### Who writes host memory -/

section

variable {s t : State}

/-- No instruction writes host memory (R72). -/
theorem exec_mem {i : Instr} (h : exec i s = .next t) : t.mem = s.mem := by
  by_cases hi : i.isRequest = true
  · exact (exec_request_effects hi h).1.mem
  · cases i with
    | svcRx | svcTx | getStatus | seek | readHeader | readData => cases h; simp
    | _ => exact absurd rfl hi

/-- Nor does a turn of the sequencer, which runs an instruction or `RDHDR`. -/
theorem sequencerTurn_mem (h : sequencerTurn s = .next t) : t.mem = s.mem := by
  unfold sequencerTurn at h
  split at h
  · cases h; rfl
  · unfold runTop at h
    split at h
    · exact exec_mem h
    · next d _ => exact (opStep_frame (op := .rdhdr d) h).mem

/-- Of the moves only the controller's transfer writes host memory (R72). -/
theorem runMove_mem {m : Move} (hm : ∀ k b, m ≠ .dma k b) (h : runMove m s = .next t) : t.mem = s.mem := by
  cases m with
  | dma k b => exact absurd rfl (hm k b)
  | sequencer => exact sequencerTurn_mem h
  | dispatch v =>
    cases v <;> simp only [runMove, dispatchTurn] at h <;> split at h
    · exact exec_mem h
    · cases h; rfl
    · exact exec_mem h
    · cases h; rfl
  | request q =>
    obtain rfl | ⟨i, -, -, rfl⟩ := requestTurn_cases h <;> simp
  | hostRcsr on =>
    simp only [runMove, rcsrTurn] at h
    split at h <;> cases h
    rfl
  | reset | hostReadXcsr | serialReceive | serialSent | ctlStatus | ctlMp | driveReady => cases h; simp

end

/-! ### The controller's transfer -/

section

variable {s : State} {k : Nat}

/-- The bytes of the block: twice the word count, and 131072 for a count of 0 (R74). -/
theorem lt_dmaLimit_iff :
    k < dmaLimit s ↔
      k < 2 * (wcOfMp s.cfg (mpOfWord s.cfg s.mp)).toNat ∨ (wcOfMp s.cfg (mpOfWord s.cfg s.mp) = 0#16 ∧ k < 131072) := by
  unfold dmaLimit
  split
  · next h => simp [show wcOfMp s.cfg (mpOfWord s.cfg s.mp) = 0#16 from h]
  · next h => simp [show wcOfMp s.cfg (mpOfWord s.cfg s.mp) ≠ 0#16 from h]

/-- Byte `k` of the block of a read-data command goes to `BA + k` (R74). -/
theorem dmaByte_inside {c : Command} (b : Byte) (hc : s.cmd = some c) (hf : c.f = fcode s.cfg .readData)
    (hk : k < dmaLimit s) : dmaByte k b s = { s with mem := s.mem.write (dmaAddress s k) b } := by
  simp [dmaByte, hc, hf, hk]

/-- With no read-data command in flight, or beyond the block, nothing is moved. -/
theorem dmaByte_outside (b : Byte) (h : ∀ c, s.cmd = some c → c.f = fcode s.cfg .readData → ¬ k < dmaLimit s) :
    dmaByte k b s = s := by
  unfold dmaByte
  split
  · rfl
  · next c hc => exact if_neg fun ⟨hf, hk⟩ => h c hc hf hk

end

/-- Settles O48: `exec_mem` and `runMove_mem` are the frame; a transfer move is `dmaByte_inside` or `dmaByte_outside`. -/
theorem hostMemoryChangesOnlyByTransfer : Obligations.HostMemoryChangesOnlyByTransfer := by
  refine ⟨fun i s t h => exec_mem h, fun s t m hm hdma h => ?_, ?inside, ?outside⟩
  · subst hm
    exact (runMove_mem hdma (runMove_of_step h)).trans (openTurn_mem s)
  case inside =>
    rintro s k b more d n heven henv hcmd rfl hk
    have moved := dmaByte_inside (s := { s with env := more, bus := [] }) b hcmd rfl (lt_dmaLimit_iff.mpr hk)
    refine ⟨_, (step_of_env heven henv).trans (congrArg Host.Outcome.next moved), rfl, Memory.read_write_same _ _ b,
      fun a ha => Memory.read_write_other _ _ a b ha⟩
  case outside =>
    rintro s k b more n heven henv rfl hn
    refine (step_of_env heven henv).trans (congrArg Host.Outcome.next (dmaByte_outside b fun c hc hf hk => ?_))
    have hk := lt_dmaLimit_iff.mp hk
    simp only at hc hf hk
    obtain hn | ⟨c', hc', hf'⟩ | ⟨h0, hn⟩ | ⟨h0, hn⟩ := hn
    · rw [hn] at hc; cases hc
    · rw [hc] at hc'; cases hc'; exact hf' hf
    · obtain hk | ⟨h, -⟩ := hk
      · omega
      · exact h0 h
    · rw [h0] at hk
      simp at hk
      omega

/-! ### The registers and their addresses -/

section

variable {c : Cfg} {a : Addr} {r r' : Reg}

/-- The eight registers in the order of R47. -/
def allRegs : List Reg := [.cs, .ba, .da, .mp, .rcsr, .rbuf, .xcsr, .xbuf]

theorem mem_allRegs (r : Reg) : r ∈ allRegs := by cases r <;> decide

/-- The addresses of a configuration are those of its registers. -/
theorem toList_eq_map_regAddr (c : Cfg) : c.addr.toList = allRegs.map (regAddr c) := rfl

/-- No two registers sit at one address (R70). -/
theorem regAddr_inj (hc : c.wf = true) : regAddr c r = regAddr c r' ↔ r = r' := by
  refine ⟨fun h => ?_, fun h => h ▸ rfl⟩
  have nodup : (allRegs.map (regAddr c)).Nodup := toList_eq_map_regAddr c ▸ of_decide_eq_true (Cfg.wf_distinct hc)
  exact List.inj_on_of_nodup_map nodup (mem_allRegs r) (mem_allRegs r') h

/-- A register sits at an even address (R76). -/
theorem regAddr_even (hc : c.wf = true) (r : Reg) : (regAddr c r).getLsbD 0 = false := by
  have even := Cfg.wf_even hc
  rw [RegAddrs.even, toList_eq_map_regAddr, List.all_eq_true] at even
  exact Bool.not_eq_true' _ ▸ even _ (List.mem_map_of_mem (mem_allRegs r))

theorem regAt_eq_none_iff : regAt c a = none ↔ ∀ r, regAddr c r ≠ a := by
  rw [show regAt c a = allRegs.find? (fun r => regAddr c r == a) from rfl, List.find?_eq_none]
  simp [mem_allRegs]

/-- At a register's address sits that register and no other (R70). -/
theorem regAt_regAddr (hc : c.wf = true) (r : Reg) : regAt c (regAddr c r) = some r := by
  cases h : regAt c (regAddr c r) with
  | none => exact absurd rfl (regAt_eq_none_iff.mp h r)
  | some r' =>
    have same : regAddr c r' = regAddr c r := by simpa using List.find?_some h
    rw [(regAddr_inj hc).mp same]

/-! ### Bytes of the address space -/

/-- The address after an even one is odd. -/
theorem getLsbD_zero_add_one (ha : a.getLsbD 0 = false) : (a + 1#16).getLsbD 0 = true := by
  rw [BitVec.getLsbD, Nat.testBit_zero, decide_eq_false_iff_not] at ha
  rw [BitVec.getLsbD, Nat.testBit_zero, decide_eq_true_iff, BitVec.toNat_add, BitVec.toNat_ofNat]
  omega

/-- The low byte of a register is at its address (R73). -/
theorem byteAt_regAddr (hc : c.wf = true) (w : Reg → Word) (r : Reg) :
    byteAt c w (regAddr c r) = some ((w r).extractLsb' 0 8) := by
  rw [byteAt, regAddr_even hc, regAt_regAddr hc]
  rfl

/-- The high byte of a register is at the address after it (R73). -/
theorem byteAt_regAddr_succ (hc : c.wf = true) (w : Reg → Word) (r : Reg) :
    byteAt c w (regAddr c r + 1#16) = some ((w r).extractLsb' 8 8) := by
  have back : regAddr c r + 1#16 - 1 = regAddr c r := BitVec.add_sub_cancel _ _
  rw [byteAt, getLsbD_zero_add_one (regAddr_even hc r), back, regAt_regAddr hc]
  rfl

end

section

variable {s : State} {r : Reg}

/-- `MemRead` at a register's address is what a read of the register returns (R73). -/
theorem memRead_regAddr (hc : s.cfg.wf = true) (r : Reg) : memRead (regAddr s.cfg r) s = some (regValue r s) := by
  have low := byteAt_regAddr hc (fun r => regValue r s) r
  have high := byteAt_regAddr_succ hc (fun r => regValue r s) r
  rw [memRead, regAddr_even hc, low, show (1 : Addr) = 1#16 from rfl, high]
  exact congrArg some (littleEndianWord_bytes (regValue r s))

/-- `MemWrite` at a register's address is the write that reaches it (R73). -/
theorem memWrite_regAddr (hc : s.cfg.wf = true) (r : Reg) (v : Word) :
    memWrite (regAddr s.cfg r) v s = some (portWrite r v s) := memWrite_eq (regAddr_even hc r) (regAt_regAddr hc r)

/-- `MemRead` reaches nothing at an odd address or where no register sits (R70, R76). -/
theorem memRead_none {a : Addr} (h : a.getLsbD 0 = true ∨ regAt s.cfg a = none) : memRead a s = none := by
  cases ha : a.getLsbD 0 with
  | true => rw [memRead, ha]; rfl
  | false =>
    have none_at : regAt s.cfg a = none := h.resolve_left (ha ▸ Bool.false_ne_true)
    rw [memRead, ha, byteAt, ha, none_at]
    rfl

/-! ### Bits of the port after a write -/

/-- Replacing a field leaves the bits outside it. -/
theorem getLsbD_setField_outside (f : Field) {n i : Nat} (v : BitVec n) (w : Word)
    (h : (fieldMask f).getLsbD i = false) : (setField f v w).getLsbD i = w.getLsbD i := by
  have kept : (putField f v).getLsbD i = false := by
    rw [getLsbD_fieldMask] at h
    rw [getLsbD_putField, ← Bool.and_assoc (decide (f.lo ≤ i)), ← Bool.and_assoc, h, Bool.false_and]
  simp only [setField, BitVec.getLsbD_or, BitVec.getLsbD_and, BitVec.getLsbD_not, h, kept]
  by_cases hi : i < 16
  · simp [hi]
  · simp [BitVec.getLsbD_of_ge w i (Nat.le_of_not_lt hi)]

/-- CS presents the stored bit outside `DRDY` (R49 c). -/
theorem getLsbD_csValue (hc : s.cfg.layout.wf = true) {i : Nat}
    (hd : (fieldMask s.cfg.layout.csDRDY).getLsbD i = false) : (csValue s).getLsbD i = s.cs.getLsbD i := by
  have hw := (Layout.fits_csDRDY hc).1
  apply getLsbD_setField_outside
  simp only [getLsbD_fieldMask, Bool.and_eq_false_iff, decide_eq_false_iff_not] at hd ⊢
  omega

/-- Each bit of the port but `DRDY` of CS is the stored one. -/
theorem getLsbD_portWord (hc : s.cfg.layout.wf = true) {i : Nat}
    (hd : r = .cs → (fieldMask s.cfg.layout.csDRDY).getLsbD i = false) :
    (portWord r s).getLsbD i = (storedWord r s).getLsbD i := by
  cases r with
  | cs => exact getLsbD_csValue hc (hd rfl)
  | _ => rfl

/-- A write puts the written bit on the port where the device does not drive it (R37). -/
theorem getLsbD_portWord_portWrite (hc : s.cfg.layout.wf = true) (v : Word) {i : Nat} (hi : i < 16)
    (hd : r = .cs → (fieldMask s.cfg.layout.csDRDY).getLsbD i = false) :
    (portWord r (portWrite r v s)).getLsbD i =
      if (regRo s.cfg r).getLsbD i then (portWord r s).getLsbD i else v.getLsbD i := by
  rw [getLsbD_portWord (by simpa using hc) (by simpa using hd), storedWord_portWrite, getLsbD_mergeWrite,
    getLsbD_portWord hc hd]
  simp [hi]

/-- The low byte of a word is its field of bits 7:0. -/
theorem getField_lowByte (f : Field) (hlo : f.lo = 0) (hw : f.width = 8) (w : Word) :
    getField f 8 w = w.extractLsb' 0 8 := by
  apply BitVec.eq_of_getLsbD_eq
  intro i hi
  rw [getLsbD_getField, BitVec.getLsbD_extractLsb', hlo, hw]
  simp [hi]

end

/-- Settles O49: the two bytes at a register's address are those of its word (`byteAt_regAddr`, `byteAt_regAddr_succ`),
before and after the write, and the bits after it are `getLsbD_portWord_portWrite`. -/
theorem lowerPortByteOrder : Obligations.LowerPortByteOrder := by
  refine ⟨fun s r v hwf => ?register, fun s hwf hlayout => ?data, fun s a v h => ?nothing⟩
  case register =>
    have hc := Cfg.wf_layout hwf
    have after : (portWrite r v s).cfg = s.cfg := portWrite_cfg r v s
    refine ⟨memRead_regAddr hwf r, byteAt_regAddr hwf _ r, byteAt_regAddr_succ hwf _ r, memWrite_regAddr hwf r _,
      portWrite r v s, (portWord r (portWrite r v s)).extractLsb' 0 8, (portWord r (portWrite r v s)).extractLsb' 8 8,
      memWrite_regAddr hwf r v, portWrite_bus r v s, ?_, ?_, fun i hi => ⟨fun hd => ?_, fun hd => ?_⟩⟩
    · rw [portByte, after, byteAt_regAddr hwf]
    · rw [portByte, after, byteAt_regAddr_succ hwf]
    · rw [BitVec.getLsbD_extractLsb', ← getLsbD_portWord_portWrite hc v (by omega) hd]
      simp [hi]
    · rw [BitVec.getLsbD_extractLsb', ← getLsbD_portWord_portWrite hc v (by omega) hd]
      simp [hi]
  case data =>
    rw [hlayout, getField_lowByte _ rfl rfl, getField_lowByte _ rfl rfl]
    exact ⟨byteAt_regAddr hwf _ .rbuf, byteAt_regAddr hwf _ .xbuf⟩
  case nothing =>
    have reached := h.imp_right regAt_eq_none_iff.mpr
    exact ⟨memRead_none reached, memWrite_none reached⟩

/-! ### Reads of MP -/

section

variable {s t : State}

/-- The accesses of the table that read MP: step 3 of `C_STAT` and step 2 of `RDHDR` (R78, R148, R151). -/
theorem portOp_eq_read_mp {op : Op} {n : Nat} {l : Locals} (h : portOp op n l s = some (.read .mp)) :
    (∃ d reset, op = .request (.cStat d reset) ∧ n = 3) ∨ ∃ d, op = .rdhdr d ∧ n = 2 := by
  unfold portOp at h
  split at h
  case h_1 => split at h <;> cases h
  case h_7 d reset => exact .inl ⟨d, reset, rfl, rfl⟩
  case h_12 d => exact .inr ⟨d, rfl, rfl⟩
  all_goals cases h

/-- Where a step's entries hold a read of MP, that read is the one entry, and the table has it. -/
theorem portOp_of_read_mp_mem {op : Op} {n : Nat} {l : Locals} {v : Word} (hc : s.cfg.wf = true)
    (h : Access.read s.cfg.addr.mp v ∈ stepEntries op n l s) :
    portOp op n l s = some (.read .mp) ∧ v = regValue .mp s ∧ stepEntries op n l s = [.read s.cfg.addr.mp v] := by
  unfold stepEntries at h ⊢
  cases hop : portOp op n l s with
  | none => simp [hop] at h
  | some p =>
    cases p with
    | write r w => simp [hop, PortOp.entry] at h
    | read r =>
      simp only [hop, Option.map_some, Option.toList_some, PortOp.entry, List.mem_singleton, Access.read.injEq] at h
      obtain ⟨haddr, rfl⟩ := h
      obtain rfl : Reg.mp = r := (regAddr_inj hc).mp haddr
      exact ⟨rfl, rfl, rfl⟩

/-- The first half of `SVC_TX` reads XCSR alone (R123). -/
theorem sendByte_reads (s : State) :
    ∃ l, (sendByte s).bus = s.bus ++ l ∧ ∀ a v, Access.read a v ∈ l → a = s.cfg.addr.xcsr := by
  have polled : (afterRead .xcsr s).bus = s.bus ++ [.read s.cfg.addr.xcsr (regValue .xcsr s)] := afterRead_bus .xcsr s
  cases he : s.tx.isEmpty
  case true => exact ⟨[], by simp [sendByte_empty he], by simp⟩
  cases hr : flagField s.cfg.layout.xcsrREADY (regValue .xcsr s)
  case false =>
    rw [sendByte_notReady he hr]
    exact ⟨_, polled, by simp⟩
  case true =>
    rw [sendByte_ready he hr, regWrite_bus]
    exact ⟨_, (congrArg (· ++ _) polled).trans (List.append_assoc ..), by simp⟩

/-- The services read RBUF and XCSR alone, and a command word reads nothing (R108, R121, R123). -/
theorem exec_other_reads {i : Instr} (hi : i.isRequest = false) (h : exec i s = .next t) :
    ∃ l, t.bus = s.bus ++ l ∧ ∀ a v, Access.read a v ∈ l → a = s.cfg.addr.rbuf ∨ a = s.cfg.addr.xcsr := by
  cases i with
  | svcRx =>
    cases h
    exact ⟨_, (receiveByte_bus _ _).trans (afterRead_bus .rbuf s), by simp [regAddr]⟩
  | svcTx =>
    cases h
    obtain ⟨l, hbus, reads⟩ := sendByte_reads s
    refine ⟨_, (regWrite_bus .xcsr _ _).trans ((congrArg (· ++ _) hbus).trans (List.append_assoc ..)), fun a v hv => ?_⟩
    exact .inr (reads a v (by simpa using hv))
  | getStatus | seek | readHeader | readData =>
    cases h
    exact ⟨_, issueCommand_bus _ _ s, by simp⟩
  | _ => cases hi

end

/-- Settles O56: a request's accesses are those of the table, where `portOp_eq_read_mp` finds the reads of MP, and the
registers that the services read sit elsewhere. -/
theorem mpReadOnlyByStatusAndHeader : Obligations.MpReadOnlyByStatusAndHeader := by
  refine ⟨fun i s t hwf h => ?_, fun d f s t hwf h => ⟨_, rdhdrStep_bus h, fun v hv => ?_⟩⟩
  · cases hi : i.isRequest
    case false =>
      obtain ⟨l, hbus, reads⟩ := exec_other_reads hi h
      refine ⟨l, hbus, fun v hv => ?_⟩
      obtain heq | heq := reads _ v hv
      · cases (regAddr_inj (r := .mp) (r' := .rbuf) hwf).mp heq
      · cases (regAddr_inj (r := .mp) (r' := .xcsr) hwf).mp heq
    obtain hbus | ⟨f, rest, hs, -, hbus⟩ := exec_request_bus hi h
    · exact ⟨[], by simpa using hbus, by simp⟩
    refine ⟨_, hbus, fun v hv => ?_⟩
    obtain ⟨hop, hv, hone⟩ := portOp_of_read_mp_mem hwf hv
    obtain ⟨d, reset, hi, hstep⟩ | ⟨d, hi, -⟩ := portOp_eq_read_mp hop
    · exact ⟨d, reset, f, rest, Op.request.inj hi, hs, hstep, hv, hone⟩
    · cases hi
  · obtain ⟨hop, hv, hone⟩ := portOp_of_read_mp_mem hwf hv
    obtain ⟨d', reset, hi, -⟩ | ⟨d', -, hstep⟩ := portOp_eq_read_mp hop
    · cases hi
    · exact ⟨hstep, hv, hone⟩

end Sys2Proof.Machine
end

section
/-! PROOFS. The request words (spec/30_encoding.md R90 to R97): the fields of a request word, the word that a row
of the table selects, and the two round trips. -/

namespace Sys2Proof

open Machine Laws

/-! ### The fields of a request word -/

/-- A word is made of its fields (R91). -/
theorem reqWord_fields (q : ReqWord) :
    reqWord (reqOp q) (reqDrv q) (reqR q) (reqS q) (reqImm8 q) (reqSec q) (reqHd q) (reqCyl q) (reqW16 q) (reqBa q) = q := by
  apply BitVec.eq_of_getLsbD_eq
  intro n hn
  rw [getLsbD_reqWord]
  simp only [reqOp, reqDrv, reqR, reqS, reqImm8, reqSec, reqHd, reqCyl, reqW16, reqBa, BitVec.getLsbD_extractLsb']
  interval_cases n <;> simp

section

variable (op : BitVec 4) (drv : Drive) (r s : Bool) (imm8 : Byte) (sec : BitVec 6) (hd : BitVec 1) (cyl : BitVec 9)
  (w16 ba : Word)

/-- Where a field of a request word holds the bits of `v`, it reads `v`. -/
theorem extractLsb'_eq_of_bits {q : ReqWord} {lo n : Nat} {v : BitVec n}
    (h : ∀ i, i < n → q.getLsbD (lo + i) = v.getLsbD i) : q.extractLsb' lo n = v := by
  apply BitVec.eq_of_getLsbD_eq
  intro i hi
  simpa [BitVec.getLsbD_extractLsb', hi] using h i hi

@[simp] theorem reqOp_reqWord : reqOp (reqWord op drv r s imm8 sec hd cyl w16 ba) = op :=
  extractLsb'_eq_of_bits fun i hi => by rw [getLsbD_reqWord]; interval_cases i <;> rfl

@[simp] theorem reqDrv_reqWord : reqDrv (reqWord op drv r s imm8 sec hd cyl w16 ba) = drv :=
  extractLsb'_eq_of_bits fun i hi => by rw [getLsbD_reqWord]; interval_cases i <;> rfl

@[simp] theorem reqR_reqWord : reqR (reqWord op drv r s imm8 sec hd cyl w16 ba) = r := by
  rw [reqR, getLsbD_reqWord]
  simp

@[simp] theorem reqS_reqWord : reqS (reqWord op drv r s imm8 sec hd cyl w16 ba) = s := by
  rw [reqS, getLsbD_reqWord]
  simp

@[simp] theorem reqImm8_reqWord : reqImm8 (reqWord op drv r s imm8 sec hd cyl w16 ba) = imm8 :=
  extractLsb'_eq_of_bits fun i hi => by rw [getLsbD_reqWord]; interval_cases i <;> rfl

@[simp] theorem reqSec_reqWord : reqSec (reqWord op drv r s imm8 sec hd cyl w16 ba) = sec :=
  extractLsb'_eq_of_bits fun i hi => by rw [getLsbD_reqWord]; interval_cases i <;> rfl

@[simp] theorem reqHd_reqWord : reqHd (reqWord op drv r s imm8 sec hd cyl w16 ba) = hd :=
  extractLsb'_eq_of_bits fun i hi => by rw [getLsbD_reqWord]; interval_cases i; rfl

@[simp] theorem reqCyl_reqWord : reqCyl (reqWord op drv r s imm8 sec hd cyl w16 ba) = cyl :=
  extractLsb'_eq_of_bits fun i hi => by rw [getLsbD_reqWord]; interval_cases i <;> rfl

@[simp] theorem reqW16_reqWord : reqW16 (reqWord op drv r s imm8 sec hd cyl w16 ba) = w16 :=
  extractLsb'_eq_of_bits fun i hi => by rw [getLsbD_reqWord]; interval_cases i <;> rfl

@[simp] theorem reqBa_reqWord : reqBa (reqWord op drv r s imm8 sec hd cyl w16 ba) = ba :=
  extractLsb'_eq_of_bits fun i hi => by rw [getLsbD_reqWord]; interval_cases i <;> rfl

end

/-- `FN` is the low end of `IMM8` (R91). -/
theorem reqFn_eq (q : ReqWord) : reqFn q = (reqImm8 q).setWidth 3 := by
  apply BitVec.eq_of_getLsbD_eq
  intro i hi
  simp [reqFn, reqImm8, hi, show i < 8 by omega]

/-! ### What a row fixes -/

section

variable {r : ReqRow} {q : ReqWord}

/-- A field that the row's mask covers has the value of the row's match (R94). -/
theorem extractLsb'_of_selects (h : r.selects q = true) {lo n : Nat}
    (covered : r.mask.extractLsb' lo n = BitVec.allOnes n) : q.extractLsb' lo n = r.code.extractLsb' lo n := by
  rw [← eq_of_beq h, BitVec.extractLsb'_and, covered, BitVec.and_allOnes]

theorem getLsbD_of_selects (h : r.selects q = true) {n : Nat} (covered : r.mask.getLsbD n = true) :
    q.getLsbD n = r.code.getLsbD n := by
  rw [← eq_of_beq h, BitVec.getLsbD_and, covered, Bool.and_true]

/-- The bits of `q` in a field, with the row's match where the row's mask covers the field. -/
def ReqRow.bits (r : ReqRow) (lo n : Nat) (q : ReqWord) : BitVec n :=
  if r.mask.extractLsb' lo n = BitVec.allOnes n then r.code.extractLsb' lo n else q.extractLsb' lo n

/-- Bit `n` of `q`, or the row's match where the row's mask covers it. -/
def ReqRow.bit (r : ReqRow) (n : Nat) (q : ReqWord) : Bool := if r.mask.getLsbD n then r.code.getLsbD n else q.getLsbD n

/-- `q` with the row's match in every field that the row's mask covers. -/
def ReqRow.word (r : ReqRow) (q : ReqWord) : ReqWord :=
  reqWord (r.bits 0 4 q) (r.bits 4 2 q) (r.bit 6 q) (r.bit 7 q) (r.bits 8 8 q) (r.bits 16 6 q) (r.bits 22 1 q)
    (r.bits 23 9 q) (r.bits 32 16 q) (r.bits 48 16 q)

theorem ReqRow.bits_of_selects (h : r.selects q = true) (lo n : Nat) : r.bits lo n q = q.extractLsb' lo n := by
  unfold ReqRow.bits
  split
  · next covered => exact (extractLsb'_of_selects h covered).symm
  · rfl

theorem ReqRow.bit_of_selects (h : r.selects q = true) (n : Nat) : r.bit n q = q.getLsbD n := by
  unfold ReqRow.bit
  split
  · next covered => exact (getLsbD_of_selects h covered).symm
  · rfl

/-- A row that selects a word changes nothing of it. -/
theorem ReqRow.word_of_selects (h : r.selects q = true) : r.word q = q := by
  simp only [ReqRow.word, ReqRow.bits_of_selects h, ReqRow.bit_of_selects h]
  exact reqWord_fields q

/-- The row of `C_CMD` leaves of `IMM8` the field `FN` alone (R91, R94). -/
theorem reqImm8_of_selects_cCmd (h : rowCCmd.selects q = true) : reqImm8 q = (reqFn q).setWidth 8 := by
  have high : q.extractLsb' 11 5 = 0#5 := extractLsb'_of_selects h (by decide)
  apply BitVec.eq_of_getLsbD_eq
  intro i hi
  by_cases h3 : i < 3
  · simp [reqFn, reqImm8, hi, h3]
  · have bit := congrArg (BitVec.getLsbD · (i - 3)) high
    simp only [BitVec.getLsbD_extractLsb', BitVec.getLsbD_zero, show i - 3 < 5 by omega, decide_true, Bool.true_and,
      show 11 + (i - 3) = 8 + i by omega] at bit
    simp [reqFn, reqImm8, hi, h3, bit]

end

/-! ### The function codes -/

section

variable {c : Cfg} {fn : Fn} {code : BitVec 3}

theorem fcode_of_fnOfCode (h : fnOfCode c code = some fn) : fcode c fn = code := by
  simpa using List.find?_some h

/-- The function names in the order of `FCodes.toList` (R106). -/
def fnNames : List Fn :=
  [.nop, .writeCheck, .getStatus, .seek, .readHeader, .writeData, .readData, .readDataNoHeaderCheck]

theorem mem_fnNames (fn : Fn) : fn ∈ fnNames := by cases fn <;> decide

theorem fcode_inj (h : c.fcode.wf = true) {fn' : Fn} (he : fcode c fn = fcode c fn') : fn = fn' :=
  have distinct : (fnNames.map (fcode c)).Nodup := of_decide_eq_true h
  List.inj_on_of_nodup_map distinct (mem_fnNames fn) (mem_fnNames fn') he

/-- Distinct names have distinct codes, so that the code gives the name back (R106). -/
theorem fnOfCode_fcode (h : c.fcode.wf = true) (fn : Fn) : fnOfCode c (fcode c fn) = some fn := by
  cases hfind : fnOfCode c (fcode c fn) with
  | none => simpa using List.find?_eq_none.mp hfind fn (mem_fnNames fn)
  | some fn' => rw [fcode_inj h (fcode_of_fnOfCode hfind)]

end

/-! ### What decodes is its own encoding -/

section

variable {c : Cfg} {q : ReqWord} {i j : Instr} {r : ReqRow}

theorem underRow_eq_ok : underRow r q j = .ok i ↔ r.selects q = true ∧ j = i := by
  unfold underRow
  split <;> simp_all

theorem decodeCmd_eq_ok (h : decodeCmd c q = .ok i) :
    ∃ fn, fcode c fn = reqFn q ∧ fn.admitted = true ∧ rowCCmd.selects q = true ∧ .cCmd (reqDrv q) fn = i := by
  unfold decodeCmd at h
  split at h
  · cases h
  · next fn hfn =>
    split at h
    · next hadm => exact ⟨fn, fcode_of_fnOfCode hfn, hadm, underRow_eq_ok.mp h⟩
    · cases h

theorem decodeRdblk_eq_ok (h : decodeRdblk q = .ok i) :
    (reqBa q).getLsbD 0 = false ∧ rowCRdblk.selects q = true
    ∧ .cRdblk (reqDrv q) (reqSec q) (reqHd q) (reqCyl q) (reqW16 q) (reqBa q) = i := by
  unfold decodeRdblk at h
  split at h
  · cases h
  · next heven => exact ⟨by simpa using heven, underRow_eq_ok.mp h⟩

/-- A word that decodes to an instruction is its encoding, and the instruction passed the request check (R94, R96). -/
theorem encode_of_decodeRequest (h : decodeRequest c q = .ok i) : encode c i = .request q ∧ i.wf = true := by
  have row : ∀ {r : ReqRow} {j : Instr}, encode c j = .request (r.word q) → j.wf = true → underRow r q j = .ok i →
      encode c i = .request q ∧ i.wf = true := by
    intro r j he hwf h
    obtain ⟨hsel, rfl⟩ := underRow_eq_ok.mp h
    exact ⟨by rw [he, ReqRow.word_of_selects hsel], hwf⟩
  unfold decodeRequest at h
  split at h
  case h_8 =>
    obtain ⟨fn, hcode, hadm, hsel, rfl⟩ := decodeCmd_eq_ok h
    have hword : reqWord 0xA#4 (reqDrv q) false false (reqImm8 q) 0 0 0 0 0 = rowCCmd.word q := rfl
    exact ⟨by rw [encode, hcode, ← reqImm8_of_selects_cCmd hsel, hword, ReqRow.word_of_selects hsel], hadm⟩
  case h_11 =>
    obtain ⟨heven, hsel, rfl⟩ := decodeRdblk_eq_ok h
    exact row rfl (by rw [Instr.wf, heven]; rfl) (underRow_eq_ok.mpr ⟨hsel, rfl⟩)
  case h_14 => cases h
  all_goals exact row rfl rfl h

/-- Settles O2: the row that selected the word covers every field that the instruction does not take up. -/
theorem decodedRequestIsItsEncoding : Obligations.DecodedRequestIsItsEncoding := by
  intro c q i _ h
  obtain ⟨he, hwf⟩ := encode_of_decodeRequest h
  exact ⟨he, hwf, decodeRequest_isRequest h⟩

/-! ### The encoding of a request decodes to it -/

theorem rowMatch : ∀ i : Instr, RowMatch.Statement i
  | .srxRd => RowMatch.srxRd
  | .stxWr b => RowMatch.stxWr b
  | .srxAvail => RowMatch.srxAvail
  | .srtInit => RowMatch.srtInit
  | .sceInit => RowMatch.sceInit
  | .cWaitc => RowMatch.cWaitc
  | .cWaitd d refresh reset => RowMatch.cWaitd d refresh reset
  | .cCmd d fn => RowMatch.cCmd d fn
  | .cStat d reset => RowMatch.cStat d reset
  | .cSeek d hd cyl => RowMatch.cSeek d hd cyl
  | .cRdblk d sec hd cyl wc ba => RowMatch.cRdblk d sec hd cyl wc ba
  | .cDecerr w => RowMatch.cDecerr w
  | .cDecst w => RowMatch.cDecst w
  | .svcRx => RowMatch.svcRx
  | .svcTx => RowMatch.svcTx
  | .getStatus d => RowMatch.getStatus d
  | .seek d => RowMatch.seek d
  | .readHeader d => RowMatch.readHeader d
  | .readData d => RowMatch.readData d

theorem selects_of_encode (hr : rowOf i = some r) (hwf : i.wf = true) (he : encode c i = .request q) :
    r.selects q = true := by
  simpa only [he, hr] using rowMatch i c hwf

theorem exists_row_of_isRequest (hi : i.isRequest = true) : ∃ r ∈ reqRows, rowOf i = some r := by
  cases i <;> simp_all [rowOf, reqRows, Instr.isRequest]

/-- `FN` of a `C_CMD` word is the code of its function, which names it (R91, R106). -/
theorem decodeCmd_of_fn (h : c.fcode.wf = true) {fn : Fn} (hadm : fn.admitted = true) (hq : reqFn q = fcode c fn) :
    decodeCmd c q = underRow rowCCmd q (.cCmd (reqDrv q) fn) := by
  simp [decodeCmd, hq, fnOfCode_fcode h, hadm]

theorem decodeRdblk_of_even (h : (reqBa q).getLsbD 0 = false) :
    decodeRdblk q
      = underRow rowCRdblk q (.cRdblk (reqDrv q) (reqSec q) (reqHd q) (reqCyl q) (reqW16 q) (reqBa q)) := by
  rw [decodeRdblk, h]
  rfl

/-- The operation code of an encoding leads to its row, and the fields hold its operands (R91). -/
theorem decodeRequest_encode (hc : c.fcode.wf = true) (hr : rowOf i = some r) (hwf : i.wf = true)
    (he : encode c i = .request q) : decodeRequest c q = underRow r q i := by
  cases i <;> cases hr <;> cases he
  case cCmd.refl.refl d fn =>
    have hfn : reqFn (reqWord 0xA#4 d false false ((fcode c fn).setWidth 8) 0 0 0 0 0) = fcode c fn := by
      rw [reqFn_eq, reqImm8_reqWord, BitVec.setWidth_setWidth_of_le _ (by decide), BitVec.setWidth_eq]
    simpa [decodeRequest] using decodeCmd_of_fn hc hwf hfn
  case cRdblk.refl.refl d sec hd cyl wc ba =>
    have heven : ba.getLsbD 0 = false := Bool.not_eq_true' _ ▸ hwf
    simpa [decodeRequest] using
      decodeRdblk_of_even (q := reqWord 0xD#4 d false false 0 sec hd cyl wc ba) (by rwa [reqBa_reqWord])
  all_goals simp [decodeRequest]

theorem encode_of_isRequest (c : Cfg) (hi : i.isRequest = true) : ∃ q, encode c i = .request q := by
  cases i <;> simp_all [encode, Instr.isRequest]

theorem decode_encode_of_isRequest (hc : c.fcode.wf = true) (hi : i.isRequest = true) (hwf : i.wf = true) :
    decode c (encode c i) = .ok i := by
  obtain ⟨q, he⟩ := encode_of_isRequest c hi
  obtain ⟨r, -, hr⟩ := exists_row_of_isRequest hi
  rw [he, decode, decodeRequest_encode hc hr hwf he]
  exact underRow_eq_ok.mpr ⟨selects_of_encode hr hwf he, rfl⟩

end

end Sys2Proof
end

section
/-! PROOFS. The device words (spec/30_encoding.md R100 to R109): the fields of the command word and of the disk-address
words, the word count, and with the command word the round trip of every instruction. -/

namespace Sys2Proof.Machine

/-! ### Fields of a width of their own -/

/-- A field that is wide enough holds the value that is put there. -/
theorem getField_putField_of_le (f : Field) {n : Nat} (v : BitVec n) (hw : n ≤ f.width) (hf : f.lo + f.width ≤ 16) :
    getField f n (putField f v) = v := by
  apply BitVec.eq_of_getLsbD_eq
  intro i hi
  rw [getLsbD_getField, getLsbD_putField]
  simp [hi, show i < f.width by omega, show f.lo + i < 16 by omega]

/-- A value as wide as its field is put there by a shift. -/
theorem putField_eq_shiftLeft (f : Field) {n : Nat} (v : BitVec n) (hw : f.width = n) :
    putField f v = v.setWidth 16 <<< f.lo := by
  have fits : v.setWidth 16 &&& lowOnes f.width = v.setWidth 16 := by
    apply BitVec.eq_of_getLsbD_eq
    intro i hi
    rw [BitVec.getLsbD_and, getLsbD_lowOnes, BitVec.getLsbD_setWidth]
    by_cases hn : i < n
    · simp [hi, hw, hn]
    · simp [BitVec.getLsbD_of_ge v i (Nat.le_of_not_lt hn)]
  rw [putField, fits]

/-- Bits of a word are a field at their place. -/
theorem extractLsb'_eq_getField (lo n : Nat) (w : Word) : w.extractLsb' lo n = getField ⟨lo, n, .rw⟩ n w := by
  apply BitVec.eq_of_getLsbD_eq
  intro i hi
  rw [getLsbD_getField, BitVec.getLsbD_extractLsb']
  simp [hi]

/-! ### The command word -/

section

variable {c : Cfg} {d : Drive} {fn : Fn}

theorem getField_csCmd_other {f : Field} (n : Nat) (hds : f.disjoint c.layout.csDS = true)
    (hf : f.disjoint c.layout.csF = true) : getField f n (csCmd c d fn) = 0#n := by
  rw [csCmd, getField_or, getField_putField_other _ _ _ _ hds, getField_putField_other _ _ _ _ hf, BitVec.or_zero]

theorem flagField_csCmd_other {f : Field} (hds : f.disjoint c.layout.csDS = true)
    (hf : f.disjoint c.layout.csF = true) : flagField f (csCmd c d fn) = false := by
  rw [flagField, getField_csCmd_other 1 hds hf]
  rfl

theorem csDS_disjoint_csF (h : c.layout.wf = true) : c.layout.csDS.disjoint c.layout.csF = true := by
  have apart := fieldsOk_disjoint (Layout.wf_cs h)
  simp only [List.pairwise_cons, List.mem_cons, List.not_mem_nil, or_false, forall_eq_or_imp, forall_eq] at apart
  obtain ⟨-, ⟨-, -, -, hds, -⟩, -⟩ := apart
  rwa [Field.disjoint_comm] at hds

/-- `DS` of the command word is the drive (R108). -/
theorem csDrive_csCmd (h : c.layout.wf = true) (hw : 2 ≤ c.layout.csDS.width) : csDrive c (csCmd c d fn) = d := by
  rw [csDrive, csCmd, getField_or, getField_putField_of_le _ _ hw (Layout.fits_csDS h).2,
    getField_putField_other _ _ _ _ (csDS_disjoint_csF h), BitVec.or_zero]

/-- `F` of the command word is the function code (R108). -/
theorem csFunction_csCmd (h : c.layout.wf = true) (hw : 3 ≤ c.layout.csF.width) :
    csFunction c (csCmd c d fn) = fcode c fn := by
  rw [csFunction, csCmd, getField_or, getField_putField_of_le _ _ hw (Layout.fits_csF h).2,
    getField_putField_other _ _ _ _ (Field.disjoint_comm _ _ ▸ csDS_disjoint_csF h), BitVec.zero_or]

end

/-- Settles O8: every field of CS but `DS` and `F` shares no bit with these two. -/
theorem commandWordFields : Obligations.CommandWordFields := by
  refine ⟨fun c d fn hc hds hf => ?_, fun d fn => ?_, by decide, by decide⟩
  · have h := Cfg.wf_layout hc
    have apart := fieldsOk_disjoint (Layout.wf_cs h)
    simp only [List.pairwise_cons, List.mem_cons, List.not_mem_nil, or_false, forall_eq_or_imp, forall_eq] at apart
    obtain ⟨⟨drdyF, -, -, -, drdyDs, -⟩, ⟨fBax, fIe, fCrdy, -, fE, fDe, fCe⟩, ⟨-, -, baxDs, -⟩, ⟨-, ieDs, -⟩, ⟨crdyDs, -⟩,
      ⟨dsE, dsDe, dsCe⟩, -⟩ := apart
    rw [Field.disjoint_comm] at fBax fIe fCrdy fE fDe fCe dsE dsDe dsCe
    exact ⟨csDrive_csCmd h hds, csFunction_csCmd h hf, flagField_csCmd_other crdyDs fCrdy,
      getField_csCmd_other 1 ieDs fIe, getField_csCmd_other 2 baxDs fBax, flagField_csCmd_other drdyDs drdyF,
      getField_csCmd_other 4 dsE fE, flagField_csCmd_other dsDe fDe, flagField_csCmd_other dsCe fCe⟩
  · rw [csCmd, putField_eq_shiftLeft _ _ (by rfl), putField_eq_shiftLeft _ _ (by rfl)]
    rfl

/-! ### The disk-address words -/

theorem daRd_default (cyl : BitVec 9) (hd : BitVec 1) (sec : BitVec 6) :
    daRd defaultCfg cyl hd sec = putField ⟨7, 9, .rw⟩ cyl ||| putField ⟨6, 1, .rw⟩ hd ||| putField ⟨0, 6, .rw⟩ sec := rfl

theorem daSeek_default (mag : BitVec 9) (dir hs : BitVec 1) :
    daSeek defaultCfg mag dir hs = putField ⟨7, 9, .rw⟩ mag ||| putField ⟨4, 1, .rw⟩ hs ||| putField ⟨2, 1, .rw⟩ dir
      ||| putField ⟨0, 1, .rw⟩ 1#1 := rfl

/-- Settles O6: each field reads what was put there, and 0 of the fields beside it. -/
theorem diskAddressWords : Obligations.DiskAddressWords := by
  refine ⟨fun cyl hd sec => ⟨?rdFormula, ?rdFields⟩, fun mag dir hs => ⟨?seekFormula, ?seekFields⟩, by decide, by decide⟩
  case rdFormula => simp [daRd_default, putField_eq_shiftLeft]
  case seekFormula => simp [daSeek_default, putField_eq_shiftLeft]
  case rdFields =>
    rw [daRd_default]
    simp (disch := decide) [extractLsb'_eq_getField, getField_or, getField_putField_same, getField_putField_other]
  case seekFields =>
    rw [daSeek_default]
    simp (disch := decide) [extractLsb'_eq_getField, getField_or, getField_putField_same, getField_putField_other]

/-! ### The word count -/

/-- Complement and negation each undo themselves (R104). -/
theorem wcOfMp_mpWc (c : Cfg) (n : Word) : wcOfMp c (mpWc c n) = n := by
  unfold wcOfMp mpWc
  cases c.wcForm <;> simp

/-- Settles O7: the two forms of the word count. -/
theorem wordCountWord : Obligations.WordCountWord := by
  refine ⟨fun c n => ⟨fun h => ?ones, fun h => ?twos, wcOfMp_mpWc c n⟩, rfl, by decide, by decide, by decide⟩
  case ones => rw [mpWc, h]
  case twos => rw [mpWc, h]; exact BitVec.toNat_neg n

/-! ### The worked encodings -/

/-- Settles O4: a finite set of closed words. -/
theorem workedEncodingsDecode : Obligations.WorkedEncodingsDecode := by
  unfold Obligations.WorkedEncodingsDecode
  decide

/-! ### The round trip of every instruction -/

theorem decodeCommand_csCmd {c : Cfg} {d : Drive} {fn : Fn} {i : Instr} (hc : c.wf = true)
    (hds : 2 ≤ c.layout.csDS.width) (hf : 3 ≤ c.layout.csF.width) (hi : commandInstr d fn = some i) :
    decodeCommand c (csCmd c d fn) = .ok i := by
  have h := Cfg.wf_layout hc
  simp [decodeCommand, csDrive_csCmd h hds, csFunction_csCmd h hf, fnOfCode_fcode (Cfg.wf_fcode hc), hi]

/-- Settles O1: a request goes by its row; a command word has its drive and its function code in fields wide enough. -/
theorem decodeEncodeRoundTrip : Obligations.DecodeEncodeRoundTrip := by
  intro c i hc hwf hcase
  obtain hi | rfl | rfl | ⟨hds, hf⟩ := hcase
  · exact decode_encode_of_isRequest (Cfg.wf_fcode hc) hi hwf
  · rfl
  · rfl
  · cases i
    case getStatus | seek | readHeader | readData => exact decodeCommand_csCmd hc hds hf rfl
    case svcRx | svcTx => rfl
    all_goals exact decode_encode_of_isRequest (Cfg.wf_fcode hc) rfl hwf

end Sys2Proof.Machine
end

section
/-! PROOFS. The request check (spec/30_encoding.md R94, R96): one row at most for a word, and no row for a reserved one. -/

namespace Sys2Proof.Machine

section

variable {c : Cfg} {q : ReqWord} {r : ReqRow}

/-- Every row fixes the operation code (R94). -/
theorem reqOp_of_selects (hr : r ∈ reqRows) (h : r.selects q = true) : reqOp q = reqOp r.code := by
  have covered : ∀ r ∈ reqRows, r.mask.extractLsb' 0 4 = BitVec.allOnes 4 := by decide
  exact extractLsb'_of_selects h (covered r hr)

/-- No two rows have one operation code (R94). -/
theorem reqRows_inj {r' : ReqRow} (hr : r ∈ reqRows) (hr' : r' ∈ reqRows) (h : reqOp r.code = reqOp r'.code) : r = r' :=
  have distinct : (reqRows.map fun r => reqOp r.code).Nodup := by decide
  List.inj_on_of_nodup_map distinct hr hr' h

/-- Settles O3: each row fixes the operation code, and no two rows have the same. -/
theorem atMostOneRowSelects : Obligations.AtMostOneRowSelects := fun _ _ _ hr₁ hr₂ h₁ h₂ =>
  reqRows_inj hr₁ hr₂ ((reqOp_of_selects hr₁ h₁).symm.trans (reqOp_of_selects hr₂ h₂))

/-- What decodes is selected by the row of its instruction. -/
theorem exists_selects_of_decodeRequest {i : Instr} (h : decodeRequest c q = .ok i) :
    ∃ r ∈ reqRows, r.selects q = true := by
  obtain ⟨he, hwf⟩ := encode_of_decodeRequest h
  obtain ⟨r, hmem, hr⟩ := exists_row_of_isRequest (decodeRequest_isRequest h)
  exact ⟨r, hmem, selects_of_encode hr hwf he⟩

end

/-- An offered word that does not decode is refused (R96). -/
theorem requestTurn_of_not_decoded {s : State} {q : ReqWord} (hidle : s.seq = .idle)
    (h : ∀ i, decodeRequest s.cfg q ≠ .ok i) : requestTurn q s = .next (refuse s) := by
  unfold requestTurn
  rw [hidle]
  cases hdec : decodeRequest s.cfg q with
  | error _ => rfl
  | ok i => exact absurd hdec (h i)

/-- Settles O5: a word that decodes is selected by a row, has an admitted function and an even bus address. -/
theorem reservedRequestsRefused : Obligations.ReservedRequestsRefused := by
  intro s q rest heven hidle henv hres
  have notDecoded : ∀ i, decodeRequest s.cfg q ≠ .ok i := by
    intro i h
    obtain ⟨r, hr, hsel⟩ := exists_selects_of_decodeRequest h
    have hop := reqOp_of_selects hr hsel
    have noRow : ∀ op, (∀ r ∈ reqRows, reqOp r.code ≠ op) → reqOp q ≠ op := fun op hno hq => hno r hr (hop.symm.trans hq)
    obtain h0 | h5 | h6 | ⟨r', hr', hop', hnot⟩ | ⟨hA, hfn⟩ | ⟨hD, hodd⟩ := hres
    · exact noRow 0x0#4 (by decide) h0
    · exact noRow 0x5#4 (by decide) h5
    · exact noRow 0x6#4 (by decide) h6
    · rw [reqRows_inj hr' hr (hop'.trans hop), hsel] at hnot
      cases hnot
    · obtain ⟨fn, hcode, hadm, -⟩ := decodeCmd_eq_ok (by simpa [decodeRequest, hA] using h)
      exact hfn fn hadm hcode
    · obtain ⟨hba, -⟩ := decodeRdblk_eq_ok (by simpa [decodeRequest, hD] using h)
      exact absurd hba (by simpa [reqBa] using hodd)
  rw [step_of_env heven henv]
  exact requestTurn_of_not_decoded hidle notDecoded

end Sys2Proof.Machine
end

section
/-! PROOFS. The receive overflow law (spec/40_serial_ring.md R121, R122): `Delivered` is what a list of delivered words
leaves of the receive ring and the counter; one delivery is such a step, and two of them in a row are one. -/

namespace Sys2Proof.Machine

/-! ### The count at its ends -/

theorem Ring.count_of_isEmpty (cap : Nat) {q : Ring} (he : q.isEmpty = true) : q.count cap = 0 := by
  rw [Ring.count, (Ring.isEmpty_iff q).mp he]
  simp

theorem Ring.isFull_iff_count {cap : Nat} {q : Ring} (h : q.ok cap = true) :
    q.isFull cap = true ↔ q.count cap = cap - 1 := by
  obtain ⟨-, hi, ho⟩ := (Ring.ok_iff cap q).mp h
  rw [Ring.isFull_iff, nextIdx_eq hi, Ring.count_eq hi ho]
  split <;> split <;> omega

theorem Ring.length_unread (cap : Nat) (q : Ring) : (q.unread cap).length = q.count cap := by simp [Ring.unread]

theorem Ring.unread_of_isEmpty (cap : Nat) {q : Ring} (he : q.isEmpty = true) : q.unread cap = [] := by
  rw [← List.length_eq_zero_iff, Ring.length_unread, Ring.count_of_isEmpty cap he]

/-! ### The last entries of a list -/

theorem rtake_of_length_le {α : Type} {n : Nat} {l : List α} (h : l.length ≤ n) : l.rtake n = l := by
  simp [List.rtake, Nat.sub_eq_zero_of_le h]

theorem length_rtake {α : Type} (n : Nat) (l : List α) : (l.rtake n).length = min l.length n := by
  simp only [List.rtake, List.length_drop]
  omega

/-- What was cut off the front before is not missed after more was appended. -/
theorem rtake_rtake_append {α : Type} (n : Nat) (l m : List α) : (l.rtake n ++ m).rtake n = (l ++ m).rtake n := by
  simp only [List.rtake_eq_reverse_take_reverse, List.reverse_append, List.reverse_reverse, List.take_append,
    List.take_take, List.length_reverse]
  rw [Nat.min_eq_left (Nat.sub_le n m.length)]

/-- A full list that takes one more entry loses its first. -/
theorem rtake_concat_of_length_eq {α : Type} {n : Nat} {l : List α} (b : α) (h : l.length = n) (hn : 1 ≤ n) :
    (l ++ [b]).rtake n = l.tail ++ [b] := by
  rw [List.rtake, List.length_append, h, List.length_singleton, Nat.add_sub_cancel_left, List.drop_append_of_le_length
    (by omega), List.drop_one]

/-! ### One delivery -/

/-- RBUF reads as the byte that the device put there, where its field can be read (R37, R44). -/
theorem rbufByte_regValue {s : State} (ha : s.cfg.layout.rbufDATA.access ≠ .wo) :
    rbufByte s.cfg (regValue .rbuf s) = rbufByte s.cfg s.rbuf :=
  getField_regValue_readable (r := .rbuf) (by simp [regFields]) ha

theorem receiveByte_rxOvf (b : Byte) (s : State) :
    (receiveByte b s).rxOvf = if s.rx.isFull s.cfg.rxCap then (s.rxOvf + 1) % 2 ^ s.cfg.ovfBits else s.rxOvf := by
  cases hf : s.rx.isFull s.cfg.rxCap
  · simp [receiveByte_room b hf]
  · simp [receiveByte_full b hf]

/-- `t` is `s` after the words `ws` were delivered, as far as the receive ring and the counter go: the last
`RX_CAP - 1` of the bytes are unread, and those beyond are counted (R122). -/
structure Delivered (ws : List Word) (s t : State) : Prop where
  cfg : t.cfg = s.cfg
  ok : t.rx.ok s.cfg.rxCap = true
  unread : t.rx.unread s.cfg.rxCap = (s.rx.unread s.cfg.rxCap ++ ws.map (rbufByte s.cfg)).rtake (s.cfg.rxCap - 1)
  ovf : t.rxOvf = (s.rxOvf + (s.rx.count s.cfg.rxCap + ws.length - (s.cfg.rxCap - 1))) % 2 ^ s.cfg.ovfBits

theorem Delivered.count {ws : List Word} {s t : State} (h : Delivered ws s t) :
    t.rx.count s.cfg.rxCap = min (s.rx.count s.cfg.rxCap + ws.length) (s.cfg.rxCap - 1) := by
  rw [← Ring.length_unread, h.unread, length_rtake, List.length_append, List.length_map, Ring.length_unread]

theorem delivered_nil {s : State} (hok : s.rx.ok s.cfg.rxCap = true) (hovf : s.rxOvf < 2 ^ s.cfg.ovfBits) :
    Delivered [] s s := by
  obtain ⟨-, hi, ho⟩ := (Ring.ok_iff _ _).mp hok
  have hlt := Ring.count_lt hi ho
  have room : (s.rx.unread s.cfg.rxCap ++ List.map (rbufByte s.cfg) []).length ≤ s.cfg.rxCap - 1 := by
    simp only [List.map_nil, List.append_nil, Ring.length_unread]
    omega
  refine ⟨rfl, hok, ?_, ?_⟩
  · rw [rtake_of_length_le room]
    exact (List.append_nil _).symm
  · rw [List.length_nil, show s.rx.count s.cfg.rxCap + 0 - (s.cfg.rxCap - 1) = 0 by omega]
    exact (Nat.mod_eq_of_lt hovf).symm

/-- Two deliveries in a row are one: what the first leaves unread is all that the second can still drop. -/
theorem Delivered.append {ws ws' : List Word} {s u t : State} (h : Delivered ws s u) (h' : Delivered ws' u t) :
    Delivered (ws ++ ws') s t := by
  have hcount := h.count
  have unread := h'.unread
  have ovf := h'.ovf
  simp only [h.cfg] at unread ovf
  refine ⟨h'.cfg.trans h.cfg, h.cfg ▸ h'.ok, ?_, ?_⟩
  · rw [unread, h.unread, rtake_rtake_append, List.map_append, List.append_assoc]
  · rw [ovf, h.ovf, hcount, Nat.mod_add_mod, List.length_append]
    congr 1
    omega

/-- A received byte is unread as the last one, and counts where it drops the oldest (R121). -/
theorem delivered_receiveByte {s : State} (w : Word) (hc : s.cfg.wf = true) (hok : s.rx.ok s.cfg.rxCap = true)
    (hovf : s.rxOvf < 2 ^ s.cfg.ovfBits) : Delivered [w] s (receiveByte (rbufByte s.cfg w) s) := by
  obtain ⟨hcap, -⟩ := Cfg.wf_ranges hc
  obtain ⟨-, hi, ho⟩ := (Ring.ok_iff _ _).mp hok
  have hlt := Ring.count_lt hi ho
  have hfull := Ring.isFull_iff_count hok
  have hlen := Ring.length_unread s.cfg.rxCap s.rx
  refine ⟨receiveByte_cfg _ _, ?_, ?_, ?_⟩
  · rw [receiveByte_rx]
    split
    · exact Ring.ok_drop (Ring.ok_push _ hok)
    · exact Ring.ok_push _ hok
  · rw [unread_receiveByte _ hcap hok]
    split
    · next hf => exact (rtake_concat_of_length_eq _ (hlen.trans (hfull.mp hf)) (by omega)).symm
    · next hf =>
      rw [hfull] at hf
      exact (rtake_of_length_le (by simp [hlen]; omega)).symm
  · rw [receiveByte_rxOvf, List.length_singleton]
    split
    · next hf => rw [hfull.mp hf, Nat.add_sub_cancel_left]
    · next hf =>
      rw [hfull] at hf
      rw [show s.rx.count s.cfg.rxCap + 1 - (s.cfg.rxCap - 1) = 0 by omega]
      exact (Nat.mod_eq_of_lt hovf).symm

/-- A run of `SVC_RX` after the device put a word in RBUF delivers that word: the accesses to RBUF and RCSR leave the ring
and the counter alone (R48 c, R121). -/
theorem svcRx_delivers {s : State} (w : Word) (hc : s.cfg.wf = true) (ha : s.cfg.layout.rbufDATA.access ≠ .wo)
    (hok : s.rx.ok s.cfg.rxCap = true) (hovf : s.rxOvf < 2 ^ s.cfg.ovfBits) :
    ∃ t, exec .svcRx (receiveAtDevice w s) = .next t ∧ Delivered [w] s t := by
  have stored := delivered_receiveByte (s := afterRead .rbuf (receiveAtDevice w s)) w hc hok hovf
  refine ⟨_, congrArg (fun b => Host.Outcome.next (receiveByte b (afterRead .rbuf (receiveAtDevice w s))))
    (rbufByte_regValue (s := receiveAtDevice w s) ha), ?_⟩
  exact { cfg := stored.cfg, ok := stored.ok, unread := stored.unread, ovf := stored.ovf }

/-! ### The law -/

theorem Delivered.ovf_lt {ws : List Word} {s t : State} (h : Delivered ws s t) : t.rxOvf < 2 ^ t.cfg.ovfBits := by
  rw [h.ovf, h.cfg]
  exact Nat.mod_lt _ (Nat.two_pow_pos _)

theorem deliverAll_delivers {s : State} (ws : List Word) (hc : s.cfg.wf = true)
    (ha : s.cfg.layout.rbufDATA.access ≠ .wo) (hok : s.rx.ok s.cfg.rxCap = true) (hovf : s.rxOvf < 2 ^ s.cfg.ovfBits) :
    ∃ t, deliverAll ws s = .next t ∧ Delivered ws s t := by
  induction ws generalizing s with
  | nil => exact ⟨s, rfl, delivered_nil hok hovf⟩
  | cons w ws ih =>
    obtain ⟨u, hu, first⟩ := svcRx_delivers w hc ha hok hovf
    have hcfg := first.cfg
    obtain ⟨t, ht, rest⟩ := ih (hcfg ▸ hc) (hcfg ▸ ha) (hcfg ▸ first.ok) first.ovf_lt
    refine ⟨t, ?_, first.append rest⟩
    rw [deliverAll, hu]
    exact ht

/-- Settles O24: from an empty ring, `Delivered` says that the last `RX_CAP - 1` words are unread and the others counted. -/
theorem receiveOverflowLaw : Obligations.ReceiveOverflowLaw := by
  intro s ws hc ha hok hempty hovf
  obtain ⟨hcap, -⟩ := Cfg.wf_ranges hc
  obtain ⟨t, ht, delivered⟩ := deliverAll_delivers ws hc ha hok hovf
  have hzero := Ring.count_of_isEmpty s.cfg.rxCap hempty
  refine ⟨t, ht, ?_, ?_, ?_⟩
  · rw [delivered.count, hzero, Nat.zero_add]
  · rw [delivered.unread, Ring.unread_of_isEmpty _ hempty, List.nil_append, List.rtake, List.length_map]
    congr 1
    omega
  · have excess : max 0 ((ws.length : Int) - s.cfg.rxCap + 1) = ((ws.length - (s.cfg.rxCap - 1) : Nat) : Int) := by omega
    rw [delivered.ovf, hzero, Nat.zero_add, excess]
    push_cast
    rfl

end Sys2Proof.Machine
end

section
/-! PROOFS. The serial operations and services, each as a whole next state (spec/40_serial_ring.md R121, R123, R126 to
R130). -/

namespace Sys2Proof.Machine

variable {s : State} {f : Frame} {rest : List Frame}

/-! ### Answers and the write of `TIE` -/

/-- `respond` from a busy sequencer is the statements' `answered` (R12, R32). -/
theorem respond_eq_answered (v : Response) (hs : s.seq = .busy f rest) : respond v s = answered v rest s := by
  cases rest with
  | nil => exact respond_outermost v hs
  | cons g below => exact respond_inner v hs

/-- The block's write of `TIE` sets it and leaves `READY` to the device (R45, R109). -/
theorem tieWritten_regWrite (on : Bool) (hstd : s.cfg.standard = true) :
    tieWritten on s (regWrite .xcsr (tieWord s.cfg on) s) := by
  have shaped := Cfg.standard_shaped hstd
  have written : tie (regWrite .xcsr (tieWord s.cfg on) s) = on :=
    tie_regWrite_tieWord on (Cfg.standard_layout hstd) (Layout.shaped_xcsrTIE shaped).2
  rw [regWrite_xcsr_eq shaped] at written ⊢
  exact ⟨_, rfl, written, congrArg (· == 1#1) (getField_mergeWrite_kept _ 1 _ _)⟩

/-! ### The requests -/

/-- Settles O17: each clause is the numbered step that the frame stands at. -/
theorem srxRdTransitions : Obligations.SrxRdTransitions := by
  intro s l rest
  have turn : ∀ {n}, s.seq = .busy ⟨.request .srxRd, n, l⟩ rest → exec .srxRd s = srxRdStep ⟨.request .srxRd, n, l⟩ s :=
    fun hs => transition_own hs rfl
  refine ⟨fun hs he => ?empty, fun hs he => ?data, fun hs => ?answer⟩
  case empty =>
    rw [turn hs]
    simp [srxRdStep, Ring.isEmpty, he]
  case data =>
    rw [turn hs]
    simp [srxRdStep, Ring.isEmpty, he, advance_busy hs]
  case answer =>
    rw [turn hs]
    exact congrArg Host.Outcome.next (respond_eq_answered _ (by exact hs))

/-- Settles O18: step 1 branches on the full ring; both writes are the one of `tieWritten_regWrite`. -/
theorem stxWrTransitions : Obligations.StxWrTransitions := by
  intro s b l rest hstd
  have turn : ∀ {n}, s.seq = .busy ⟨.request (.stxWr b), n, l⟩ rest →
      exec (.stxWr b) s = stxWrStep b ⟨.request (.stxWr b), n, l⟩ s := fun hs => transition_own hs rfl
  refine ⟨fun hs hf => ?full, fun hs hf => ?room, fun hs => ?store⟩
  case full =>
    refine ⟨_, ?_, tieWritten_regWrite true hstd⟩
    rw [turn hs]
    simp [stxWrStep, Ring.isFull, nextIdx, hf]
  case room =>
    rw [turn hs]
    simp [stxWrStep, Ring.isFull, nextIdx, hf, advance_busy hs]
  case store =>
    refine ⟨_, ?_, tieWritten_regWrite true (by exact hstd)⟩
    rw [turn hs]
    exact congrArg Host.Outcome.next (respond_eq_answered .ok (by exact hs))

/-- Settles O19: the answer is the count by definition, and its ends are the empty and the full ring. -/
theorem srxAvailAnswersTheCount : Obligations.SrxAvailAnswersTheCount := by
  refine ⟨fun s l rest hs => ?_, fun c q hc hok => ?_, by decide⟩
  · rw [exec_request rfl, transition_own hs rfl]
    exact congrArg Host.Outcome.next (respond_eq_answered _ hs)
  · obtain ⟨-, hi, ho⟩ := (Ring.ok_iff c q).mp hok
    exact ⟨Ring.count_lt hi ho, Ring.count_of_isEmpty c, (Ring.isFull_iff_count hok).mp⟩

/-- Settles O20: the word has operation 4 and no other bit, under every configuration. -/
theorem srtInitClearsTheRings : Obligations.SrtInitClearsTheRings := by
  refine ⟨fun c => rfl, fun s l rest hs => ?_⟩
  rw [exec_request rfl, transition_own hs rfl]
  exact congrArg Host.Outcome.next (respond_eq_answered .ok (by exact hs))

/-! ### The services -/

/-- Settles O22: the read of RBUF clears `DONE` beside `RIE`; the ring then takes the byte, with or without room. -/
theorem svcRxEffect : Obligations.SvcRxEffect := by
  intro s hstd
  have layout := Cfg.standard_layout hstd
  have shaped := Cfg.standard_shaped hstd
  have fits := Layout.fits_rcsrDONE layout
  refine ⟨_, setField s.cfg.layout.rcsrDONE 0#1 s.rcsr, rfl, ?_, flagField_setField_same _ false _ fits.1 fits.2,
    rie_setDone layout _ _⟩
  rw [regValue_shaped shaped (by simp), afterRead_rbuf_eq shaped]
  cases hf : s.rx.isFull s.cfg.rxCap with
  | true =>
    have hidx : (s.rx.inIdx + 1) % s.cfg.rxCap = s.rx.outIdx := (Ring.isFull_iff _ _).mp hf
    rw [receiveByte_full _ (by exact hf), if_pos hidx, if_pos hidx]
    rfl
  | false =>
    have hidx : (s.rx.inIdx + 1) % s.cfg.rxCap ≠ s.rx.outIdx := of_decide_eq_false hf
    rw [receiveByte_room _ (by exact hf), if_neg hidx, if_neg hidx]
    rfl

/-- The first half of `SVC_TX` with a queued byte and a ready device, as one next state (R48 b, R123). -/
theorem sendByte_ready_eq (h : s.cfg.layout.shaped = true) (he : s.tx.isEmpty = false)
    (hr : flagField s.cfg.layout.xcsrREADY s.xcsr = true) :
    sendByte s = { s with
      tx := s.tx.drop s.cfg.txCap
      xbuf := xbufWord s.cfg s.tx.front
      xcsr := setField s.cfg.layout.xcsrREADY 0#1 s.xcsr
      bus := s.bus ++ [.read s.cfg.addr.xcsr s.xcsr, .write s.cfg.addr.xbuf (xbufWord s.cfg s.tx.front)] } := by
  have polled : regValue .xcsr s = s.xcsr := regValue_shaped h (by simp)
  rw [sendByte_ready he (polled.symm ▸ hr), afterRead_xcsr_eq h, regWrite_xbuf_eq (by exact h)]
  simp

/-- The first half of `SVC_TX` with a queued byte and a device that is not ready (R123). -/
theorem sendByte_notReady_eq (h : s.cfg.layout.shaped = true) (he : s.tx.isEmpty = false)
    (hr : flagField s.cfg.layout.xcsrREADY s.xcsr = false) :
    sendByte s = { s with bus := s.bus ++ [.read s.cfg.addr.xcsr s.xcsr] } := by
  have polled : regValue .xcsr s = s.xcsr := regValue_shaped h (by simp)
  rw [sendByte_notReady he (polled.symm ▸ hr), afterRead_xcsr_eq h]

/-- The second half of `SVC_TX` (R123). -/
theorem tieWritten_updateTie (hstd : s.cfg.standard = true) : tieWritten (!s.tx.isEmpty) s (updateTie s) :=
  tieWritten_regWrite _ hstd

/-- Settles O23: the first half of the service by whether the ring holds a byte and the device is ready, and the write of
`TIE` after it. -/
theorem svcTxEffect : Obligations.SvcTxEffect := by
  intro s hstd
  have layout := Cfg.standard_layout hstd
  have shaped := Cfg.standard_shaped hstd
  have fits := Layout.fits_xcsrREADY layout
  have second : tieWritten (!(sendByte s).tx.isEmpty) (sendByte s) (updateTie (sendByte s)) :=
    tieWritten_updateTie (by simpa using hstd)
  refine ⟨fun he => ⟨_, rfl, ?empty⟩, fun he hr => ⟨_, sendByte s, setField s.cfg.layout.xcsrREADY 0#1 s.xcsr,
    xbufWord s.cfg s.tx.front, rfl, ?sent, ?byte, flagField_setField_same _ false _ fits.1 fits.2, ?remains⟩,
    fun he hr => ⟨_, rfl, ?notReady⟩⟩
  case empty =>
    have hempty := (Ring.isEmpty_iff s.tx).mpr he
    rw [sendByte_empty hempty] at second ⊢
    simpa [hempty] using second
  case sent => exact sendByte_ready_eq shaped (decide_eq_false he) hr
  case byte => exact getField_putField_same _ _ (Layout.shaped_xbufDATA shaped).1 (Layout.fits_xbufDATA layout).2
  case remains =>
    have remaining : (!(sendByte s).tx.isEmpty) = decide (s.tx.inIdx ≠ (s.tx.outIdx + 1) % s.cfg.txCap) := by
      rw [sendByte_ready_eq shaped (decide_eq_false he) hr]
      exact decide_not.symm
    rwa [remaining] at second
  case notReady =>
    have hdata : s.tx.isEmpty = false := decide_eq_false he
    rw [sendByte_notReady_eq shaped hdata hr] at second ⊢
    simpa [hdata] using second

end Sys2Proof.Machine
end

section
/-! PROOFS. The borders of the serial sub-block: neither sub-block writes the other's state (spec/40_serial_ring.md R120,
spec/41_storage_engine.md R140), and how a blocked write and a blocked read end (R126, R129). -/

namespace Sys2Proof.Machine

variable {s t : State}

/-! ### What the serial sub-block leaves alone -/

/-- The state of the storage sub-block is the same: DeviceStatus, the storage registers and the controller (R120). -/
structure StorageKept (s t : State) : Prop where
  ds : t.ds = s.ds
  cs : t.cs = s.cs
  ba : t.ba = s.ba
  da : t.da = s.da
  mp : t.mp = s.mp
  cmd : t.cmd = s.cmd
  drives : t.drives = s.drives
  sel : t.sel = s.sel

theorem StorageKept.trans {u : State} (h : StorageKept s t) (h' : StorageKept t u) : StorageKept s u where
  ds := h'.ds.trans h.ds
  cs := h'.cs.trans h.cs
  ba := h'.ba.trans h.ba
  da := h'.da.trans h.da
  mp := h'.mp.trans h.mp
  cmd := h'.cmd.trans h.cmd
  drives := h'.drives.trans h.drives
  sel := h'.sel.trans h.sel

theorem storageKept_respond (v : Response) (s : State) : StorageKept s (respond v s) := by constructor <;> simp

theorem storageKept_regWrite_xcsr (v : Word) (s : State) : StorageKept s (regWrite .xcsr v s) := by constructor <;> rfl

theorem storageKept_afterRead_rbuf (s : State) : StorageKept s (afterRead .rbuf s) := by constructor <;> rfl

theorem storageKept_receiveByte (b : Byte) (s : State) : StorageKept s (receiveByte b s) := by constructor <;> simp

/-- A numbered step of a serial operation writes the rings, XCSR and the sequencer (R126 to R130). -/
theorem serialStep_storageKept {i : Instr} {f : Frame} (hi : i = .srxRd ∨ (∃ b, i = .stxWr b) ∨ i = .srxAvail ∨ i = .srtInit)
    (h : requestStep i f s = .next t) : StorageKept s t := by
  obtain rfl | ⟨b, rfl⟩ | rfl | rfl := hi
  · simp only [requestStep, srxRdStep] at h
    split at h <;> cases h
    · split <;> constructor <;> simp
    · constructor <;> simp
  · simp only [requestStep, stxWrStep] at h
    split at h <;> cases h
    · split
      · exact storageKept_regWrite_xcsr _ s
      · constructor <;> simp
    · have pushed : StorageKept s { s with tx := s.tx.push s.cfg.txCap b } := by constructor <;> rfl
      exact (pushed.trans (storageKept_regWrite_xcsr _ _)).trans (storageKept_respond .ok _)
  · simp only [requestStep, srxAvailStep] at h
    split at h <;> cases h
    exact storageKept_respond _ s
  · simp only [requestStep, srtInitStep] at h
    split at h <;> cases h
    constructor <;> simp

theorem exec_serial_storageKept {i : Instr} (h : exec i s = .next t)
    (hi : i = .svcRx ∨ i = .svcTx ∨ i = .srxRd ∨ (∃ b, i = .stxWr b) ∨ i = .srxAvail ∨ i = .srtInit) :
    StorageKept s t := by
  obtain rfl | rfl | hi := hi
  · cases h
    exact (storageKept_afterRead_rbuf s).trans (storageKept_receiveByte _ _)
  · cases h
    have sent : StorageKept s (sendByte s) := by constructor <;> simp
    exact sent.trans (storageKept_regWrite_xcsr _ _)
  · have request : i.isRequest = true := by obtain rfl | ⟨b, rfl⟩ | rfl | rfl := hi <;> rfl
    rw [exec_request request] at h
    obtain ⟨-, rfl⟩ | ⟨f, -, -, -, hstep⟩ | ⟨-, -, -, -, rfl⟩ := transition_cases h
    · constructor <;> simp
    · exact serialStep_storageKept hi hstep
    · constructor <;> simp

/-! ### What the storage sub-block leaves alone -/

@[simp] theorem regWrite_rbuf {r : Reg} (hr : r ≠ .rbuf) (v : Word) (s : State) : (regWrite r v s).rbuf = s.rbuf := by
  cases r with
  | rbuf => exact absurd rfl hr
  | _ => rfl

@[simp] theorem regWrite_xbuf {r : Reg} (hr : r ≠ .xbuf) (v : Word) (s : State) : (regWrite r v s).xbuf = s.xbuf := by
  cases r with
  | xbuf => exact absurd rfl hr
  | _ => rfl

/-- No numbered step of a request writes RBUF or XBUF: the services alone move their bytes (R121, R123). -/
theorem requestStep_buffers {i : Instr} {f : Frame} (h : requestStep i f s = .next t) :
    t.rbuf = s.rbuf ∧ t.xbuf = s.xbuf := by
  cases i with
  | svcRx | svcTx | getStatus | seek | readHeader | readData => cases h
  | cWaitc =>
    simp only [requestStep, cWaitcStep] at h
    split at h
    · split at h <;> cases h <;> simp
    · cases h
  | srxRd | stxWr | srxAvail | srtInit | sceInit | cWaitd | cCmd | cStat | cSeek | cRdblk | cDecerr | cDecst =>
    simp only [requestStep, srxRdStep, stxWrStep, srxAvailStep, srtInitStep, sceInitStep, cWaitdStep, cCmdStep, cStatStep,
      cSeekStep, cRdblkStep, cDecerrStep, cDecstStep] at h
    split at h <;> cases h <;> simp [apply_ite State.rbuf, apply_ite State.xbuf]

theorem exec_request_buffers {i : Instr} (hi : i.isRequest = true) (h : exec i s = .next t) :
    t.rbuf = s.rbuf ∧ t.xbuf = s.xbuf := by
  rw [exec_request hi] at h
  obtain ⟨-, rfl⟩ | ⟨f, -, -, -, hstep⟩ | ⟨-, -, -, -, rfl⟩ := transition_cases h
  · simp
  · exact requestStep_buffers hstep
  · simp

/-- Settles O59: a storage request has none of the serial operations' effects (`SerialEffect`) and keeps the serial
registers; a command word is one write of CS. -/
theorem subBlocksWriteOwnStateOnly : Obligations.SubBlocksWriteOwnStateOnly := by
  intro i s t h
  refine ⟨fun hi => ?serial, fun hi => ?storage⟩
  case serial =>
    obtain ⟨ds, cs, ba, da, mp, cmd, drives, sel⟩ := exec_serial_storageKept h hi
    exact ⟨ds, cs, ba, da, mp, cmd, drives, sel⟩
  case storage =>
    simp only [not_or, not_exists] at hi
    obtain ⟨hsvcRx, hsvcTx, hsrxRd, hstxWr, -, hsrtInit⟩ := hi
    by_cases hreq : i.isRequest = true
    · obtain ⟨frame, serial⟩ := exec_request_effects hreq h
      obtain ⟨rbuf, xbuf⟩ := exec_request_buffers hreq h
      cases serial with
      | kept rx ovf tx xcsr => exact ⟨rx, ovf, tx, frame.rcsr, rbuf, xcsr, xbuf⟩
      | taken hop => exact absurd (Op.request.inj hop) hsrxRd
      | queued b hop => exact absurd (Op.request.inj hop) (hstxWr b)
      | cleared hop => exact absurd (Op.request.inj hop) hsrtInit
    · cases i with
      | svcRx => exact absurd rfl hsvcRx
      | svcTx => exact absurd rfl hsvcTx
      | getStatus | seek | readHeader | readData => cases h; simp
      | _ => exact absurd rfl hreq

/-! ### A blocked write -/

/-- The moves that leave a busy sequencer and the transmit ring as they are: all but a turn of the sequencer, a dispatch
of the transmit service and RESET. -/
theorem runMove_keeps_tx {m : Move} {f : Frame} {rest : List Frame} (hs : s.seq = .busy f rest) (hq : m ≠ .sequencer)
    (hd : m ≠ .dispatch .tx) (hr : ∀ a b, m ≠ .reset a b) (h : runMove m s = .next t) :
    t.seq = s.seq ∧ t.tx = s.tx := by
  cases m with
  | sequencer => exact absurd rfl hq
  | reset a b => exact absurd rfl (hr a b)
  | dispatch v =>
    cases v with
    | tx => exact absurd rfl hd
    | rx =>
      simp only [runMove, dispatchTurn] at h
      split at h <;> cases h
      · simp
      · exact ⟨rfl, rfl⟩
  | request q =>
    simp only [runMove, requestTurn, hs] at h
    cases h
    exact ⟨rfl, rfl⟩
  | hostRcsr on =>
    simp only [runMove, rcsrTurn] at h
    split at h <;> cases h
    exact ⟨rfl, rfl⟩
  | dma k b => cases h; simp
  | hostReadXcsr | serialReceive | serialSent | ctlStatus | ctlMp | driveReady => cases h; exact ⟨rfl, rfl⟩

/-- A turn of the sequencer on a request is the request's transition (R199). -/
theorem sequencerTurn_request {i : Instr} {n : Nat} {l : Locals} {rest : List Frame}
    (hs : s.seq = .busy ⟨.request i, n, l⟩ rest) : sequencerTurn s = exec i s := by
  simp only [sequencerTurn, hs, runTop]

/-- A turn of the sequencer on a blocked write sets `TIE` and waits on (R128, R129). -/
theorem sequencerTurn_blocked {b : Byte} {l : Locals} {rest : List Frame}
    (hs : s.seq = .busy ⟨.request (.stxWr b), 1, l⟩ rest) (hf : s.tx.isFull s.cfg.txCap = true) :
    sequencerTurn s = .next (regWrite .xcsr (tieWord s.cfg true) s) := by
  have body : exec (.stxWr b) s = stxWrStep b ⟨.request (.stxWr b), 1, l⟩ s := transition_own hs rfl
  simp only [sequencerTurn_request hs, body, stxWrStep, hf, if_true]

/-- A run of the transmit service on a ring that holds a byte keeps the ring, or sends the oldest byte with `READY`. -/
theorem updateTie_sendByte_tx (he : s.tx.isEmpty = false) :
    (updateTie (sendByte s)).tx = s.tx
    ∨ (flagField s.cfg.layout.xcsrREADY (regValue .xcsr s) = true
      ∧ (updateTie (sendByte s)).tx = s.tx.drop s.cfg.txCap) := by
  cases hr : flagField s.cfg.layout.xcsrREADY (regValue .xcsr s)
  case false => exact .inl (by rw [updateTie_tx, sendByte_notReady he hr, afterRead_tx])
  case true => exact .inr ⟨rfl, by rw [updateTie_tx, sendByte_ready he hr, regWrite_tx]⟩

/-- Settles O26: a turn of the sequencer finds the ring still full; of the other moves only the transmit service touches
the transmit ring, and it takes the oldest byte or none. -/
theorem backpressureEndsOnlyBySending : Obligations.BackpressureEndsOnlyBySending := by
  intro s t m b l rest inv hs hfull hm hreset h
  have hmove := runMove_of_step h
  obtain ⟨-, hcfg⟩ := invariantKeptByStep s t inv h
  rw [hm] at hmove
  rw [hcfg]
  have hbusy : (openTurn s).seq = .busy ⟨.request (.stxWr b), 1, l⟩ rest := hs
  by_cases hq : m = .sequencer
  · subst hq
    rw [runMove, sequencerTurn_blocked hbusy hfull] at hmove
    cases hmove
    exact ⟨by simp, .inl (by simpa using hfull)⟩
  by_cases hd : m = .dispatch .tx
  · subst hd
    obtain ⟨-, hcap, -⟩ := Cfg.wf_ranges inv.cfg
    have hdata := Ring.isEmpty_of_isFull hcap inv.tx hfull
    simp only [runMove, dispatchTurn] at hmove
    split at hmove <;> cases hmove
    · refine ⟨by simp, ?_⟩
      obtain same | ⟨ready, sent⟩ := updateTie_sendByte_tx (s := openTurn s) hdata
      · exact .inl (by rw [same]; exact hfull)
      · refine .inr ⟨rfl, ready, ?_⟩
        rw [sent, Ring.unread_drop inv.tx hdata]
        rfl
    · exact ⟨rfl, .inl hfull⟩
  · obtain ⟨hseq, htx⟩ := runMove_keeps_tx hbusy hq hd hreset hmove
    exact ⟨hseq, .inl (by rw [htx]; exact hfull)⟩

/-! ### A blocked read -/

/-- A byte that goes into an empty ring is its oldest, and the ring is empty again without it. -/
theorem Ring.front_push_of_isEmpty {cap : Nat} {q : Ring} (b : Byte) (h : q.ok cap = true) (he : q.isEmpty = true) :
    (q.push cap b).front = b ∧ ((q.push cap b).drop cap).isEmpty = true := by
  obtain ⟨hl, hi, -⟩ := (Ring.ok_iff cap q).mp h
  have hidx := (Ring.isEmpty_iff q).mp he
  refine ⟨?_, (Ring.isEmpty_iff _).mpr (congrArg (nextIdx cap) hidx)⟩
  simp [Ring.front, Ring.push, ← hidx, hl, hi]

/-- With at least two slots an empty ring is not full. -/
theorem Ring.isFull_of_isEmpty {cap : Nat} {q : Ring} (hc : 2 ≤ cap) (h : q.ok cap = true) (he : q.isEmpty = true) :
    q.isFull cap = false := by
  rw [Bool.eq_false_iff]
  intro hf
  exact absurd (Ring.isEmpty_of_isFull hc h hf) (by simp [he])

theorem run_succ_of_next {M : Host.Core} {s t : M.State} (k : Nat) (h : M.step s = .next t) :
    M.run (k + 1) s = M.run k t := by simp [Host.Core.run, h]

/-- A received word asserts the receive request where the receive interrupt is enabled (R48 c, R182). -/
theorem irqRx_receiveAtDevice (w : Word) (hc : s.cfg.layout.wf = true) (hrie : rie s = true) :
    irqRx (receiveAtDevice w s) = true := by
  have fits := Layout.fits_rcsrDONE hc
  have done : flagField s.cfg.layout.rcsrDONE (receiveAtDevice w s).rcsr = true :=
    flagField_setField_same _ true _ fits.1 fits.2
  have enabled : flagField s.cfg.layout.rcsrRIE (receiveAtDevice w s).rcsr = true := (rie_setDone hc _ _).trans hrie
  exact Bool.and_eq_true_iff.mpr ⟨done, enabled⟩

section

variable {l : Locals} {more : List Move}

/-- A word that the device delivers to an empty ring is taken up by its service (R121, R184). -/
theorem run_delivery (w : Word) (inv : Inv s) (hstd : s.cfg.standard = true) (hempty : s.rx.isEmpty = true)
    (hrie : rie s = true) (he : s.env = .serialReceive w :: .dispatch .rx :: more) :
    ∃ u : State, (∀ k, Host.Core.run Sys2Proof.core (k + 2) s = Host.Core.run Sys2Proof.core k u)
      ∧ u.cfg = s.cfg ∧ u.seq = s.seq ∧ u.rx = s.rx.push s.cfg.rxCap (rbufByte s.cfg w) ∧ u.rxOvf = s.rxOvf
      ∧ u.env = more := by
  have even := Cfg.wf_even inv.cfg
  have shaped := Cfg.standard_shaped hstd
  obtain ⟨hcap, -⟩ := Cfg.wf_ranges inv.cfg
  have hroom := Ring.isFull_of_isEmpty hcap inv.rx hempty
  have delivery := step_of_env even he
  have asserted := irqRx_receiveAtDevice w inv.layout hrie
  have service := step_of_env (s := receiveAtDevice w { s with env := .dispatch .rx :: more, bus := [] }) even rfl
  rw [runMove, dispatchTurn, if_pos (by exact asserted)] at service
  refine ⟨_, fun k => (run_succ_of_next (M := Sys2Proof.core) (k + 1) delivery).trans
    (run_succ_of_next (M := Sys2Proof.core) k service), ?_⟩
  rw [regValue_shaped (by exact shaped) (by simp), receiveByte_room _ (by exact hroom)]
  exact ⟨rfl, rfl, rfl, rfl, rfl⟩

/-- Two turns of the sequencer bring a read that is no longer blocked to its answer (R126). -/
theorem run_read (heven : s.cfg.addr.even = true) (hs : s.seq = .busy ⟨.request .srxRd, 1, l⟩ [])
    (hdata : s.rx.isEmpty = false) (he : s.env = .sequencer :: .sequencer :: more) :
    ∃ t, Host.Core.run Sys2Proof.core 2 s = .next t ∧ t.seq = .idle ∧ t.resp = some (.byte s.rx.front)
      ∧ t.rx = s.rx.drop s.cfg.rxCap ∧ t.rxOvf = s.rxOvf ∧ t.env = more := by
  have first := step_of_env heven he
  obtain ⟨-, goesOn, -⟩ := srxRdTransitions { s with env := .sequencer :: more, bus := [] } l []
  rw [runMove, sequencerTurn_request (by exact hs), goesOn hs (of_decide_eq_false hdata)] at first
  have second := step_of_env (s := { s with
    env := .sequencer :: more, bus := [], seq := .busy ⟨.request .srxRd, 2, l⟩ [] }) heven rfl
  obtain ⟨-, -, answers⟩ := srxRdTransitions
    { s with env := more, bus := [], seq := .busy ⟨.request .srxRd, 2, l⟩ [] } l []
  rw [runMove, sequencerTurn_request rfl, answers rfl] at second
  exact ⟨_, (run_succ_of_next (M := Sys2Proof.core) 1 first).trans (run_succ_of_next (M := Sys2Proof.core) 0 second),
    rfl, rfl, rfl, rfl, rfl⟩

end

/-- Settles O27: the service leaves the byte as the only one in the ring, and the read then answers it. -/
theorem blockedReadCompletes : Obligations.BlockedReadCompletes := by
  intro s w l more inv hstd hs hempty hrie henv
  obtain ⟨hcap, -⟩ := Cfg.wf_ranges inv.cfg
  obtain ⟨hfront, hemptied⟩ := Ring.front_push_of_isEmpty (rbufByte s.cfg w) inv.rx hempty
  obtain ⟨u, hrun, hcfg, hseq, hrx, hovf, hmore⟩ := run_delivery w inv hstd hempty hrie henv
  have hdata : u.rx.isEmpty = false := by
    rw [hrx, Ring.isEmpty_push, Ring.isFull_of_isEmpty hcap inv.rx hempty]
  obtain ⟨t, ht, idle, resp, rx, ovf, env⟩ := run_read (hcfg ▸ Cfg.wf_even inv.cfg) (hseq.trans hs) hdata hmore
  refine ⟨t, (hrun 2).trans ht, idle, ?_, ?_, ovf.trans hovf, env⟩
  · rw [resp, hrx, hfront]
    rfl
  · rw [rx, hrx, hcfg, hemptied]

end Sys2Proof.Machine
end

section
/-! PROOFS. The storage operations, each numbered step as a whole next state (spec/41_storage_engine.md R141 to R170).
A step answers, calls or goes on (`next_respond`, `next_call`, `advance_busy`); the statements of the standard
configurations take each register access as one lemma. -/

namespace Sys2Proof.Machine

variable {s : State}

/-! ### The next state of a step -/

/-- The instruction of the innermost frame takes the step that its frame stands at (R33). -/
theorem exec_own {i : Instr} {f : Frame} {rest : List Frame} (hi : i.isRequest = true) (hs : s.seq = .busy f rest)
    (hf : f.op = .request i) : exec i s = requestStep i f s := (exec_request hi s).trans (transition_own hs hf)

section

variable {f : Frame} {rest : List Frame}

/-- The next state of a step that answers (R12, R32). -/
theorem next_respond (v : Response) (hs : s.seq = .busy f rest) :
    (.next (respond v s) : Host.Outcome State Fault Refusal) = .next (answered v rest s) :=
  congrArg _ (respond_eq_answered v hs)

/-- An answer leaves nothing of the innermost frame. -/
theorem answered_seq (v : Response) (rest : List Frame) (q : Seq) (s : State) :
    answered v rest { s with seq := q } = answered v rest s := by cases rest <;> rfl

/-- The next state of a step that calls (R12, R33). -/
theorem next_call (op : Op) (hs : s.seq = .busy f rest) :
    (.next (call op s) : Host.Outcome State Fault Refusal)
      = .next { s with seq := .busy ⟨op, 1, ⟨0, 0, 0⟩⟩ (f :: rest) } := congrArg _ (call_busy op hs)

/-- The next state of a step that goes on to the one after it (R33). -/
theorem next_advance (hs : s.seq = .busy f rest) :
    (.next (advance s) : Host.Outcome State Fault Refusal)
      = .next { s with seq := .busy ⟨f.op, f.step + 1, f.locals⟩ rest } := congrArg _ (advance_busy hs)

end

/-! ### The words of the storage registers -/

/-- A read of CS shows what CS presents (R38). -/
theorem regValue_cs_standard (hstd : s.cfg.standard = true) : regValue .cs s = csValue s :=
  regValue_shaped (Cfg.standard_shaped hstd) (by simp)

/-- A read of MP shows the word there (R42). -/
theorem mpOfWord_regValue_mp (hstd : s.cfg.standard = true) : mpOfWord s.cfg (regValue .mp s) = s.mp := by
  obtain ⟨-, -, -, -, hfull⟩ := wordFields_full hstd s.mp
  rw [regValue_shaped (Cfg.standard_shaped hstd) (by simp)]
  exact hfull

/-- The read of MP, whose value after it is open (R78). -/
theorem afterRead_mp_standard (hstd : s.cfg.standard = true) :
    ∃ w k, afterRead .mp s = { s with mp := w, free := k, bus := s.bus ++ [.read s.cfg.addr.mp s.mp] } :=
  ⟨_, _, afterRead_mp_eq (Cfg.standard_shaped hstd)⟩

/-- A disk-address word fills DA (R41). -/
theorem regWrite_daWord (hstd : s.cfg.standard = true) (w : Word) :
    regWrite .da (daWord s.cfg w) s = { s with da := w, bus := s.bus ++ [.write s.cfg.addr.da w] } := by
  obtain ⟨-, -, hfull, -⟩ := wordFields_full hstd w
  rw [hfull, regWrite_da_eq (Cfg.standard_shaped hstd)]

/-- A bus address fills BA (R40). -/
theorem regWrite_baWord (hstd : s.cfg.standard = true) (w : Word) :
    regWrite .ba (baWord s.cfg w) s = { s with ba := w, bus := s.bus ++ [.write s.cfg.addr.ba w] } := by
  obtain ⟨hfull, -⟩ := wordFields_full hstd w
  rw [hfull, regWrite_ba_eq (Cfg.standard_shaped hstd)]

/-- A word count fills MP (R42). -/
theorem regWrite_mpWord (hstd : s.cfg.standard = true) (w : Word) :
    regWrite .mp (mpWord s.cfg w) s = { s with mp := w, bus := s.bus ++ [.write s.cfg.addr.mp w] } := by
  obtain ⟨-, -, -, hfull, -⟩ := wordFields_full hstd w
  rw [hfull, regWrite_mp_eq (Cfg.standard_shaped hstd)]

/-- The default error field is bits 13:10 (R38). -/
theorem csE_default (w : Word) : getField defaultCfg.layout.csE 4 w = w.extractLsb' 10 4 :=
  (extractLsb'_eq_getField 10 4 w).symm

/-- The default state field is bits 2:0 (R103). -/
theorem stSTATE_default (w : Word) : getField defaultCfg.layout.stSTATE 3 w = w.extractLsb' 0 3 :=
  (extractLsb'_eq_getField 0 3 w).symm

/-- A request word with an operation code and `W16` alone (R91). -/
theorem reqWord_w16 (op : BitVec 4) (w : Word) :
    reqWord op 0 false false 0 0 0 0 w 0 = op.setWidth 64 ||| w.setWidth 64 <<< 32 := by simp [reqWord]

/-! ### Decoding and initialisation -/

/-- Settles O9: both maps are finite tables. -/
theorem defaultLabelMaps : Obligations.DefaultLabelMaps := by
  unfold Obligations.DefaultLabelMaps
  decide

/-- Settles O28: step 1 of `SCE_INIT` is its only one. -/
theorem sceInitResetsDeviceStatus : Obligations.SceInitResetsDeviceStatus := by
  refine ⟨fun c => rfl, fun s l rest hs => ?_⟩
  rw [exec_own rfl hs rfl]
  exact next_respond .ok (by exact hs)

/-- `C_DECERR w` answers the label of the error field (R165). -/
theorem exec_cDecerr {w : Word} {l : Locals} {rest : List Frame} (hs : s.seq = .busy ⟨.request (.cDecerr w), 1, l⟩ rest) :
    exec (.cDecerr w) s = .next (answered (.errLabel (errLabel s.cfg (csError s.cfg w))) rest s) := by
  rw [exec_own rfl hs rfl]
  exact next_respond _ hs

/-- `C_DECST w` answers the label of the state field (R167). -/
theorem exec_cDecst {w : Word} {l : Locals} {rest : List Frame} (hs : s.seq = .busy ⟨.request (.cDecst w), 1, l⟩ rest) :
    exec (.cDecst w) s = .next (answered (.stateLabel (stateLabel s.cfg (mpState s.cfg w))) rest s) := by
  rw [exec_own rfl hs rfl]
  exact next_respond _ hs

/-- Settles O38: the encoding of `C_DECERR` reaches its row under every configuration. -/
theorem cDecerrAnswersTheLabel : Obligations.CDecerrAnswersTheLabel := by
  refine ⟨fun s w l rest hs => exec_cDecerr hs, csE_default, by decide, fun c w => ?_⟩
  have selected : rowCDecerr.selects (reqWord 0xE#4 0 false false 0 0 0 0 w 0) = true :=
    selects_of_encode (c := c) (i := .cDecerr w) rfl rfl rfl
  rw [show (0x000000000000000E#64 : ReqWord) = (0xE#4).setWidth 64 from rfl, ← reqWord_w16]
  simpa [decodeRequest, underRow_eq_ok] using selected

/-- Settles O39: the encoding of `C_DECST` reaches its row under every configuration. -/
theorem cDecstAnswersTheLabel : Obligations.CDecstAnswersTheLabel := by
  refine ⟨fun s w l rest hs => exec_cDecst hs, stSTATE_default, by decide, fun c w => ?_⟩
  have selected : rowCDecst.selects (reqWord 0xF#4 0 false false 0 0 0 0 w 0) = true :=
    selects_of_encode (c := c) (i := .cDecst w) rfl rfl rfl
  rw [show (0x000000000000000F#64 : ReqWord) = (0xF#4).setWidth 64 from rfl, ← reqWord_w16]
  simpa [decodeRequest, underRow_eq_ok] using selected

/-! ### Readiness polling and commands -/

/-- Settles O29: the read of CS shows what CS presents, and the poll branches on its `CRDY`. -/
theorem cWaitcPoll : Obligations.CWaitcPoll := by
  intro s l rest hstd hs
  have shaped := Cfg.standard_shaped hstd
  have shown := regValue_cs_standard hstd
  rw [exec_own rfl hs rfl]
  refine ⟨fun hr => ?ready, fun hr => ?waiting⟩
  case ready =>
    simp only [requestStep, cWaitcStep, shown, hr, if_true, afterRead_cs_eq shaped]
    exact next_respond _ (by exact hs)
  case waiting => simp [requestStep, cWaitcStep, shown, hr, afterRead_cs_eq shaped]

/-- Settles O30: steps 1 to 3 branch, each on its own test. -/
theorem cWaitdTransitions : Obligations.CWaitdTransitions := by
  intro s d refresh reset l rest n hstd hs
  have shaped := Cfg.standard_shaped hstd
  have shown := regValue_cs_standard hstd
  rw [exec_own rfl hs rfl]
  refine ⟨?refresh, ?poll, ?errors, ?again⟩
  case refresh =>
    rintro rfl
    cases refresh
    · exact next_advance hs
    · exact next_call _ hs
  case poll =>
    rintro rfl
    simp only [requestStep, cWaitdStep, shown, afterRead_cs_eq shaped]
    rw [onTop_busy _ (by exact hs)]
    split
    · exact (next_respond _ rfl).trans (congrArg _ (answered_seq ..))
    · rw [advance_busy rfl]
  case errors =>
    rintro rfl
    simp only [requestStep, cWaitdStep]
    split
    · exact next_call _ hs
    · exact next_advance hs
  case again =>
    rintro rfl
    exact congrArg _ (jump_busy 2 hs)

/-- Settles O31: step 2 is the write of the command word, which starts the command. -/
theorem cCmdTransitions : Obligations.CCmdTransitions := by
  intro s d fn l rest n hstd hs
  rw [exec_own rfl hs rfl]
  refine ⟨?wait, ?command, ?record⟩
  case wait => rintro (rfl | rfl) <;> exact next_call _ hs
  case command =>
    rintro rfl
    refine ⟨_, issueCommand_starts hstd d fn, ?_⟩
    simp only [requestStep, cCmdStep]
    rw [advance_busy (by exact hs)]
  case record =>
    rintro rfl
    exact ⟨_, rfl, next_respond _ (by exact hs)⟩

/-- Settles O33: the get-status word fills DA, and the read of MP shows the word there. -/
theorem cStatTransitions : Obligations.CStatTransitions := by
  intro s d reset l rest n hstd hs
  rw [exec_own rfl hs rfl]
  refine ⟨?write, ?command, ?record⟩
  case write =>
    rintro rfl
    simp only [requestStep, cStatStep, regWrite_daWord hstd]
    rw [advance_busy (by exact hs)]
  case command =>
    rintro rfl
    exact next_call _ hs
  case record =>
    rintro rfl
    obtain ⟨w, k, hread⟩ := afterRead_mp_standard hstd
    refine ⟨_, w, k, rfl, ?_⟩
    simp only [requestStep, cStatStep, mpOfWord_regValue_mp hstd, hread]
    exact next_respond _ (by exact hs)

/-! ### Read header, seek and read block -/

/-- Settles O34: the header that step 2 reads is both recorded and returned. -/
theorem readHeaderTransitions : Obligations.ReadHeaderTransitions := by
  intro s d l rest n hstd hs
  refine ⟨?command, ?record⟩
  case command =>
    rintro rfl
    exact next_call _ hs
  case record =>
    rintro rfl
    obtain ⟨w, k, hread⟩ := afterRead_mp_standard hstd
    refine ⟨w, k, ?_⟩
    simp only [rdhdrStep, mpOfWord_regValue_mp hstd, hread]
    exact next_respond _ (by exact hs)

/-- Settles O35: step 2 alone branches, on the cylinder of the header. -/
theorem cSeekTransitions : Obligations.CSeekTransitions := by
  intro s d hd cyl l rest n hstd hs
  rw [exec_own rfl hs rfl]
  refine ⟨?header, ?compare, ?write, ?seek, ?arrive, ?answer⟩
  case header => rintro (rfl | rfl) <;> exact next_call _ hs
  case compare =>
    rintro rfl
    simp only [requestStep, cSeekStep]
    rw [onTop_busy _ hs]
    by_cases he : headerCyl s.cfg l.h = cyl
    · rw [if_pos he, if_pos (by exact he)]
      exact (next_respond _ rfl).trans (congrArg _ (answered_seq ..))
    · rw [if_neg he, if_neg (by exact he), advance_busy rfl]
      rfl
  case write =>
    rintro rfl
    refine ⟨_, rfl, ?_⟩
    simp only [requestStep, cSeekStep, regWrite_daWord hstd]
    rw [advance_busy (by exact hs)]
  case seek | arrive =>
    rintro rfl
    exact next_call _ hs
  case answer =>
    rintro rfl
    exact next_respond _ hs

/-- Settles O36: the bound is tested before anything else, and the count 0 is below it. -/
theorem cRdblkBoundsCheck : Obligations.CRdblkBoundsCheck := by
  intro s d sec hd cyl wc ba l rest hs
  have passes : wc.toNat ≤ s.cfg.blockSize / 2 → exec (.cRdblk d sec hd cyl wc ba) s =
      .next { s with seq := .busy ⟨.request (.cRdblk d sec hd cyl wc ba), 2, l⟩ rest } := by
    intro hle
    rw [exec_own rfl hs rfl]
    simp only [requestStep, cRdblkStep, if_neg (Nat.not_lt.mpr (show wc.toNat ≤ blockWords s.cfg from hle))]
    exact next_advance hs
  refine ⟨fun hlt => ?_, passes, fun h0 => passes (by simp [h0])⟩
  rw [exec_own rfl hs rfl]
  simp only [requestStep, cRdblkStep, if_pos (show blockWords s.cfg < wc.toNat from hlt)]
  exact next_respond _ hs

/-- Settles O37: the words that steps 3 to 5 write fill their registers. -/
theorem cRdblkTransitions : Obligations.CRdblkTransitions := by
  intro s d sec hd cyl wc ba l rest n hstd hs
  rw [exec_own rfl hs rfl]
  refine ⟨?seek, ?count, ?address, ?position, ?command, ?record⟩
  case seek | command =>
    rintro rfl
    exact next_call _ hs
  case count =>
    rintro rfl
    simp only [requestStep, cRdblkStep, regWrite_mpWord hstd]
    rw [advance_busy (by exact hs)]
  case address =>
    rintro rfl
    simp only [requestStep, cRdblkStep, regWrite_baWord hstd]
    rw [advance_busy (by exact hs)]
  case position =>
    rintro rfl
    simp only [requestStep, cRdblkStep, regWrite_daWord hstd]
    rw [advance_busy (by exact hs)]
  case record =>
    rintro rfl
    exact next_respond _ (by exact hs)

/-! ### The labels that the operations record -/

/-- Settles O42: the last steps record each value with its label. -/
theorem decodeMapsTotalAndRecorded : Obligations.DecodeMapsTotalAndRecorded := by
  refine ⟨fun s w l rest => ⟨fun hs => ⟨_, exec_cDecerr hs⟩, fun hs => ⟨_, exec_cDecst hs⟩⟩, ?command, ?status⟩
  case command =>
    intro s t d fn l rest hs h
    rw [exec_own rfl hs rfl] at h
    cases h
    simp [recordError]
  case status =>
    intro s t d reset l rest hs h
    rw [exec_own rfl hs rfl] at h
    cases h
    simp [recordStatus, mpState]

end Sys2Proof.Machine
end

section
/-! PROOFS. The storage engine as a whole: the seek offset (spec/41_storage_engine.md R153), the one step that writes CS
(R146), the answers of `C_RDBLK` (R155, R159, R161) and the run of `C_CMD` from request to answer (R145). -/

namespace Sys2Proof.Machine

variable {s t : State}

/-! ### The seek offset -/

theorem seekDiff_range (cyl cur : BitVec 9) : -511 ≤ seekDiff cyl cur ∧ seekDiff cyl cur ≤ 511 := by
  have := cyl.isLt
  have := cur.isLt
  unfold seekDiff
  omega

theorem seekDiff_eq_zero_iff (cyl cur : BitVec 9) : seekDiff cyl cur = 0 ↔ cyl = cur := by
  rw [seekDiff, ← BitVec.toNat_inj]
  omega

/-- The magnitude fits its nine bits (R153). -/
theorem toNat_seekMag (cyl cur : BitVec 9) : (seekMag cyl cur).toNat = (seekDiff cyl cur).natAbs := by
  have range := seekDiff_range cyl cur
  rw [seekMag, BitVec.toNat_ofNat]
  exact Nat.mod_eq_of_lt (by omega)

/-- In a good state `C_SEEK` stands at step 3 only off its target cylinder (R152). -/
theorem cur_ne_of_seek_step3 {d : Drive} {hd : BitVec 1} {cyl : BitVec 9} {l : Locals} {rest : List Frame} (inv : Inv s)
    (hs : s.seq = .busy ⟨.request (.cSeek d hd cyl), 3, l⟩ rest) : l.cur ≠ cyl := by
  have ok := stackOk_top (inv.stack hs)
  simp only [frameOk, Bool.and_eq_true] at ok
  obtain ⟨-, -, -, hlocals⟩ := ok
  exact of_decide_eq_true hlocals rfl

/-- Settles O10: the offset is in range, and 0 on the target cylinder alone. -/
theorem seekArithmetic : Obligations.SeekArithmetic := by
  refine ⟨fun cyl cur => ?_, fun s d hd cyl l rest inv hs h0 => ?_⟩
  · obtain ⟨hlow, hhigh⟩ := seekDiff_range cyl cur
    refine ⟨rfl, hlow, hhigh, toNat_seekMag cyl cur, fun hne => ?_, fun hpos => ?_, fun hneg => ?_⟩
    · have offset := (seekDiff_eq_zero_iff cyl cur).not.mpr hne
      rw [toNat_seekMag]
      omega
    · rw [seekDir, decide_eq_true hpos]
      rfl
    · rw [seekDir, decide_eq_false (by omega)]
      rfl
  · exact cur_ne_of_seek_step3 inv hs ((seekDiff_eq_zero_iff cyl l.cur).mp h0).symm

/-! ### The one write of CS -/

/-- The access of the table that writes CS: step 2 of `C_CMD` (R146). -/
theorem portOp_eq_write_cs {op : Op} {n : Nat} {l : Locals} {w : Word} (h : portOp op n l s = some (.write .cs w)) :
    ∃ d fn, op = .request (.cCmd d fn) ∧ n = 2 ∧ w = csCmd s.cfg d fn := by
  unfold portOp at h
  split at h
  case h_1 => split at h <;> cases h
  case h_5 d fn => cases h; exact ⟨d, fn, rfl, rfl, rfl⟩
  all_goals cases h

/-- Where a step's entries hold a write of CS, the table has it. -/
theorem portOp_of_write_cs_mem {op : Op} {n : Nat} {l : Locals} {v : Word} (hc : s.cfg.wf = true)
    (h : Access.write s.cfg.addr.cs v ∈ stepEntries op n l s) :
    ∃ w, portOp op n l s = some (.write .cs w) ∧ v = blockWord s.cfg .cs w := by
  unfold stepEntries at h
  cases hop : portOp op n l s with
  | none => simp [hop] at h
  | some p =>
    cases p with
    | read r => simp [hop, PortOp.entry] at h
    | write r w =>
      simp only [hop, Option.map_some, Option.toList_some, PortOp.entry, List.mem_singleton, Access.write.injEq] at h
      obtain ⟨haddr, rfl⟩ := h
      obtain rfl : Reg.cs = r := (regAddr_inj hc).mp haddr
      exact ⟨w, rfl, rfl⟩

/-- The first half of `SVC_TX` writes XBUF alone (R123). -/
theorem sendByte_writes (s : State) :
    ∃ l, (sendByte s).bus = s.bus ++ l ∧ ∀ a v, Access.write a v ∈ l → a = s.cfg.addr.xbuf := by
  have polled : (afterRead .xcsr s).bus = s.bus ++ [.read s.cfg.addr.xcsr (regValue .xcsr s)] := afterRead_bus .xcsr s
  unfold sendByte
  split
  · exact ⟨[], by simp, by simp⟩
  · split
    · rw [regWrite_bus]
      exact ⟨_, (congrArg (· ++ _) polled).trans (List.append_assoc ..), by simp [regAddr]⟩
    · exact ⟨_, polled, by simp⟩

/-- The services write XBUF and XCSR alone (R121, R123). -/
theorem exec_service_writes {i : Instr} (hi : i = .svcRx ∨ i = .svcTx) (h : exec i s = .next t) :
    ∃ l, t.bus = s.bus ++ l ∧ ∀ a v, Access.write a v ∈ l → a = s.cfg.addr.xbuf ∨ a = s.cfg.addr.xcsr := by
  obtain rfl | rfl := hi <;> cases h
  · exact ⟨_, (receiveByte_bus _ _).trans (afterRead_bus .rbuf s), by simp⟩
  · obtain ⟨l, hbus, writes⟩ := sendByte_writes s
    refine ⟨_, (regWrite_bus .xcsr _ _).trans ((congrArg (· ++ _) hbus).trans (List.append_assoc ..)), fun a v hv => ?_⟩
    rcases List.mem_append.mp hv with hv | hv
    · exact .inl (writes a v hv)
    · obtain ⟨rfl, -⟩ := Access.write.inj (List.mem_singleton.mp hv)
      exact .inr (by simp [regAddr])

/-- Whatever the layout gives `IE` as access right, the command word goes out with `IE = 0` (R108, R146). -/
theorem csIE_blockWord_csCmd {c : Cfg} (hc : c.layout.wf = true) (d : Drive) (fn : Fn) :
    getField c.layout.csIE 1 (blockWord c .cs (csCmd c d fn)) = 0#1 := by
  have hmem : c.layout.csIE ∈ regFields c .cs := by simp [regFields]
  by_cases ha : c.layout.csIE.access = .w0
  · exact getField_blockWord_w0 hmem ha _
  · have apart := fieldsOk_disjoint (Layout.wf_cs hc)
    simp only [List.pairwise_cons, List.mem_cons, List.not_mem_nil, or_false, forall_eq_or_imp, forall_eq] at apart
    obtain ⟨-, ⟨-, fIe, -⟩, -, ⟨-, ieDs, -⟩, -⟩ := apart
    rw [getField_blockWord_other hc hmem ha]
    exact getField_csCmd_other 1 ieDs (Field.disjoint_comm _ _ ▸ fIe)

/-- Settles O55: the table of accesses has one write of CS; the services write other registers, and `RDHDR` none. -/
theorem onlyCCmdWritesCs : Obligations.OnlyCCmdWritesCs := by
  refine ⟨fun i s t hwf hi h => ?_, fun d f s t h => ⟨_, rdhdrStep_bus h, fun v hv => ?_⟩⟩
  · obtain hreq | hsvc := hi
    case inr =>
      obtain ⟨l, hbus, writes⟩ := exec_service_writes hsvc h
      refine ⟨l, hbus, fun v hv => ?_⟩
      obtain heq | heq := writes _ v hv
      · cases (regAddr_inj (r := .cs) (r' := .xbuf) hwf).mp heq
      · cases (regAddr_inj (r := .cs) (r' := .xcsr) hwf).mp heq
    obtain hbus | ⟨f, rest, hs, -, hbus⟩ := exec_request_bus hreq h
    · exact ⟨[], by simpa using hbus, by simp⟩
    refine ⟨_, hbus, fun v hv => ?_⟩
    obtain ⟨w, hop, rfl⟩ := portOp_of_write_cs_mem hwf hv
    obtain ⟨d, fn, hi, hstep, rfl⟩ := portOp_eq_write_cs hop
    exact ⟨d, fn, f, rest, Op.request.inj hi, hs, hstep, rfl, fun hstd => blockWord_csCmd hstd d fn,
      csIE_blockWord_csCmd (Cfg.wf_layout hwf) d fn⟩
  · rw [stepEntries_rdhdr] at hv
    split at hv <;> simp at hv

/-! ### The answers of `C_RDBLK` -/

/-- Settles O40: of the seven steps only the first, on `BOUNDS`, and the last leave the outermost frame. -/
theorem cRdblkRecordsTheRequestedPosition : Obligations.CRdblkRecordsTheRequestedPosition := by
  intro s t d sec hd cyl wc ba f hs hf h hidle
  have goesOn : ∀ {u : State} {g : Frame} {below : List Frame}, u.seq = .busy g below → u.seq ≠ .idle :=
    fun hu => by simp [hu]
  rw [exec_own rfl hs hf] at h
  simp only [requestStep, cRdblkStep] at h
  split at h <;> cases h
  case h_1 hstep =>
    split at hidle
    · next hlt =>
      rw [if_pos hlt, respond_outermost _ hs]
      exact .inl ⟨hstep, hlt, rfl, rfl⟩
    · exact absurd hidle (goesOn (seq_advance hs))
  case h_2 | h_6 => exact absurd hidle (goesOn (seq_call _ hs))
  case h_3 | h_4 | h_5 => exact absurd hidle (goesOn (seq_advance (by simpa using hs)))
  case h_7 hstep =>
    rw [respond_outermost _ (by exact hs)]
    exact .inr ⟨hstep, rfl, rfl, rfl, rfl, rfl, rfl⟩

/-! ### The run of `C_CMD` -/

section

variable {d : Drive} {fn : Fn} {l : Locals} {more : List Move}

/-- A turn of the sequencer, as a step of the machine, is the innermost frame's instruction (R199). -/
theorem step_sequencer {i : Instr} {n : Nat} {rest : List Frame} (ha : s.cfg.addr.even = true)
    (hs : s.seq = .busy ⟨.request i, n, l⟩ rest) (he : s.env = .sequencer :: more) :
    step s = exec i { s with env := more, bus := [] } :=
  (step_of_env ha he).trans (sequencerTurn_request (by exact hs))

/-- The host's offer to an idle block of a request other than `SRT_INIT` is accepted (R33). -/
theorem requestTurn_accepts {q : ReqWord} {i : Instr} (hidle : s.seq = .idle) (hq : decodeRequest s.cfg q = .ok i)
    (hi : i ≠ .srtInit) :
    requestTurn q s = .next { s with seq := .busy ⟨.request i, 1, ⟨0, 0, 0⟩⟩ [], resp := none } := by
  obtain ⟨-, hwf⟩ := encode_of_decodeRequest hq
  obtain ⟨accepted, -⟩ := requestAcceptance i s (decodeRequest_isRequest hq) hidle
  have duty : breaksDuty i s = false := by simp [breaksDuty, hi]
  have noted : noteRequest i s = s := by simp [noteRequest, hi]
  unfold requestTurn
  rw [hidle]
  simp only [hq, duty, noted]
  exact accepted hwf

/-- A wait of `C_CMD`, at step 1 or 3, with the controller ready: the call and one pass of the poll (R141, R145). -/
theorem run_wait {n : Nat} (hstd : s.cfg.standard = true) (hn : n = 1 ∨ n = 3)
    (hs : s.seq = .busy ⟨.request (.cCmd d fn), n, l⟩ []) (hready : csReady s.cfg (csValue s) = true)
    (he : s.env = .sequencer :: .sequencer :: more) (k : Nat) :
    Host.Core.run Sys2Proof.core (k + 2) s = Host.Core.run Sys2Proof.core k { s with
      env := more
      bus := [.read s.cfg.addr.cs (csValue s)]
      ds := { s.ds with csImage := csValue s }
      seq := .busy ⟨.request (.cCmd d fn), n + 1, l⟩ [] } := by
  have even := Cfg.wf_even (Cfg.standard_wf hstd)
  obtain ⟨calls, -⟩ := cCmdTransitions { s with env := .sequencer :: more, bus := [] } d fn l [] n hstd hs
  have first := (step_sequencer even hs he).trans (calls hn)
  obtain ⟨polls, -⟩ := cWaitcPoll { s with
    env := more, bus := [], seq := .busy ⟨.request .cWaitc, 1, ⟨0, 0, 0⟩⟩ [⟨.request (.cCmd d fn), n, l⟩] }
    _ _ hstd rfl
  exact (run_succ_of_next (M := Sys2Proof.core) (k + 1) first).trans
    (run_succ_of_next (M := Sys2Proof.core) k (Eq.trans (step_sequencer even rfl rfl) (polls hready)))

/-- `t` is how `C_CMD d` ends from `s` with the CS value `v` of the controller (R145): recorded, answered, the drive
selected, no command in flight, and what the command does not concern as it was. -/
structure CommandEnded (d : Drive) (v : Word) (more : List Move) (s t : State) : Prop where
  idle : t.seq = .idle
  env : t.env = more
  ds : t.ds = { s.ds with
    drive := d
    csImage := v
    lastError := getField s.cfg.layout.csE 4 v
    errorLabel := errLabel s.cfg (getField s.cfg.layout.csE 4 v) }
  resp : t.resp = some (.status t.ds)
  cmd : t.cmd = none
  sel : t.sel = d
  rx : t.rx = s.rx
  tx : t.tx = s.tx
  da : t.da = s.da
  ba : t.ba = s.ba
  mp : t.mp = s.mp

/-- Step 4 of `C_CMD` as the last step of the operation (R145). -/
theorem step_record (hstd : s.cfg.standard = true) (hs : s.seq = .busy ⟨.request (.cCmd d fn), 4, l⟩ [])
    (he : s.env = .sequencer :: more) :
    step s = .next { s with
      env := more
      bus := []
      ds := recordError s.cfg s.ds
      seq := .idle
      resp := some (.status (recordError s.cfg s.ds)) } := by
  obtain ⟨-, -, records⟩ := cCmdTransitions { s with env := more, bus := [] } d fn l [] 4 hstd hs
  obtain ⟨ds, rfl, answers⟩ := records rfl
  exact (step_sequencer (Cfg.wf_even (Cfg.standard_wf hstd)) hs he).trans answers

/-- The second half of `C_CMD`: the controller presents `v` with `CRDY`, the wait of step 3 sees it, and step 4 records
and answers (R49, R145). -/
theorem run_outcome {v : Word} (hstd : s.cfg.standard = true) (hs : s.seq = .busy ⟨.request (.cCmd d fn), 3, l⟩ [])
    (hd : s.ds.drive = d) (hsel : s.sel = d) (hv : csReady s.cfg v = true)
    (he : s.env = .ctlStatus v :: .sequencer :: .sequencer :: .sequencer :: more) :
    ∃ t, Host.Core.run Sys2Proof.core 4 s = .next t ∧ CommandEnded d v more s t := by
  have even := Cfg.wf_even (Cfg.standard_wf hstd)
  have presented := csValue_presentCs (s := { s with env := .sequencer :: .sequencer :: .sequencer :: more, bus := [] }) v
    (Cfg.standard_layout hstd)
  have waited := run_wait (s := presentCs v { s with env := .sequencer :: .sequencer :: .sequencer :: more, bus := [] })
    hstd (.inr rfl) hs (by rw [presented]; exact hv) rfl 1
  rw [presented] at waited
  exact ⟨_, (run_succ_of_next (M := Sys2Proof.core) 3 (step_of_env even he)).trans
    (waited.trans (run_succ_of_next (M := Sys2Proof.core) 0 (step_record hstd rfl rfl))),
    { idle := rfl, env := rfl, ds := by rw [← hd]; rfl, resp := rfl, cmd := if_pos hv, sel := hsel,
      rx := rfl, tx := rfl, da := rfl, ba := rfl, mp := rfl }⟩

/-- Step 2 of `C_CMD` and what follows it (R145). -/
theorem run_command {v : Word} (hstd : s.cfg.standard = true) (hs : s.seq = .busy ⟨.request (.cCmd d fn), 2, l⟩ [])
    (hv : csReady s.cfg v = true)
    (he : s.env = .sequencer :: .ctlStatus v :: .sequencer :: .sequencer :: .sequencer :: more) :
    ∃ t, Host.Core.run Sys2Proof.core 5 s = .next t ∧ CommandEnded d v more s t := by
  obtain ⟨-, writes, -⟩ := cCmdTransitions
    { s with env := .ctlStatus v :: .sequencer :: .sequencer :: .sequencer :: more, bus := [] } d fn l [] 2 hstd hs
  obtain ⟨u, ⟨w, rfl, -⟩, hexec⟩ := writes rfl
  have first := (step_sequencer (Cfg.wf_even (Cfg.standard_wf hstd)) hs he).trans hexec
  obtain ⟨t, ht, ended⟩ := run_outcome (d := d) (fn := fn) (l := l) (more := more) (s := { s with
    cs := w, sel := d, cmd := some ⟨fcode s.cfg fn, d⟩, bus := [.write s.cfg.addr.cs (csCmd s.cfg d fn)]
    ds := { s.ds with drive := d }, seq := .busy ⟨.request (.cCmd d fn), 3, l⟩ []
    env := .ctlStatus v :: .sequencer :: .sequencer :: .sequencer :: more }) hstd rfl rfl rfl hv rfl
  exact ⟨t, (run_succ_of_next (M := Sys2Proof.core) 4 first).trans ht, { ended with ds := ended.ds }⟩

/-- Settles O41: acceptance, the wait of step 1, the command write of step 2, and the second half. -/
theorem cCmdCompletes : Obligations.CCmdCompletes := by
  intro s q d fn v more hstd hidle hq hready hv he
  have accepted := (step_of_env (Cfg.wf_even (Cfg.standard_wf hstd)) he).trans
    (requestTurn_accepts (by exact hidle) hq (by simp))
  have waited := run_wait (s := { s with
    env := [.sequencer, .sequencer, .sequencer, .ctlStatus v, .sequencer, .sequencer, .sequencer] ++ more
    bus := [], seq := .busy ⟨.request (.cCmd d fn), 1, ⟨0, 0, 0⟩⟩ [], resp := none }) hstd (.inl rfl) rfl hready rfl 5
  obtain ⟨t, ht, ended⟩ := run_command (d := d) (fn := fn) (l := ⟨0, 0, 0⟩) (more := more) (s := { s with
    env := [.sequencer, .ctlStatus v, .sequencer, .sequencer, .sequencer] ++ more
    bus := [.read s.cfg.addr.cs (csValue s)], ds := { s.ds with csImage := csValue s }
    seq := .busy ⟨.request (.cCmd d fn), 2, ⟨0, 0, 0⟩⟩ [], resp := none }) hstd rfl hv rfl
  refine ⟨t, (run_succ_of_next (M := Sys2Proof.core) 7 accepted).trans (waited.trans ht), ended.idle, ended.env, ended.ds,
    ended.resp, ended.cmd, ended.sel, ended.rx, ended.tx, ended.da, ended.ba, ended.mp⟩

end

end Sys2Proof.Machine
end

section
/-! PROOFS. One step of the machine (spec/60_exceptions.md): which instruction it runs (R183, R184, R196), where the
host's duties stop it (R197, R214), and that a good state never stops otherwise (R180). First what the next move is, then
the turn of each agent, then the step. -/

namespace Sys2Proof.Machine

variable {s : State}

/-! ### The move that a step runs -/

/-- A step runs the next move, from the script or by default (R199). -/
theorem step_of_nextMove {m : Move} {rest : List Move} (ha : s.cfg.addr.even = true) (hm : nextMove s = (m, rest)) :
    step s = runMove m { s with env := rest, bus := [] } := by
  simp [step, turn, ha, openTurn, hm]

theorem nextMove_of_env {m : Move} {rest : List Move} (he : s.env = m :: rest) : nextMove s = (m, rest) := by
  simp [nextMove, he]

/-- The default move is a dispatch or a turn of the sequencer (assumption 9). -/
theorem defaultMove_cases (s : State) : defaultMove s = .sequencer ∨ ∃ v, defaultMove s = .dispatch v := by
  unfold defaultMove
  split
  · exact .inr ⟨.rx, rfl⟩
  · split
    · exact .inr ⟨.tx, rfl⟩
    · exact .inl rfl

/-- A move of any other kind comes from the script. -/
theorem env_of_nextMove {m : Move} (hm : (nextMove s).1 = m) (hq : m ≠ .sequencer) (hd : ∀ v, m ≠ .dispatch v) :
    s.env = m :: (nextMove s).2 := by
  cases he : s.env with
  | cons m' rest =>
    rw [nextMove_of_env he] at hm ⊢
    rw [← hm]
  | nil =>
    have default : m = defaultMove s := by rw [← hm, nextMove, he]
    obtain hseq | ⟨v, hv⟩ := defaultMove_cases s
    · exact absurd (default.trans hseq) hq
    · exact absurd (default.trans hv) (hd v)

/-- An odd register address has the step refused (R76). -/
theorem step_of_odd (h : ∃ a ∈ s.cfg.addr.toList, a.getLsbD 0 = true) : step s = .refused .oddRegisterAddress := by
  have odd : ¬s.cfg.addr.even = true := by
    obtain ⟨a, ha, hbit⟩ := h
    intro even
    have evenBit := List.all_eq_true.mp even a ha
    rw [hbit] at evenBit
    cases evenBit
  exact if_neg odd

/-! ### The duties of the host -/

theorem breaksDuty_iff {i : Instr} : breaksDuty i s = true ↔
    i = .srtInit ∧ (rie s = true ∨ tie s = true ∨ s.boot = .enabled ∨ s.boot = .draining) := by
  simp [breaksDuty, or_assoc]

theorem rcsrBreaksDuty_iff {on : Bool} : rcsrBreaksDuty on s = true ↔
    (∃ f below, s.seq = .busy f below ∧ f.op = .request .srtInit) ∨ (on = true ∧ s.boot ≠ .initialised) := by
  simp [rcsrBreaksDuty, srtInitRuns_iff]

theorem rcsrTurn_breaks {on : Bool} (h : rcsrBreaksDuty on s = true) : rcsrTurn on s = .fault .hostDutyBroken := if_pos h

theorem requestTurn_busy {q : ReqWord} {f : Frame} {below : List Frame} (hs : s.seq = .busy f below) :
    requestTurn q s = .next (refuse s) := by simp [requestTurn, hs]

theorem requestTurn_runs {q : ReqWord} {i : Instr} (hs : s.seq = .idle) (hq : decodeRequest s.cfg q = .ok i)
    (hd : breaksDuty i s = false) : requestTurn q s = exec i (noteRequest i s) := by simp [requestTurn, hs, hq, hd]

theorem requestTurn_breaks {q : ReqWord} {i : Instr} (hs : s.seq = .idle) (hq : decodeRequest s.cfg q = .ok i)
    (hd : breaksDuty i s = true) : requestTurn q s = .fault .hostDutyBroken := by simp [requestTurn, hs, hq, hd]

/-! ### No good state stops but at a breach -/

/-- A frame at one of the numbered steps of its operation has a next state (R32, R33). -/
theorem opStep_next {f : Frame} (ok : frameOk f = true) (s : State) : ∃ t, opStep f.op f s = .next t := by
  obtain ⟨op, n, l⟩ := f
  simp only [frameOk, Bool.and_eq_true, decide_eq_true_eq] at ok
  obtain ⟨hop, h1, hlast, -⟩ := ok
  cases op with
  | rdhdr d =>
    simp only [lastStep] at hlast
    interval_cases n <;> exact ⟨_, rfl⟩
  | request i =>
    cases i with
    | svcRx | svcTx | getStatus | seek | readHeader | readData => cases hop
    | cWaitc =>
      simp only [lastStep] at hlast
      interval_cases n
      cases hc : csReady s.cfg (regValue .cs s) <;> simp [opStep, requestStep, cWaitcStep, hc]
    | _ =>
      simp only [lastStep] at hlast
      interval_cases n <;> exact ⟨_, rfl⟩

/-- The sequencer has nothing to do while `IDLE` (R212). -/
theorem sequencerTurn_idle (hs : s.seq = .idle) : sequencerTurn s = .next s := by simp [sequencerTurn, hs]

theorem sequencerTurn_busy {f : Frame} {rest : List Frame} (hs : s.seq = .busy f rest) : sequencerTurn s = runTop f s := by
  simp [sequencerTurn, hs]

theorem sequencerTurn_next (inv : Inv s) : ∃ t, sequencerTurn s = .next t := by
  cases hs : s.seq with
  | idle => exact ⟨s, sequencerTurn_idle hs⟩
  | busy f rest =>
    have ok := stackOk_top (inv.stack hs)
    rw [sequencerTurn_busy hs, runTop_eq_opStep hs (Bool.and_eq_true_iff.mp ok).1]
    exact opStep_next ok s

theorem dispatchTurn_next (v : Service) (s : State) : ∃ t, dispatchTurn v s = .next t := by
  cases v <;> simp only [dispatchTurn] <;> split <;> exact ⟨_, rfl⟩

/-- An offered request is accepted or refused, unless the host breaks its duty with it (R33, R96, R196, R197). -/
theorem requestTurn_next_or_breaks (q : ReqWord) (s : State) : (∃ t, requestTurn q s = .next t) ∨
    (requestTurn q s = .fault .hostDutyBroken ∧ s.seq = .idle
      ∧ ∃ i, decodeRequest s.cfg q = .ok i ∧ breaksDuty i s = true) := by
  cases hs : s.seq with
  | busy f below => exact .inl ⟨_, requestTurn_busy hs⟩
  | idle =>
    cases hq : decodeRequest s.cfg q with
    | error e => exact .inl ⟨refuse s, by simp [requestTurn, hs, hq]⟩
    | ok i =>
      cases hd : breaksDuty i s with
      | true => exact .inr ⟨requestTurn_breaks hs hq hd, rfl, i, rfl, hd⟩
      | false =>
        refine .inl ⟨accept i (noteRequest i s), ?_⟩
        rw [requestTurn_runs hs hq hd, exec_request (decodeRequest_isRequest hq), transition_idle (by exact hs)]

/-- The next move of a good state has a next state, or it is the host's breach (R180, R197). -/
theorem runMove_next_or_breach {m : Move} (hm : (nextMove s).1 = m) (inv : Inv s) :
    (∃ t, runMove m (openTurn s) = .next t) ∨ (runMove m (openTurn s) = .fault .hostDutyBroken ∧ breach s) := by
  cases m with
  | sequencer => exact .inl (sequencerTurn_next (inv_openTurn inv))
  | dispatch v => exact .inl (dispatchTurn_next v _)
  | request q =>
    have he := env_of_nextMove hm (by simp) (by simp)
    refine (requestTurn_next_or_breaks q (openTurn s)).imp_right fun ⟨stops, hidle, i, hq, hd⟩ => ⟨stops, .inl ?_⟩
    obtain ⟨rfl, duty⟩ := breaksDuty_iff.mp hd
    exact ⟨hidle, q, _, he, hq, duty⟩
  | hostRcsr on =>
    have he := env_of_nextMove hm (by simp) (by simp)
    cases hd : rcsrBreaksDuty on (openTurn s) with
    | true => exact .inr ⟨rcsrTurn_breaks hd, .inr ⟨on, _, he, rcsrBreaksDuty_iff.mp hd⟩⟩
    | false => exact .inl ⟨writeRcsr on (openTurn s), by simp [runMove, rcsrTurn, hd]⟩
  | _ => exact .inl ⟨_, rfl⟩

/-- Settles O52: the step runs the next move, and only the host's two moves of the boot order can stop. -/
theorem goodStatesNeverStop : Obligations.GoodStatesNeverStop := by
  intro s inv
  have runs : step s = runMove (nextMove s).1 (openTurn s) := step_of_nextMove (Cfg.wf_even inv.cfg) rfl
  rw [safeStep, runs]
  exact runMove_next_or_breach rfl inv

/-! ### What a step runs -/

/-- In the boot order, and for every other request at any time, the host keeps its duty (R197, R214). -/
theorem breaksDuty_eq_false {i : Instr}
    (h : i = .srtInit → rie s = false ∧ tie s = false ∧ (s.boot = .start ∨ s.boot = .initialised)) :
    breaksDuty i s = false := by
  rw [Bool.eq_false_iff]
  intro hd
  obtain ⟨hi, broken⟩ := breaksDuty_iff.mp hd
  obtain ⟨hrie, htie, hboot⟩ := h hi
  rw [hrie, htie] at broken
  obtain hboot | hboot := hboot <;> simp [hboot] at broken

/-- Settles O11: the clauses are the next move, the step as that move, and the turn of each agent. -/
theorem stepRunsTheInstruction : Obligations.StepRunsTheInstruction := by
  refine fun s => ⟨step_of_odd, fun m rest => nextMove_of_env, fun he => by rw [nextMove, he]; rfl, fun rest even => ?_⟩
  have run : ∀ {m}, nextMove s = (m, rest) → step s = runMove m { s with env := rest, bus := [] } := step_of_nextMove even
  refine ⟨fun q i hm hs hq hduty => ?request, fun i n l below hm hs => ?instruction, fun d n l below hm hs => ?header,
    fun hm hs => ?idle, fun hm hirq => ?rx, fun hm hirq => ?tx, fun hm hirq => ?noRx, fun hm hirq => ?noTx⟩
  case request =>
    exact (run hm).trans (requestTurn_runs (by exact hs) hq (breaksDuty_eq_false hduty))
  case instruction => exact (run hm).trans (sequencerTurn_request (by exact hs))
  case header => exact (run hm).trans (sequencerTurn_busy (f := ⟨.rdhdr d, n, l⟩) (by exact hs))
  case idle => exact (run hm).trans (sequencerTurn_idle (by exact hs))
  case rx | tx => exact (run hm).trans (if_pos hirq)
  case noRx | noTx => exact (run hm).trans (if_neg (Bool.eq_false_iff.mp hirq))

/-- Settles O14: the offer to a busy block is `refuse`. -/
theorem requestWhileBusyRefused : Obligations.RequestWhileBusyRefused := by
  intro s q rest f below even he hs
  exact (step_of_env even he).trans (requestTurn_busy (by exact hs))

/-- Settles O21: the three clauses are the two sides of `breaksDuty` and the breach by `rcsrBreaksDuty`. -/
theorem serialBootOrderKept : Obligations.SerialBootOrderKept := by
  intro s rest even
  have decodes : ∀ c, decodeRequest c 0x0000000000000004#64 = .ok .srtInit := fun _ => rfl
  refine ⟨fun hs he hrie htie hboot => ?accepted, fun hs he broken => ?breach, fun on he broken => ?rcsr⟩
  case accepted =>
    have kept : breaksDuty .srtInit { s with env := rest, bus := [] } = false :=
      breaksDuty_eq_false fun _ => ⟨hrie, htie, hboot⟩
    rw [step_of_env even he, runMove, requestTurn_runs (by exact hs) (decodes _) kept, exec_request rfl,
      transition_idle (by exact hs)]
    rfl
  case breach =>
    have breaks : breaksDuty .srtInit { s with env := rest, bus := [] } = true := breaksDuty_iff.mpr ⟨rfl, broken⟩
    exact (step_of_env even he).trans (requestTurn_breaks (by exact hs) (decodes _) breaks)
  case rcsr =>
    exact (step_of_env even he).trans (rcsrTurn_breaks (rcsrBreaksDuty_iff.mpr broken))

end Sys2Proof.Machine
end

section
/-! PROOFS. The interrupt requests (spec/60_exceptions.md R182) and the order of the two services (R187): each service as
a whole next state, so that neither reads what the other writes. -/

namespace Sys2Proof.Machine

variable {s : State}

/-! ### The interrupt requests -/

/-- `IE` of the command word is 0 under every well-formed layout (R108). -/
theorem csIE_csCmd {c : Cfg} (hc : c.layout.wf = true) (d : Drive) (fn : Fn) :
    getField c.layout.csIE 1 (csCmd c d fn) = 0#1 := by
  have apart := fieldsOk_disjoint (Layout.wf_cs hc)
  simp only [List.pairwise_cons, List.mem_cons, List.not_mem_nil, or_false, forall_eq_or_imp, forall_eq] at apart
  obtain ⟨-, ⟨-, fIe, -⟩, -, ⟨-, ieDs, -⟩, -⟩ := apart
  exact getField_csCmd_other 1 ieDs (Field.disjoint_comm _ _ ▸ fIe)

/-- Settles O44: a flag of one bit is the bit at its place. -/
theorem interruptRequests : Obligations.InterruptRequests := by
  refine ⟨fun s => ⟨rfl, rfl⟩, fun s hc => ?_, fun c d fn hc => csIE_csCmd (Cfg.wf_layout hc) d fn⟩
  have bit : ∀ (lo : Nat) (a : AccessRight) (w : Word), flagField ⟨lo, 1, a⟩ w = w.getLsbD lo :=
    fun lo a w => flagField_eq _ w (Nat.le_refl 1)
  rw [irqRx, irqTx, hc]
  exact ⟨congrArg₂ _ (bit 7 _ _) (bit 6 _ _), congrArg₂ _ (bit 7 _ _) (bit 6 _ _)⟩

/-! ### The order of the services -/

/-- `SVC_RX` as one next state: it reads and writes the receive ring, its counter, RCSR and RBUF alone (R121). -/
theorem exec_svcRx_eq (h : s.cfg.layout.shaped = true) :
    exec .svcRx s = .next { s with
      rx := if s.rx.isFull s.cfg.rxCap then (s.rx.push s.cfg.rxCap (rbufByte s.cfg s.rbuf)).drop s.cfg.rxCap
        else s.rx.push s.cfg.rxCap (rbufByte s.cfg s.rbuf)
      rxOvf := if s.rx.isFull s.cfg.rxCap then (s.rxOvf + 1) % 2 ^ s.cfg.ovfBits else s.rxOvf
      rcsr := setField s.cfg.layout.rcsrDONE 0#1 s.rcsr
      bus := s.bus ++ [.read s.cfg.addr.rbuf s.rbuf] } := by
  rw [exec, execSvcRx, regValue_shaped h (by simp), afterRead_rbuf_eq h]
  cases hf : s.rx.isFull s.cfg.rxCap with
  | true => rw [receiveByte_full _ (by exact hf)]; rfl
  | false => rw [receiveByte_room _ (by exact hf)]; rfl

/-- `SVC_TX` does the same whatever the state of the receive service holds, but for where its accesses stand in the
record (R25, R123). -/
theorem svcTx_other (q : Ring) (n : Nat) (w : Word) (l : List Access) (h : s.cfg.layout.shaped = true) :
    { updateTie (sendByte { s with rx := q, rxOvf := n, rcsr := w, bus := l }) with bus := [] }
      = { updateTie (sendByte s) with rx := q, rxOvf := n, rcsr := w, bus := [] } := by
  cases he : s.tx.isEmpty
  case true => rw [sendByte_empty he, sendByte_empty (by exact he)]; rfl
  cases hr : flagField s.cfg.layout.xcsrREADY s.xcsr
  case false => rw [sendByte_notReady_eq h he hr, sendByte_notReady_eq (by exact h) (by exact he) (by exact hr)]; rfl
  case true => rw [sendByte_ready_eq h he hr, sendByte_ready_eq (by exact h) (by exact he) (by exact hr)]; rfl

/-- Settles O60: `SVC_RX` sees after `SVC_TX` what it saw before, and `SVC_TX` does the same after `SVC_RX`. -/
theorem serviceOrderIsFree : Obligations.ServiceOrderIsFree := by
  intro s hstd
  have shaped := Cfg.standard_shaped hstd
  refine ⟨_, _, _, _, exec_svcRx_eq shaped, rfl, rfl, exec_svcRx_eq (by simpa using shaped), ?_⟩
  rw [svcTx_other _ _ _ _ shaped]
  simp

end Sys2Proof.Machine
end

section
/-! PROOFS. RESET (spec/70_reset_and_hazards.md R210, R211, R213): the block's own state, and each device that the
platform's reset reaches or leaves as it was. -/

namespace Sys2Proof.Machine

variable {s : State}

/-! ### The block -/

/-- RESET of the block, whichever devices it reaches (R210). -/
theorem resetTurn_block (serial : Option SerialDraw) (storage : Option StorageDraw) (s : State) :
    (resetTurn serial storage s).seq = .idle ∧ (resetTurn serial storage s).resp = none
      ∧ (resetTurn serial storage s).rx = s.rx.clear ∧ (resetTurn serial storage s).tx = s.tx.clear
      ∧ (resetTurn serial storage s).rxOvf = 0 ∧ (resetTurn serial storage s).ds = DeviceStatus.reset s.cfg := by
  simp [resetTurn, resetBlock]

/-! ### The serial device -/

/-- A RESET sets the serial device as `resetSerialIf` does: the controller's part of it writes none of its registers. -/
theorem resetTurn_serial (serial : Option SerialDraw) (storage : Option StorageDraw) (s : State) :
    (resetTurn serial storage s).rcsr = (resetSerialIf serial s).rcsr
      ∧ (resetTurn serial storage s).rbuf = (resetSerialIf serial s).rbuf
      ∧ (resetTurn serial storage s).xcsr = (resetSerialIf serial s).xcsr
      ∧ (resetTurn serial storage s).xbuf = (resetSerialIf serial s).xbuf := by
  cases serial <;> simp [resetTurn, resetSerialIf, resetSerial]

/-- `READY` alone leaves `TIE` 0 (R211). -/
theorem tie_xcsrReady {c : Cfg} (hc : c.layout.wf = true) :
    flagField c.layout.xcsrTIE (putField c.layout.xcsrREADY 1#1) = false := by
  rw [flagField, getField_putField_other _ _ 1 1#1 (xcsr_disjoint hc)]
  rfl

theorem ready_xcsrReady {c : Cfg} (hc : c.layout.wf = true) :
    flagField c.layout.xcsrREADY (putField c.layout.xcsrREADY 1#1) = true :=
  flagField_putField_same _ true (Layout.fits_xcsrREADY hc).1 (Layout.fits_xcsrREADY hc).2

theorem irqRx_of_rcsr_zero (h : s.rcsr = 0x0000#16) : irqRx s = false := by
  simp [irqRx, h, flagField, getField]

/-! ### The storage controller -/

/-- A RESET sets the controller and its drives as `resetStorageIf` does. -/
theorem resetTurn_storage (serial : Option SerialDraw) (storage : Option StorageDraw) (s : State) :
    (resetTurn serial storage s).cs = (resetStorageIf storage s).cs
      ∧ (resetTurn serial storage s).ba = (resetStorageIf storage s).ba
      ∧ (resetTurn serial storage s).da = (resetStorageIf storage s).da
      ∧ (resetTurn serial storage s).mp = (resetStorageIf storage s).mp
      ∧ (resetTurn serial storage s).drives = (resetStorageIf storage s).drives
      ∧ (resetTurn serial storage s).sel = (resetStorageIf storage s).sel
      ∧ (resetTurn serial storage s).cmd = (resetStorageIf storage s).cmd := by
  cases storage <;> simp [resetTurn, resetStorageIf, resetStorage]

/-- `CRDY` shares no bit with a field of CS that a draw fills (R38). -/
theorem csCRDY_disjoint {c : Cfg} (hc : c.layout.wf = true) :
    ∀ f ∈ [c.layout.csDS, c.layout.csF, c.layout.csE, c.layout.csDE, c.layout.csCE],
      c.layout.csCRDY.disjoint f = true := by
  have apart := fieldsOk_disjoint (Layout.wf_cs hc)
  simp only [List.pairwise_cons, List.forall_mem_cons] at apart
  obtain ⟨-, ⟨-, -, fCrdy, -⟩, -, -, ⟨crdyDs, crdyE, crdyDe, crdyCe, -⟩, -⟩ := apart
  simp [crdyDs, Field.disjoint_comm _ c.layout.csF, fCrdy, crdyE, crdyDe, crdyCe]

/-- Setting `CRDY` leaves each field that the draw fills as drawn (R211). -/
theorem getField_setCrdy {c : Cfg} (hc : c.layout.wf = true) {f : Field} (n : Nat) (w : Word)
    (hf : f ∈ [c.layout.csDS, c.layout.csF, c.layout.csE, c.layout.csDE, c.layout.csCE]) :
    getField f n (setField c.layout.csCRDY 1#1 w) = getField f n w :=
  getField_setField_other _ _ _ _ _ (Field.disjoint_comm _ _ ▸ csCRDY_disjoint hc f hf)

/-- `CRDY` on the port is the stored one, since `DRDY` alone is the drive's (R49 c). -/
theorem csReady_csValue (hc : s.cfg.layout.wf = true) : csReady s.cfg (csValue s) = csReady s.cfg s.cs := by
  have apart := (List.pairwise_cons.mp (fieldsOk_disjoint (Layout.wf_cs hc))).1 s.cfg.layout.csCRDY (by simp)
  rw [csReady, csReady, flagField, flagField,
    getField_csValue_of_disjoint hc (Field.disjoint_comm _ _ ▸ apart)]

theorem csReady_setCrdy {c : Cfg} (hc : c.layout.wf = true) (w : Word) :
    csReady c (setField c.layout.csCRDY 1#1 w) = true :=
  flagField_setField_same _ true w (Layout.fits_csCRDY hc).1 (Layout.fits_csCRDY hc).2

/-! ### The move -/

/-- The step of a RESET move (R210). -/
theorem step_reset {serial : Option SerialDraw} {storage : Option StorageDraw} {rest : List Move}
    (ha : s.cfg.addr.even = true) (he : s.env = .reset serial storage :: rest) :
    step s = .next (resetTurn serial storage { s with env := rest, bus := [] }) :=
  step_of_env ha he

/-- Settles O45: the block's own state is reset whatever the reach; what RESET does not write, the registers of a device that
it does not reach among them, is kept by the frame. -/
theorem resetOfTheBlock : Obligations.ResetOfTheBlock := by
  intro s serial storage rest ha he
  obtain ⟨hseq, hresp, hrx, htx, hovf, hds⟩ := resetTurn_block serial storage { s with env := rest, bus := [] }
  refine ⟨_, step_reset ha he, hseq, hresp, hrx, htx, hovf, hds, by simp, by simp, by simp, by simp, by simp, by simp,
    ?serialKept, ?storageKept⟩
  case serialKept =>
    rintro rfl
    obtain ⟨hrcsr, hrbuf, hxcsr, hxbuf⟩ := resetTurn_serial none storage { s with env := rest, bus := [] }
    exact ⟨hrcsr, hrbuf, hxcsr, hxbuf, rfl⟩
  case storageKept =>
    rintro rfl
    exact resetTurn_storage serial none { s with env := rest, bus := [] }

/-- Settles O46: the values that R211 gives are those of `READY` alone and of `CRDY` set in the draw; the rest is drawn or
kept. -/
theorem resetOfTheDevices : Obligations.ResetOfTheDevices := by
  refine ⟨?serialReached, ?storageReached, ?serialKept, ?storageKept⟩
  case serialReached =>
    intro s w storage rest hwf he
    have hc := Cfg.wf_layout hwf
    obtain ⟨hrcsr, hrbuf, (hxcsr : _ = putField s.cfg.layout.xcsrREADY 1#1), hxbuf⟩ :=
      resetTurn_serial (some w) storage { s with env := rest, bus := [] }
    refine ⟨_, step_reset (Cfg.wf_even hwf) he, hrcsr, by simpa [hxcsr] using ready_xcsrReady hc,
      by simpa [hxcsr] using tie_xcsrReady hc, ?default, hrbuf, hxbuf,
      irqRx_of_rcsr_zero hrcsr, by simp [irqTx, hxcsr, tie_xcsrReady hc], rfl⟩
    case default =>
      intro hdefault
      rw [hxcsr, hdefault]
      decide
  case storageReached =>
    intro s serial w rest hwf he
    have hc := Cfg.wf_layout hwf
    obtain ⟨(hcs : _ = setField s.cfg.layout.csCRDY 1#1 w.cs), hba, hda, hmp, hdrives, hsel, hcmd⟩ :=
      resetTurn_storage serial (some w) { s with env := rest, bus := [] }
    refine ⟨_, step_reset (Cfg.wf_even hwf) he, ?ready, hcmd, hba, hda, hmp, hdrives, hsel, ?drawn⟩
    case ready => rw [csReady_csValue (by simpa using hc), hcs, resetTurn_cfg, csReady_setCrdy hc]
    case drawn =>
      simp [csDrive, csFunction, csError, csDriveError, csCompositeError, flagField, hcs, getField_setCrdy hc]
  case serialKept =>
    intro s storage rest hwf he
    exact ⟨_, step_reset (Cfg.wf_even hwf) he, resetTurn_serial none storage { s with env := rest, bus := [] }⟩
  case storageKept =>
    intro s serial rest hwf he
    exact ⟨_, step_reset (Cfg.wf_even hwf) he, resetTurn_storage serial none { s with env := rest, bus := [] }⟩

end Sys2Proof.Machine
end
